-- ==== Sys2Proof/Word.lean ====
section
/-! DEFINITION. The bit patterns of WUL-CORE (spec/00_scope.md R9): bytes, 16-, 24- and 32-bit words, 6-bit slot
indices, and the 33-byte packet image. -/

namespace Sys2Proof

/-- `U8`, one byte. -/
abbrev Byte := BitVec 8
/-- `U16`: checksums, sequence numbers, the window. -/
abbrev U16 := BitVec 16
/-- `U24`: the two's-complement pattern of one sample. -/
abbrev U24 := BitVec 24
/-- A command word or a result word (R82, R83). -/
abbrev U32 := BitVec 32
/-- The index of a transmit-history slot, 0 to 63 (R36), and an entry of a permutation table (R39). -/
abbrev SlotIndex := BitVec 6
/-- The 33 bytes of a packet (R110), offset 0 first. -/
abbrev Packet := Vector Byte 33

end Sys2Proof
end

