-- ==== Sys2Proof/Config.lean ====
section
/-! DEFINITION. The fixed parameters of spec/00_scope.md R7, and the open parameters of R8. An open parameter is
plain data in the record `Config`, which State carries and no operation changes: a statement about every state is
a statement about every choice of the parameters. What the spec leaves without any default is uninterpreted. -/

namespace Sys2Proof

/-! Fixed parameters (R7). -/

/-- `MARK`, `/`. -/
def markByte : Byte := 0x2F#8
/-- `TYPE_R`, `R`. -/
def typeR : Byte := 0x52#8
/-- `TYPE_C`, `c`. -/
def typeC : Byte := 0x63#8
/-- `TYPE_D`, `d`. -/
def typeD : Byte := 0x64#8
/-- `ESC`, the backslash. -/
def escByte : Byte := 0x5C#8
/-- `TERM`, the terminator of a finished word. -/
def termByte : Byte := 0x00#8
/-- The space, the one byte the hexadecimal decoder ignores (R80). -/
def spaceByte : Byte := 0x20#8
/-- `DELIMS`: NUL, space, CR, LF, TAB. -/
def delims : List Byte := [0x00#8, 0x20#8, 0x0D#8, 0x0A#8, 0x09#8]
/-- `PKT_BODY`, the bytes of a packet frame after its two marker bytes (90_conflicts.md C1: 31, not 29). -/
def pktBody : Nat := 31
/-- `CAP_CMD`. -/
def capCmd : Nat := 16
/-- `CAP_NAME`. -/
def capName : Nat := 16
/-- `CAP_VALUE`. -/
def capValue : Nat := 64
/-- `LOOKBEHIND`, the XOR mask of the look-behind index. -/
def lookBehind : SlotIndex := 32#6
/-- `SCALE`, the fixed-point scale of a sample. -/
def scale : Nat := 2 ^ 23

/-! Open parameters (R8). -/

/-- Which `CRC_STEP` the block has (R100): the spec's default instance (R103), or a function of which nothing is
known. DESIGN CHOICE of the spec (92_eei_decisions.md D1), log 1. -/
inductive CrcChoice where
  | xmodem
  | uninterpreted (n : Nat)
  deriving DecidableEq, Repr

/-- Which permutation table the block has (R39): a given table of 64 entries, or one of which nothing is known.
The spec gives no default (92_eei_decisions.md D14), log 3. -/
inductive PermChoice where
  | table (entries : Vector SlotIndex 64)
  | uninterpreted (n : Nat)
  deriving DecidableEq, Repr

/-- A `CRC_STEP` of which nothing is known (R8): no body, so nothing can be proved of its values (log 1). -/
opaque Config.freeCrcStep : Nat → U16 → Byte → U16

/-- A permutation table of which nothing is known but the range of its entries (R8), which is its type (log 3). -/
opaque Config.freePerm : Nat → SlotIndex → SlotIndex

/-- The open parameters of R8 that concern the block. `QUANT` is the producer's (R116) and `PORT_BASE` the
platform's (R57). -/
structure Config where
  /-- `CRC_STEP` -/
  crc : CrcChoice
  /-- `W_MAX` -/
  wMax : Nat
  /-- `STORE_16` -/
  store16 : Nat
  /-- `STORE_64` -/
  store64 : Nat
  /-- `PERM_A` -/
  permA : PermChoice
  /-- `PERM_B1` -/
  permB1 : PermChoice
  /-- `PERM_B2` -/
  permB2 : PermChoice
  /-- `HEX_UPPER` -/
  hexUpper : Bool
  deriving DecidableEq, Repr

/-- What R8 says of the sizes. `store16 ≤ store64` is DEDUCED from R27, whose one store of `STORE_64 + 1` bytes
holds the words of both caps (log 13). -/
abbrev Config.Legal (c : Config) : Prop :=
  1 ≤ c.wMax ∧ c.wMax ≤ 32767 ∧ 16 ≤ c.store16 ∧ 64 ≤ c.store64 ∧ c.store16 ≤ c.store64

/-- The defaults of R8, and uninterpreted permutation tables where R8 gives none. DESIGN CHOICE, logs 1 to 3. -/
def Config.default : Config where
  crc := .xmodem
  wMax := 64
  store16 := 32
  store64 := 128
  permA := .uninterpreted 0
  permB1 := .uninterpreted 1
  permB2 := .uninterpreted 2
  hexUpper := true

end Sys2Proof
end

