-- ==== Sys2Proof/Syntax.lean ====
section
/-! DEFINITION. The operations: one constructor per row of spec/opcode_table.json (spec/30_encoding.md R71, R82,
R89), and what the outside world can present to the block. -/

namespace Sys2Proof

/-- One operation. The first nine are command words (R82, R84), the next four are frames of the byte stream
(R71), the last four the pseudo-operations of R89. -/
inductive Instr where
  /-- `RESET` (R220) -/
  | reset
  /-- `RXB byte` (R142) -/
  | rxb (byte : Byte)
  /-- `BEGIN` (R201) -/
  | beginOp
  /-- `PAYWR off, byte` (R120) -/
  | paywr (off : Byte) (byte : Byte)
  /-- `SMPWR ch, raw` (R121) -/
  | smpwr (ch : BitVec 4) (raw : U24)
  /-- `SETORD mode` (R221) -/
  | setord (mode : BitVec 2)
  /-- `SETWIN size` (R222) -/
  | setwin (size : U16)
  /-- `CRCUPD crc, byte` (R105) -/
  | crcupd (crc : U16) (byte : Byte)
  /-- `RESERVED.OP8_F`: a command word with bit 31 set; `low` is `CMD[30:0]` (R224) -/
  | reservedOp (low : BitVec 31)
  /-- `FRAME.R`: the packet frame, `2F 52` and its 31 body bytes (R72) -/
  | frameR (body : List Byte)
  /-- `FRAME.c`: `2F 63` and the bytes of one delimited word (R73) -/
  | frameC (body : List Byte)
  /-- `FRAME.d`: `2F 64` and the bytes of two delimited words (R74) -/
  | frameD (body : List Byte)
  /-- `FRAME.other`: `2F` and a type byte that selects nothing (R71) -/
  | frameOther (type : Byte)
  /-- `FEED b0 ... bn` (R223) -/
  | feed (bytes : List Byte)
  /-- `CRC.COMPUTE b0 ... bn` (R106) -/
  | crcCompute (bytes : List Byte)
  /-- `SAMPLE r0 ... r8` (R89) -/
  | sample (raws : Vector U24 9)
  /-- `FEEDPKT p` (R89) -/
  | feedpkt (p : Packet)
  deriving DecidableEq, Repr

/-- What can be presented at the block's inputs. DESIGN CHOICE (log 5): the spec names the inputs, not a list. -/
inductive Input where
  /-- a command word on the command port (R82) -/
  | cmd (w : U32)
  /-- a chunk of bytes on the receive stream, each of which is an `RXB` (R12, R223) -/
  | wire (bytes : List Byte)
  /-- the hardware reset input (R260) -/
  | resetPin
  /-- a command word presented before the operation in progress is complete (R239, R266) -/
  | early (w : U32)
  deriving DecidableEq, Repr

/-- The phases of the delimited-word reader (R24): `SKIP`, `COPY`, `ESC`. -/
inductive WPhase where
  | skip
  | copy
  | esc
  deriving DecidableEq, Repr

end Sys2Proof
end

