-- ==== Sys2Proof/Machine/Operands.lean ====
section
/-! DEFINITION. Operand assembly (spec/30_encoding.md sections 2, 4 and R80; spec/00_scope.md R9, R10): bytes of words, big-endian
fields, sign extension, delimiters and hexadecimal digits. -/

namespace Sys2Proof.Machine

/-- `v[15:8]` -/
def hiByte (v : U16) : Byte := v.extractLsb' 8 8
/-- `v[7:0]` -/
def loByte (v : U16) : Byte := v.extractLsb' 0 8
/-- `raw[23:16]` -/
def rawHi (v : U24) : Byte := v.extractLsb' 16 8
/-- `raw[15:8]` -/
def rawMid (v : U24) : Byte := v.extractLsb' 8 8
/-- `raw[7:0]` -/
def rawLo (v : U24) : Byte := v.extractLsb' 0 8

/-- `p[k]` of a packet, for an offset 0 to 32 (R10). Beyond the packet there is no byte; the 0 is never used by
a rule (log 19). -/
def pktByte (p : Packet) (k : Nat) : Byte := if h : k < 33 then p[k] else 0#8

/-- `p[k] <- b`; an offset beyond the packet writes nothing (log 19). -/
def pktSetByte (p : Packet) (k : Nat) (b : Byte) : Packet := p.setIfInBounds k b

/-- `be16(p, k)`: the byte at the lower offset is the more significant (R10, R50). -/
def be16 (p : Packet) (k : Nat) : U16 := pktByte p k ++ pktByte p (k + 1)

/-- `be24(p, k)` (R10, R50). -/
def be24 (p : Packet) (k : Nat) : U24 := pktByte p k ++ pktByte p (k + 1) ++ pktByte p (k + 2)

/-- `sext_32` of a sample: bit 23 is copied into every higher bit (R77, R122). -/
def sext32 (raw : U24) : U32 := raw.signExtend 32

/-- `byte in DELIMS` (R7, R150). -/
def isDelim (b : Byte) : Bool := delims.contains b

/-- The value of a hexadecimal digit (R80); `none` for every byte that is no digit. -/
def hexVal (upper : Bool) (b : Byte) : Option (BitVec 4) :=
  if 0x30#8 ≤ b ∧ b ≤ 0x39#8 then some ((b - 0x30#8).setWidth 4)
  else if 0x61#8 ≤ b ∧ b ≤ 0x66#8 then some ((b - 0x61#8 + 10#8).setWidth 4)
  else if upper ∧ 0x41#8 ≤ b ∧ b ≤ 0x46#8 then some ((b - 0x41#8 + 10#8).setWidth 4)
  else none

end Sys2Proof.Machine
end

