-- ==== Sys2Proof/Decode.lean ====
section
/-! DEFINITION. The decoder and the encoder (spec/30_encoding.md R70 to R75, R82, R84, R85). A command word is decoded by
the match/mask rows of R82; a chunk of the receive stream is named after the frame it is, or else it is the chunk
of a `FEED` (R223). No word and no byte sequence is without an answer. -/

namespace Sys2Proof

/-- Why an input is no operation. -/
inductive Reject where
  /-- a must-be-zero bit is set (R84, R224) -/
  | reservedEncoding
  /-- presented before the operation in progress is complete (R239, R266) -/
  | overlap
  deriving DecidableEq, Repr

/-! Command words. -/

/-- One row of R82 in match/mask form, with the operand assembly of R85. -/
structure CmdRow where
  pattern : U32
  mask : U32
  operands : U32 → Instr

/-- The command space, R82 row by row, and its reserved half (R84). -/
def cmdTable : List CmdRow :=
  [ ⟨0x00000000#32, 0xFFFFFFFF#32, fun _ => .reset⟩,
    ⟨0x10000000#32, 0xFFFFFF00#32, fun w => .rxb (w.extractLsb' 0 8)⟩,
    ⟨0x20000000#32, 0xFFFFFFFF#32, fun _ => .beginOp⟩,
    ⟨0x30000000#32, 0xFFFF0000#32, fun w => .paywr (w.extractLsb' 8 8) (w.extractLsb' 0 8)⟩,
    ⟨0x40000000#32, 0xF0000000#32, fun w => .smpwr (w.extractLsb' 24 4) (w.extractLsb' 0 24)⟩,
    ⟨0x50000000#32, 0xFFFFFFFC#32, fun w => .setord (w.extractLsb' 0 2)⟩,
    ⟨0x60000000#32, 0xFFFF0000#32, fun w => .setwin (w.extractLsb' 0 16)⟩,
    ⟨0x70000000#32, 0xFF000000#32, fun w => .crcupd (w.extractLsb' 8 16) (w.extractLsb' 0 8)⟩,
    ⟨0x80000000#32, 0x80000000#32, fun w => .reservedOp (w.extractLsb' 0 31)⟩ ]

/-- A word belongs to a row when the bits the mask selects are the pattern's. -/
def CmdRow.fits (r : CmdRow) (w : U32) : Bool := w &&& r.mask == r.pattern

/-- The operation of a command word; a word no row fits has a must-be-zero bit set (R84). -/
def decodeCmd (w : U32) : Except Reject Instr :=
  match cmdTable.find? (fun r => r.fits w) with
  | some r => .ok (r.operands w)
  | none => .error .reservedEncoding

/-! Frames of the byte stream. -/

/-- Where one delimited word ends in a byte sequence. -/
inductive WordEnd where
  /-- it has not ended when the bytes run out -/
  | unfinished
  /-- it ended (R155); these bytes follow it -/
  | finished (rest : List Byte)
  /-- it overflowed its store (R156); these bytes follow the byte that did not fit -/
  | overflow (rest : List Byte)
  deriving DecidableEq, Repr

/-- The lengths the word reader would count over a byte sequence (R150), without storing anything: `count` is
`w_cnt`, `len` is `w_len`. -/
def wordRest (cap store : Nat) (phase : WPhase) (count len : Nat) : List Byte → WordEnd
  | [] => .unfinished
  | b :: bs =>
    if phase = .esc then
      if len = store then .overflow bs else wordRest cap store .copy count (len + 1) bs
    else if Machine.isDelim b then
      if phase = .skip then wordRest cap store .skip count len bs else .finished bs
    else if b = escByte then wordRest cap store .esc count len bs
    else if len = store then .overflow bs
    else if count + 1 = cap then .finished bs
    else wordRest cap store .copy (count + 1) (len + 1) bs

/-- The bytes are those of at most one command word (R73): nothing follows its end. The end itself may be still
to come, since a frame may be split across chunks (R53). -/
def isOneWord (c : Config) (body : List Byte) : Bool :=
  match wordRest capCmd c.store16 .skip 0 0 body with
  | .unfinished => true
  | .finished rest => rest.isEmpty
  | .overflow rest => rest.isEmpty

/-- The bytes are those of at most a name word and a value word (R74): nothing follows the end of the frame. -/
def isTwoWords (c : Config) (body : List Byte) : Bool :=
  match wordRest capName c.store16 .skip 0 0 body with
  | .unfinished => true
  | .overflow rest => rest.isEmpty
  | .finished value =>
    match wordRest capValue c.store64 .skip 0 0 value with
    | .unfinished => true
    | .finished rest => rest.isEmpty
    | .overflow rest => rest.isEmpty

/-- The name of a chunk of the receive stream (R71): the frame it is, or the chunk of a `FEED`. Every one of
them has the effect of the `RXB`s of its bytes; log 7. -/
def decodeWire (c : Config) (bytes : List Byte) : Instr :=
  match bytes with
  | m :: t :: body =>
    if m = markByte then
      if t = typeR then if body.length = pktBody then .frameR body else .feed bytes
      else if t = typeC then if isOneWord c body then .frameC body else .feed bytes
      else if t = typeD then if isTwoWords c body then .frameD body else .feed bytes
      else if body.isEmpty then .frameOther t else .feed bytes
    else .feed bytes
  | _ => .feed bytes

/-- The operation an input presents. The reset input has the effect of `RESET` (R260). -/
def decode (c : Config) (i : Input) : Except Reject Instr :=
  match i with
  | .cmd w => decodeCmd w
  | .wire bytes => .ok (decodeWire c bytes)
  | .resetPin => .ok .reset
  | .early _ => .error .overlap

/-! The encoder, written from R82, R71 to R74. -/

/-- The input that presents an operation; `none` for the pseudo-operations, which have no encoding of their own
(R89). -/
def encode (i : Instr) : Option Input :=
  match i with
  | .reset => some (.cmd 0x00000000#32)
  | .rxb b => some (.cmd (0x1#4 ++ 0#20 ++ b))
  | .beginOp => some (.cmd 0x20000000#32)
  | .paywr off b => some (.cmd (0x3#4 ++ 0#12 ++ off ++ b))
  | .smpwr ch raw => some (.cmd (0x4#4 ++ ch ++ raw))
  | .setord mode => some (.cmd (0x5#4 ++ 0#26 ++ mode))
  | .setwin size => some (.cmd (0x6#4 ++ 0#12 ++ size))
  | .crcupd crc b => some (.cmd (0x7#4 ++ 0#4 ++ crc ++ b))
  | .reservedOp low => some (.cmd (1#1 ++ low))
  | .frameR body => some (.wire (markByte :: typeR :: body))
  | .frameC body => some (.wire (markByte :: typeC :: body))
  | .frameD body => some (.wire (markByte :: typeD :: body))
  | .frameOther t => some (.wire [markByte, t])
  | .feed _ => none
  | .crcCompute _ => none
  | .sample _ => none
  | .feedpkt _ => none

/-! The rows of spec/opcode_table.json as the host numbers them. -/

/-- The bytes of a 16-bit table word of the wire space: the marker byte is its high byte, the type byte its low
byte (the stream's byte order, R50); the body bytes of a frame that has a body are zero (log 18). -/
def tableBytes (w : Nat) : List Byte :=
  let first := BitVec.ofNat 8 (w / 256)
  let second := BitVec.ofNat 8 w
  first :: second :: if second = typeR ∨ second = typeC ∨ second = typeD then List.replicate pktBody 0#8 else []

/-- The input a table word of `nbits` bits stands for. -/
def tableInput (nbits w : Nat) : Option Input :=
  if nbits = 32 then some (.cmd (BitVec.ofNat 32 w))
  else if nbits = 16 then some (.wire (tableBytes w))
  else none

/-- The instruction the decoder reads from a table word (with the default parameters, R8). -/
def decodeTableWord (nbits w : Nat) : Option Instr :=
  match tableInput nbits w with
  | none => none
  | some i =>
    match decode Config.default i with
    | .ok instr => some instr
    | .error _ => none

end Sys2Proof
end

