-- ==== Sys2Proof/Machine/Checksum.lean ====
section
/-! DEFINITION. The CRC-16 incremental checker as functions (spec/40_checksum.md R100 to R104). -/

namespace Sys2Proof.Machine

/-- One turn of the loop of R104. -/
def crcRomShift (c : U16) : U16 := if c.getLsbD 15 then (c <<< 1) ^^^ 0x1021#16 else c <<< 1

/-- `CRCROM[i]` of the default instance (R38, R104): `c <- i << 8`, then eight turns. -/
def crcRom (i : Byte) : U16 := Nat.repeat crcRomShift 8 (i ++ 0#8)

/-- The default `CRC_STEP`, CRC-16/XMODEM (R103): one table lookup. -/
def xmodemStep (crc : U16) (b : Byte) : U16 := (crc <<< 8) ^^^ crcRom (hiByte crc ^^^ b)

/-- `CRC_STEP` of the block (R8, R100). -/
def crcStepOf (c : CrcChoice) (crc : U16) (b : Byte) : U16 :=
  match c with
  | .xmodem => xmodemStep crc b
  | .uninterpreted n => Config.freeCrcStep n crc b

/-- `crc_update(crc, b)` (R100). -/
def crcUpdate (c : Config) (crc : U16) (b : Byte) : U16 := crcStepOf c.crc crc b

/-- `crc_compute(bytes)` (R101): the fold from 0, in ascending offset. -/
def crcCompute (c : Config) (bytes : List Byte) : U16 := bytes.foldl (crcUpdate c) 0#16

/-- `CRC_INJ` (R102), the property a certificate may assume of an uninterpreted `CRC_STEP`. -/
def CrcInj (step : U16 → Byte → U16) : Prop :=
  (∀ crc b b', b ≠ b' → step crc b ≠ step crc b') ∧ (∀ crc crc' b, crc ≠ crc' → step crc b ≠ step crc' b)

end Sys2Proof.Machine
end

