-- ==== Sys2Proof/Machine/Packet.lean ====
section
/-! DEFINITION. The fixed-packet binary codec as functions on the 33 bytes (spec/41_packet_codec.md R110 to R118). -/

namespace Sys2Proof.Machine

/-- `pkt_set_seq(p, s)` (R112). -/
def pktSetSeq (p : Packet) (s : U16) : Packet := pktSetByte (pktSetByte p 2 (hiByte s)) 3 (loByte s)

/-- `pkt_seq(p)` (R112, R76). -/
def pktSeq (p : Packet) : U16 := be16 p 2

/-- The two marker bytes written at offsets 0 and 1 (R72, R146). -/
def pktMark (p : Packet) : Packet := pktSetByte (pktSetByte p 0 markByte) 1 typeR

/-- `pkt_empty(s)` (R111): marker, sequence number, 29 zero bytes. -/
def pktEmpty (s : U16) : Packet := pktSetSeq (pktMark (Vector.replicate 33 0#8)) s

/-- The pattern of channel `c` (R77). -/
def smpRaw (p : Packet) (c : Nat) : U24 := be24 p (4 + 3 * c)

/-- `smp_get(p, c)` (R113): the signed integer. -/
def smpGet (p : Packet) (c : Nat) : Int := (smpRaw p c).toInt

/-- `smp_get(p, c)` as a 32-bit register value (R77, R113). -/
def smpGet32 (p : Packet) (c : Nat) : U32 := sext32 (smpRaw p c)

/-- `smp_put(p, c, raw)` (R114): three bytes, big-endian; the checksum field is not touched. -/
def smpPut (p : Packet) (c : Nat) (raw : U24) : Packet :=
  pktSetByte (pktSetByte (pktSetByte p (4 + 3 * c) (rawHi raw)) (5 + 3 * c) (rawMid raw)) (6 + 3 * c) (rawLo raw)

/-- `decode` (R115): the exact rational a raw sample stands for. -/
def smpValue (raw : Int) : Rat := raw / scale

/-- What R8 and R116 say of the producer's real-to-raw function `QUANT`, on the rationals (log 20). It is outside
the block. -/
def QuantOk (quant : Rat → Int) : Prop :=
  (∀ x, -(scale : Int) ≤ quant x ∧ quant x ≤ (scale : Int) - 1) ∧
  ∀ x : Rat, -1 ≤ x → x < 1 → |smpValue (quant x) - x| ≤ 1 / scale

/-- `p[0..30]`, the bytes the checksum covers (R110). -/
def pktCovered (p : Packet) : List Byte := p.toList.take 31

/-- `be16(p, 31)`, the checksum field (R78). -/
def pktCrcField (p : Packet) : U16 := be16 p 31

/-- `pkt_finalize(p)` (R117). -/
def pktFinalize (c : Config) (p : Packet) : Packet :=
  let k := crcCompute c (pktCovered p)
  pktSetByte (pktSetByte p 31 (hiByte k)) 32 (loByte k)

/-- `pkt_valid(p)` (R118). -/
def pktValid (c : Config) (p : Packet) : Bool := pktCrcField p = crcCompute c (pktCovered p)

end Sys2Proof.Machine
end

