-- ==== Sys2Proof/Machine/State.lean ====
section
/-! DEFINITION. The state of WUL-CORE (spec/10_state.md R20 to R47), its event records (spec/30_encoding.md R90), its drop
causes (spec/60_exceptions.md R231), and the reasons a step can stop. -/

namespace Sys2Proof.Machine

/-- The resting states of the framing machine (R21). -/
inductive RxSt where
  /-- scanning for the marker -/
  | sScan
  /-- marker seen -/
  | sType
  /-- collecting the 31 body bytes of a packet frame -/
  | sPkt
  /-- collecting the command token -/
  | sCmd
  /-- collecting the configuration name -/
  | sName
  /-- collecting the configuration value token -/
  | sValue
  deriving DecidableEq, Repr

/-- A slot of the reorder ring (R32). -/
inductive Slot where
  /-- `EMPTY`, a gap -/
  | empty
  /-- `FULL(p)` -/
  | full (p : Packet)
  deriving DecidableEq, Repr

/-- The transmit-order mode (R34): 0, 1 or 2; the value 3 can never be written (R221), log 22. -/
inductive TxMode where
  | mode0
  | mode1
  | mode2
  deriving DecidableEq, Repr

/-- An event record (R90), its bytes by value (R54). -/
inductive Event where
  /-- kind 0 -/
  | pktArrived (p : Packet)
  /-- kind 1 -/
  | pktReady (p : Packet)
  /-- kind 2 -/
  | config (name value : List Byte)
  /-- kind 3 -/
  | command (token : List Byte)
  deriving DecidableEq, Repr

/-- The drop causes (R231). -/
inductive DropCause where
  | badCrc
  | emptyToken
  | badHex
  | badType
  | tokenOverflow
  | stale
  deriving DecidableEq, Repr

/-- The block has no faults (R230; 93_implementation_defined.md part 1): no constructor, nothing raises one. -/
inductive Fault
  deriving DecidableEq, Repr

/-- Situations to which the spec gives no meaning (`refuse`, R11; 93_implementation_defined.md). All are safe: the model stops
where an implementation may go on. -/
inductive Refusal where
  /-- raised by `exec` for an instruction that has no meaning yet; safe -/
  | notModelled (mnemonic : String)
  /-- `RESERVED_ENCODING`: operation codes 8 to F, a must-be-zero bit set (R84, R224); raised by the fetch and by
  the reserved operation; safe -/
  | reservedEncoding
  /-- `RESERVED_OPERAND`: an operand outside its legal range (R84, R120, R121, R221, R222); raised by `PAYWR`,
  `SMPWR`, `SETORD`, `SETWIN`; safe -/
  | reservedOperand
  /-- `RB_INDEX`: a ring index or prefix outside the ring (R131, R134); raised by the ring operations, reached by
  no operation of the block (R139); safe -/
  | rbIndex
  /-- `RB_ZERO_CAP`: an append to a ring of capacity 0 (R133); raised by the ring operations, reached by no
  operation of the block (R139); safe -/
  | rbZeroCap
  /-- an operation presented before the previous one is complete (R239, R266); raised by the fetch; safe -/
  | overlap
  deriving DecidableEq, Repr

/-- The state: the tuple of R20, then the parameters (R8), then the ports. -/
structure State where
  /-- `st` (R21) -/
  st : RxSt
  /-- `rx_cnt`, 5 bits (R22) -/
  rxCnt : BitVec 5
  /-- `rxbuf` (R23) -/
  rxbuf : Packet
  /-- `w_phase` (R24) -/
  wPhase : WPhase
  /-- `w_cnt`, 7 bits (R25) -/
  wCnt : BitVec 7
  /-- `w_len` (R26), bounded by the store (log 21) -/
  wLen : Nat
  /-- `tok` (R27), `STORE_64 + 1` bytes -/
  tok : List Byte
  /-- `name_len` (R28), bounded by the store (log 21) -/
  nameLen : Nat
  /-- `name` (R28), `STORE_16 + 1` bytes -/
  name : List Byte
  /-- `last_seq` (R31) -/
  lastSeq : U16
  /-- `rb` (R32), front first -/
  rb : List Slot
  /-- `W` (R33) -/
  win : U16
  /-- `mode` (R34) -/
  mode : TxMode
  /-- `seq_tx` (R35) -/
  seqTx : U16
  /-- `hist` (R36) -/
  hist : Vector Packet 64
  /-- the open parameters (R8), which no operation changes (logs 1 to 3) -/
  cfg : Config
  /-- what the host has still to present, oldest first (log 5) -/
  input : List Input
  /-- the records that have left on the event port, oldest first (R59, R90; log 6) -/
  events : List Event
  /-- the words that have left on the result port, oldest first (R83; log 6) -/
  results : List U32
  /-- the drop causes met, oldest first, for the model's trace only (R11, R245; log 6) -/
  drops : List DropCause
  deriving DecidableEq, Repr

/-- Every element of R20 at its reset value (R46, D12; log 4), with the stores as long as the parameters say (R27, R28). -/
def State.initial (c : Config) : State where
  st := .sScan
  rxCnt := 0#5
  rxbuf := Vector.replicate 33 0#8
  wPhase := .skip
  wCnt := 0#7
  wLen := 0
  tok := List.replicate (c.store64 + 1) 0#8
  nameLen := 0
  name := List.replicate (c.store16 + 1) 0#8
  lastSeq := 0#16
  rb := []
  win := 0#16
  mode := .mode0
  seqTx := 0#16
  hist := Vector.replicate 64 (pktEmpty 0#16)
  cfg := c
  input := []
  events := []
  results := []
  drops := []

/-- The machine right after reset (R46, R260 to R262), with the default parameters (R8; logs 1 to 3). -/
def State.reset : State := State.initial Config.default

end Sys2Proof.Machine
end

