-- ==== Sys2Proof/Machine/Flags.lean ====
section
/-! DEFINITION. The block has no flags and no condition codes (spec/10_state.md R40). Its predicates: the occupied bit
of a slot (R40), and the delta of an incoming packet with the three branch conditions of the reorder algorithm (spec/44_reorder.md
R180, R181, R184). -/

namespace Sys2Proof.Machine

/-- The occupied bit of a slot (R32, R40). -/
def Slot.occupied (v : Slot) : Bool :=
  match v with
  | .empty => false
  | .full _ => true

/-- The front slot is there and occupied: the condition of the drain (R189). -/
def frontFull (rb : List Slot) : Bool :=
  match rb with
  | [] => false
  | v :: _ => v.occupied

/-- `d = signed_16((s - last_seq) mod 65536)` (R181). -/
def delta (s lastSeq : U16) : Int := (s - lastSeq).toInt

/-- New-ahead, `0 < d < W` (R185). -/
def isNewAhead (d : Int) (w : Nat) : Bool := 0 < d ∧ d < w

/-- Late or duplicate, `d <= 0 and |d| < rb_len` (R186). -/
def isLate (d : Int) (len : Nat) : Bool := d ≤ 0 ∧ d.natAbs < len

/-- Window restart, `|d| >= W` (R187); `|d|` is taken in the integers (R181). -/
def isRestart (d : Int) (w : Nat) : Bool := w ≤ d.natAbs

end Sys2Proof.Machine
end

