-- ==== Sys2Proof/Machine/Ring.lean ====
section
/-! DEFINITION. The RingBuffer container (spec/42_ring_buffer.md R130 to R137): its operations on the sequence of slots, with
the refusals outside their preconditions, and the physical form of R137. -/

namespace Sys2Proof.Machine

/-- `rb_get(k)` (R131). -/
def rbGet (rb : List Slot) (k : Nat) : Except Refusal Slot :=
  match rb[k]? with
  | some v => .ok v
  | none => .error .rbIndex

/-- `rb_set(k, v)` (R131). -/
def rbSet (rb : List Slot) (k : Nat) (v : Slot) : Except Refusal (List Slot) :=
  if k < rb.length then .ok (rb.set k v) else .error .rbIndex

/-- `rb_append(v)` on a ring of capacity `cap` (R132, R133): a full ring discards its front, undelivered. -/
def rbAppend (cap : Nat) (rb : List Slot) (v : Slot) : Except Refusal (List Slot) :=
  if rb.length < cap then .ok (rb ++ [v])
  else if cap = 0 then .error .rbZeroCap
  else .ok (rb.drop 1 ++ [v])

/-- `rb_remove_prefix(n)` (R134); the removed slots are not delivered here. -/
def rbRemovePrefix (rb : List Slot) (n : Nat) : Except Refusal (List Slot) :=
  if n ≤ rb.length then .ok (rb.drop n) else .error .rbIndex

/-- `rb_extend_empty(d)` (R135): `d` appends of `EMPTY`. -/
def rbExtendEmpty (cap : Nat) (rb : List Slot) : Nat → Except Refusal (List Slot)
  | 0 => .ok rb
  | d + 1 => do rbExtendEmpty cap (← rbAppend cap rb .empty) d

/-- `rb_clear()` (R136). -/
def rbClear : List Slot := []

/-- The sequence number slot `k` of a ring of `n` slots stands for (R138). -/
def slotSeq (lastSeq : U16) (n k : Nat) : U16 := lastSeq - BitVec.ofNat 16 (n - 1 - k)

/-! The physical form (R137): an array of `C` slots, `begin` and `size`. The block does not need it (R45). -/

/-- The physical ring; `C` is the length of `slots`. -/
structure PhysRing where
  slots : List Slot
  start : Nat
  size : Nat
  deriving DecidableEq, Repr

/-- Logical index `k` is `A[(begin + k) mod C]`. -/
def physGet (r : PhysRing) (k : Nat) : Slot := r.slots.getD ((r.start + k) % r.slots.length) .empty

/-- The sequence a physical ring holds. -/
def physView (r : PhysRing) : List Slot := (List.range r.size).map (physGet r)

/-- Append, with the wrap of R137; on overflow the front cell is overwritten and `begin` moves on. -/
def physAppend (r : PhysRing) (v : Slot) : PhysRing :=
  if r.size < r.slots.length then
    { r with slots := r.slots.set ((r.start + r.size) % r.slots.length) v, size := r.size + 1 }
  else
    { r with slots := r.slots.set r.start v, start := (r.start + 1) % r.slots.length }

/-- Prefix removal (R137). -/
def physRemovePrefix (r : PhysRing) (n : Nat) : PhysRing :=
  { r with start := (r.start + n) % r.slots.length, size := r.size - n }

/-- A physical ring as R137 has it: at least one cell, `begin` inside, at most `C` slots in use. -/
abbrev PhysRing.Ok (r : PhysRing) : Prop := 0 < r.slots.length ∧ r.start < r.slots.length ∧ r.size ≤ r.slots.length

end Sys2Proof.Machine
end

