-- ==== Sys2Proof/Machine/Ops.lean ====
section
/-! DEFINITION. The shared operations on the state: the primitives of spec/00_scope.md R11 (`emit`, `drop`, `MemRead`,
`MemWrite`), the result port, the discard of a frame with the return to scanning, and reset. -/

namespace Sys2Proof.Machine

/-! Outcomes. -/

/-- The outcome of an operation that may be refused. -/
def ofExcept (r : Except Refusal State) : Host.Outcome State Fault Refusal :=
  match r with
  | .ok s => .next s
  | .error e => .refused e

/-! The ports (R90, R83). -/

/-- `emit EV(args)` (R11, R90). -/
def State.emit (s : State) (e : Event) : State := { s with events := s.events ++ [e] }

/-- A word leaves on the result port (R83). -/
def State.putResult (s : State) (r : U32) : State := { s with results := s.results ++ [r] }

/-- The kind code of a record (R90). -/
def Event.kind (e : Event) : Nat :=
  match e with
  | .pktArrived _ => 0
  | .pktReady _ => 1
  | .config _ _ => 2
  | .command _ => 3

/-- The payload of a record (R90): the bytes, and before each byte string of a text record its length, without a
terminator. Lengths and bytes are written as numbers; the spec gives a length no width. -/
def Event.payload (e : Event) : List Nat :=
  match e with
  | .pktArrived p => p.toList.map BitVec.toNat
  | .pktReady p => p.toList.map BitVec.toNat
  | .config name value => name.length :: name.map BitVec.toNat ++ value.length :: value.map BitVec.toNat
  | .command token => token.length :: token.map BitVec.toNat

/-! Discard (R231, R232, R237): the block has no exception to take; this stands in its place. -/

/-- `drop CAUSE` (R11): a record in the model's trace and nothing else. -/
def State.dropped (s : State) (c : DropCause) : State := { s with drops := s.drops ++ [c] }

/-- `st <- S_SCAN`, where control goes after every frame, good or bad (R237). -/
def State.toScan (s : State) : State := { s with st := .sScan }

/-- The discard of a frame: the cause, then back to scanning (R237). -/
def State.discard (s : State) (c : DropCause) : State := (s.dropped c).toScan

/-! The internal stores (R56). -/

/-- The byte stores a `space` can name (R56); the ROMs are `crcRom` and `permEntry`. -/
inductive Space where
  | rxbuf
  | tok
  | name
  /-- slot index from the front times 33, plus the byte offset; an empty slot has no bytes -/
  | rb
  /-- slot index times 33, plus the byte offset -/
  | hist
  deriving DecidableEq, Repr

/-- The slot of the history with a given index (R36). -/
def State.histAt (s : State) (i : SlotIndex) : Packet := s.hist[i.toNat]'(by omega)

/-- `hist[i] <- p`. -/
def State.setHist (s : State) (i : SlotIndex) (p : Packet) : State :=
  { s with hist := s.hist.set i.toNat p (by omega) }

/-- One byte of `MemRead(space, addr, n)` (R11, R56); `none` where the store has no such byte. -/
def State.readByte (s : State) (space : Space) (addr : Nat) : Option Byte :=
  match space with
  | .rxbuf => if addr < 33 then some (pktByte s.rxbuf addr) else none
  | .tok => s.tok[addr]?
  | .name => s.name[addr]?
  | .rb =>
    match s.rb[addr / 33]? with
    | some (.full p) => some (pktByte p (addr % 33))
    | some .empty => none
    | none => none
  | .hist =>
    if addr < 64 * 33 then some (pktByte (s.histAt (BitVec.ofNat 6 (addr / 33))) (addr % 33)) else none

/-- `MemRead(space, addr, n)` (R11). -/
def State.memRead (s : State) (space : Space) (addr n : Nat) : List (Option Byte) :=
  (List.range n).map (fun k => s.readByte space (addr + k))

/-- A byte of an occupied slot. -/
def Slot.setByte (k : Nat) (b : Byte) (v : Slot) : Slot :=
  match v with
  | .full p => .full (pktSetByte p k b)
  | .empty => .empty

/-- One byte of `MemWrite(space, addr, n, v)` (R11, R56); an address the store does not have writes nothing
(log 19). -/
def State.writeByte (s : State) (space : Space) (addr : Nat) (b : Byte) : State :=
  match space with
  | .rxbuf => { s with rxbuf := pktSetByte s.rxbuf addr b }
  | .tok => { s with tok := s.tok.set addr b }
  | .name => { s with name := s.name.set addr b }
  | .rb => { s with rb := s.rb.modify (addr / 33) (Slot.setByte (addr % 33) b) }
  | .hist =>
    if addr < 64 * 33 then
      let i := BitVec.ofNat 6 (addr / 33)
      s.setHist i (pktSetByte (s.histAt i) (addr % 33) b)
    else s

/-- `MemWrite(space, addr, n, v)` (R11), the bytes in ascending offset. -/
def State.memWrite (s : State) (space : Space) (addr : Nat) : List Byte → State
  | [] => s
  | b :: bs => (s.writeByte space addr b).memWrite space (addr + 1) bs

/-! The current slot (R36, R37). -/

/-- The low six bits of a sequence number: `seq mod 64` (R37, R203). -/
def slotOf (seq : U16) : SlotIndex := seq.setWidth 6

/-- `cur = seq_tx mod 64` (R37). -/
def State.cur (s : State) : SlotIndex := slotOf s.seqTx

/-! Reset (R220, R260). -/

/-- Every element of R20 takes its reset value (R46). The parameters stay; what the host has still to present and
what has already left on the ports is not in the block (R262; log 11). -/
def resetOp (s : State) : State :=
  { State.initial s.cfg with input := s.input, events := s.events, results := s.results, drops := s.drops }

end Sys2Proof.Machine
end

