-- ==== Sys2Proof/Machine/Reorder.lean ====
section
/-! DEFINITION. The reorder algorithm (spec/44_reorder.md R180 to R189). The ring operations carry their refusals; that
none is ever reached is a statement about the model (spec/42_ring_buffer.md R131, R139). -/

namespace Sys2Proof.Machine

/-- The record of a slot that is delivered: an `EMPTY` slot has none (R183). -/
def State.deliver (s : State) (v : Slot) : State :=
  match v with
  | .full q => s.emit (.pktArrived q)
  | .empty => s

/-- `deliver_and_evict()` (R183). -/
def deliverAndEvict (s : State) : Except Refusal State := do
  let v ← rbGet s.rb 0
  let rb ← rbRemovePrefix s.rb 1
  return { s.deliver v with rb := rb }

/-- `while rb_len > 0 and c: deliver_and_evict()`, at most `n` times. Every turn removes one slot, so `n = rb_len`
is enough. -/
def evictWhile (c : List Slot → Bool) : Nat → State → Except Refusal State
  | 0, s => .ok s
  | n + 1, s =>
    if 0 < s.rb.length ∧ c s.rb then do evictWhile c n (← deliverAndEvict s) else .ok s

/-- `while rb_len > 0 and rb_len + d >= W: deliver_and_evict()` (R185). -/
def makeRoom (d w : Nat) (s : State) : Except Refusal State :=
  evictWhile (fun rb => w ≤ rb.length + d) s.rb.length s

/-- `while rb_len > 0: deliver_and_evict()` (R187, R222). -/
def flush (s : State) : Except Refusal State := evictWhile (fun _ => true) s.rb.length s

/-- The drain (R189). -/
def drain (s : State) : Except Refusal State := evictWhile frontFull s.rb.length s

/-- New-ahead (R185). -/
def newAhead (p : Packet) (d : Nat) (s : State) : Except Refusal State := do
  let s ← makeRoom d s.win.toNat s
  let rb ← rbExtendEmpty s.win.toNat s.rb d
  let rb ← rbSet rb (rb.length - 1) (.full p)
  return { s with rb := rb, lastSeq := pktSeq p }

/-- Late or duplicate (R186): index `rb_len - 1 + d`, with `d <= 0`. -/
def late (p : Packet) (d : Int) (s : State) : Except Refusal State := do
  let rb ← rbSet s.rb (((s.rb.length : Int) - 1 + d).toNat) (.full p)
  return { s with rb := rb }

/-- Window restart (R187). -/
def windowRestart (p : Packet) (s : State) : Except Refusal State := do
  let s ← flush s
  let rb ← rbAppend s.win.toNat s.rb (.full p)
  return { s with rb := rb, lastSeq := pktSeq p }

/-- The branch taken, in the order of R184; a packet that meets none of the three is `STALE` (R188). -/
def reorderBranch (p : Packet) (s : State) : Except Refusal State :=
  let d := delta (pktSeq p) s.lastSeq
  if isNewAhead d s.win.toNat then newAhead p d.toNat s
  else if isLate d s.rb.length then late p d s
  else if isRestart d s.win.toNat then windowRestart p s
  else .ok (s.dropped .stale)

/-- `reorder_accept(p)` (R180, R182). -/
def reorderAccept (p : Packet) (s : State) : Except Refusal State :=
  if s.win = 0#16 then .ok { s.emit (.pktArrived p) with lastSeq := pktSeq p }
  else do drain (← reorderBranch p s)

end Sys2Proof.Machine
end

