-- ==== Sys2Proof/Machine/Control.lean ====
section
/-! DEFINITION. The control operations (spec/46_control_ops.md R220 to R224) and the checksum operations (spec/40_checksum.md
R105, R106). -/

namespace Sys2Proof.Machine

/-- `RESET` (R220). -/
def execReset (s : State) : Host.Outcome State Fault Refusal := .next (resetOp s)

/-- The mode an operand of `SETORD` selects; 3 selects none (R221). -/
def modeOf (m : BitVec 2) : Option TxMode :=
  if m = 0#2 then some .mode0 else if m = 1#2 then some .mode1 else if m = 2#2 then some .mode2 else none

/-- `SETORD mode` (R221). -/
def execSetord (m : BitVec 2) (s : State) : Host.Outcome State Fault Refusal :=
  match modeOf m with
  | some t => .next { s with mode := t }
  | none => .refused .reservedOperand

/-- `SETWIN size` (R222): flush, then set. -/
def execSetwin (size : U16) (s : State) : Host.Outcome State Fault Refusal :=
  if s.cfg.wMax < size.toNat then .refused .reservedOperand
  else ofExcept (do return { ← flush s with win := size })

/-- The effect of `CRCUPD` (R105): one result word. -/
def crcStepResult (crc : U16) (b : Byte) (s : State) : State := s.putResult ((crcUpdate s.cfg crc b).setWidth 32)

/-- `CRCUPD crc, byte` (R105). -/
def execCrcupd (crc : U16) (b : Byte) (s : State) : Host.Outcome State Fault Refusal :=
  .next (crcStepResult crc b s)

/-- A chain of `CRCUPD`, the host holding the running value between them (R106). -/
def crcChain (crc : U16) : List Byte → State → State
  | [], s => s
  | b :: bs, s => crcChain (crcUpdate s.cfg crc b) bs (crcStepResult crc b s)

/-- `CRC.COMPUTE b0 ... bn` (R89, R106): the chain from 0. -/
def execCrcCompute (bytes : List Byte) (s : State) : Host.Outcome State Fault Refusal :=
  .next (crcChain 0#16 bytes s)

/-- `RESERVED.OP8_F` (R84, R224): the spec gives it no meaning. -/
def execReservedOp (_low : BitVec 31) (_s : State) : Host.Outcome State Fault Refusal := .refused .reservedEncoding

end Sys2Proof.Machine
end

