-- ==== Sys2Proof/Machine/Framing.lean ====
section
/-! DEFINITION. The byte-stream framing machine (spec/43_framing_fsm.md R140 to R162): the handlers of the six resting
states and of the three ready states, the delimited-word reader, the hexadecimal decoder; and `RXB`, the frames
and the chunks of the receive stream. -/

namespace Sys2Proof.Machine

/-! The delimited-word reader (R150 to R156). -/

/-- `cap(st)` (R29). -/
def capOf (st : RxSt) : Option Nat :=
  match st with
  | .sCmd => some capCmd
  | .sName => some capName
  | .sValue => some capValue
  | .sScan => none
  | .sType => none
  | .sPkt => none

/-- `store(st)` (R29). -/
def storeOf (c : Config) (st : RxSt) : Option Nat :=
  match st with
  | .sCmd => some c.store16
  | .sName => some c.store16
  | .sValue => some c.store64
  | .sScan => none
  | .sType => none
  | .sPkt => none

/-- What `word_step` returns (R150). -/
inductive WordResult where
  | more
  | done
  | overflow
  deriving DecidableEq, Repr

/-- `word_start()` (R151). -/
def wordStart (s : State) : State := { s with wPhase := .skip, wCnt := 0#7, wLen := 0 }

/-- A byte is stored at `tok[w_len]` and the phase becomes `COPY` (R152 to R154). -/
def storeByte (b : Byte) (s : State) : State :=
  { s.writeByte .tok s.wLen b with wLen := s.wLen + 1, wPhase := .copy }

/-- `finish()` (R155): the terminator, not counted. -/
def wordFinish (s : State) : WordResult × State := (.done, s.writeByte .tok s.wLen termByte)

/-- `word_step(byte)` with the cap and the store bound of the state (R150). -/
def wordStep (cap store : Nat) (b : Byte) (s : State) : WordResult × State :=
  match s.wPhase with
  | .esc => if s.wLen = store then (.overflow, s) else (.more, storeByte b s)
  | .skip =>
    if isDelim b then (.more, s) else wordOther cap store b s
  | .copy =>
    if isDelim b then wordFinish s else wordOther cap store b s
where
  /-- a byte that is no delimiter, in phase `SKIP` or `COPY` (R150) -/
  wordOther (cap store : Nat) (b : Byte) (s : State) : WordResult × State :=
    if b = escByte then (.more, { s with wPhase := .esc })
    else if s.wLen = store then (.overflow, s)
    else
      let s := { storeByte b s with wCnt := s.wCnt + 1#7 }
      if s.wCnt.toNat = cap then wordFinish s else (.more, s)

/-! Hexadecimal decoding in place (R162). -/

/-- The loop of `hex_decode()`: `todo` bytes from index `k` on, `n` bytes decoded, `hi` the pending high digit.
The answer is the token store and the decoded length, 0 on failure. -/
def hexLoop (upper : Bool) (todo k : Nat) (tok : List Byte) (n : Nat) (hi : Option (BitVec 4)) : List Byte × Nat :=
  match todo with
  | 0 => (tok, if hi.isSome then 0 else n)
  | todo + 1 =>
    let c := tok.getD k 0#8
    if c = spaceByte then hexLoop upper todo (k + 1) tok n hi
    else
      match hexVal upper c, hi with
      | none, _ => (tok, 0)
      | some v, none => hexLoop upper todo (k + 1) tok n (some v)
      | some v, some h => hexLoop upper todo (k + 1) (tok.set n (h ++ v)) (n + 1) none

/-- `hex_decode()` (R162): overwrites `tok[0..n-1]` and answers `n`. -/
def hexDecode (s : State) : State × Nat :=
  let r := hexLoop s.cfg.hexUpper s.wLen 0 s.tok 0 none
  ({ s with tok := r.1 }, r.2)

/-! The ready states (R146, R160, R161); each returns to `S_SCAN`. -/

/-- `S_PKT_FIN` (R146). -/
def pktFin (s : State) : Except Refusal State := do
  let s := s.memWrite .rxbuf 0 [markByte, typeR]
  if pktValid s.cfg s.rxbuf then return (← reorderAccept s.rxbuf s).toScan
  else return s.discard .badCrc

/-- `S_CMD_FIN` (R160). -/
def cmdFin (s : State) : State :=
  if s.wLen = 0 then s.discard .emptyToken else (s.emit (.command (s.tok.take s.wLen))).toScan

/-- `S_CFG_FIN` (R161): emptiness first, then the decode. -/
def cfgFin (s : State) : State :=
  if s.nameLen = 0 ∨ s.wLen = 0 then s.discard .emptyToken
  else
    let r := hexDecode s
    if r.2 = 0 then r.1.discard .badHex
    else (r.1.emit (.config (s.name.take s.nameLen) (r.1.tok.take r.2))).toScan

/-! The input-consuming states (R143 to R145, R157 to R159). -/

/-- `S_SCAN` (R143). -/
def onScan (b : Byte) (s : State) : State :=
  if b = markByte then { s with st := .sType } else s.toScan

/-- `S_TYPE` (R144): the byte is consumed in every case. -/
def onType (b : Byte) (s : State) : State :=
  if b = typeR then { s with rxCnt := 0#5, st := .sPkt }
  else if b = typeC then { wordStart s with st := .sCmd }
  else if b = typeD then { wordStart s with st := .sName }
  else s.discard .badType

/-- `S_PKT` (R145), and `S_PKT_FIN` at the 31st body byte. -/
def onPkt (b : Byte) (s : State) : Except Refusal State :=
  let s := { s.writeByte .rxbuf (2 + s.rxCnt.toNat) b with rxCnt := s.rxCnt + 1#5 }
  if s.rxCnt.toNat = pktBody then pktFin s else .ok s

/-- `S_CMD` (R157). -/
def onCmd (b : Byte) (s : State) : State :=
  match wordStep capCmd s.cfg.store16 b s with
  | (.more, s) => s
  | (.done, s) => cmdFin s
  | (.overflow, s) => s.discard .tokenOverflow

/-- The finished name moves, with its terminator, to its own store, and the value word starts (R158). -/
def nameDone (s : State) : State :=
  { wordStart (s.memWrite .name 0 (s.tok.take (s.wLen + 1))) with nameLen := s.wLen, st := .sValue }

/-- `S_NAME` (R158). -/
def onName (b : Byte) (s : State) : State :=
  match wordStep capName s.cfg.store16 b s with
  | (.more, s) => s
  | (.done, s) => nameDone s
  | (.overflow, s) => s.discard .tokenOverflow

/-- `S_VALUE` (R159). -/
def onValue (b : Byte) (s : State) : State :=
  match wordStep capValue s.cfg.store64 b s with
  | (.more, s) => s
  | (.done, s) => cfgFin s
  | (.overflow, s) => s.discard .tokenOverflow

/-- One turn of the run loop on one byte (R141, R142). -/
def rxByte (b : Byte) (s : State) : Except Refusal State :=
  match s.st with
  | .sScan => .ok (onScan b s)
  | .sType => .ok (onType b s)
  | .sPkt => onPkt b s
  | .sCmd => .ok (onCmd b s)
  | .sName => .ok (onName b s)
  | .sValue => .ok (onValue b s)

/-- The bytes of a chunk in order (R223). -/
def rxBytes : List Byte → State → Except Refusal State
  | [], s => .ok s
  | b :: bs, s => do rxBytes bs (← rxByte b s)

/-! The operations of this family. -/

/-- `RXB byte` (R142). -/
def execRxb (b : Byte) (s : State) : Host.Outcome State Fault Refusal := ofExcept (rxByte b s)

/-- `FRAME.R` (R72, R144 to R146): its 33 bytes. -/
def execFrameR (body : List Byte) (s : State) : Host.Outcome State Fault Refusal :=
  ofExcept (rxBytes (markByte :: typeR :: body) s)

/-- `FRAME.c` (R73, R157, R160): its bytes. -/
def execFrameC (body : List Byte) (s : State) : Host.Outcome State Fault Refusal :=
  ofExcept (rxBytes (markByte :: typeC :: body) s)

/-- `FRAME.d` (R74, R158 to R162): its bytes. -/
def execFrameD (body : List Byte) (s : State) : Host.Outcome State Fault Refusal :=
  ofExcept (rxBytes (markByte :: typeD :: body) s)

/-- `FRAME.other` (R71, R144): its two bytes. -/
def execFrameOther (t : Byte) (s : State) : Host.Outcome State Fault Refusal :=
  ofExcept (rxBytes [markByte, t] s)

/-- `FEED b0 ... bn` (R223); an empty chunk is no operation at all. -/
def execFeed (bytes : List Byte) (s : State) : Host.Outcome State Fault Refusal := ofExcept (rxBytes bytes s)

/-- `FEEDPKT p` (R89): `FEED p[0] ... p[32]`. -/
def execFeedpkt (p : Packet) (s : State) : Host.Outcome State Fault Refusal := ofExcept (rxBytes p.toList s)

end Sys2Proof.Machine
end

