-- ==== Sys2Proof/Machine/Transmit.lean ====
section
/-! DEFINITION. The transmit side (spec/45_transmit.md R200 to R209) and the payload writes (spec/41_packet_codec.md R120, R121). -/

namespace Sys2Proof.Machine

/-- An entry of a permutation table (R39). -/
def permEntry (t : PermChoice) (j : SlotIndex) : SlotIndex :=
  match t with
  | .table entries => entries[j.toNat]'(by omega)
  | .uninterpreted n => Config.freePerm n j

/-- `emit PKT_READY(hist[k])` (R205). -/
def emitReady (k : SlotIndex) (s : State) : State := s.emit (.pktReady (s.histAt k))

/-- The emission the mode selects (R204 to R207), for the look-behind index `j`. -/
def emitByMode (j : SlotIndex) (s : State) : State :=
  match s.mode with
  | .mode0 => emitReady j s
  | .mode1 => emitReady (permEntry s.cfg.permA j) s
  | .mode2 => emitReady (permEntry s.cfg.permB2 j) (emitReady (permEntry s.cfg.permB1 j) s)

/-- Finalise the packet just filled (R202). -/
def finalizeCur (s : State) : State := s.setHist s.cur (pktFinalize s.cfg (s.histAt s.cur))

/-- The whole effect of `BEGIN` (R201), in the order of its pseudocode. -/
def beginSample (s : State) : State :=
  let s := finalizeCur s
  let s := { s with seqTx := s.seqTx + 1#16 }
  let i := s.cur
  let s := emitByMode (i ^^^ lookBehind) s
  let s := s.setHist i (pktEmpty s.seqTx)
  s.putResult (i.setWidth 32)

/-- `BEGIN` (R201). -/
def execBegin (s : State) : Host.Outcome State Fault Refusal := .next (beginSample s)

/-- The address in the space `HIST` of payload offset `off` of the current slot (R120). -/
def payloadAddr (s : State) (off : Nat) : Nat := s.cur.toNat * 33 + 4 + off

/-- `PAYWR off, byte` (R120). -/
def execPaywr (off b : Byte) (s : State) : Host.Outcome State Fault Refusal :=
  if 26 < off.toNat then .refused .reservedOperand
  else .next (s.writeByte .hist (payloadAddr s off.toNat) b)

/-- The store of one sample into the current slot (R121). -/
def putSample (ch : Nat) (raw : U24) (s : State) : State := s.setHist s.cur (smpPut (s.histAt s.cur) ch raw)

/-- `SMPWR ch, raw` (R121). -/
def execSmpwr (ch : BitVec 4) (raw : U24) (s : State) : Host.Outcome State Fault Refusal :=
  if 8 < ch.toNat then .refused .reservedOperand else .next (putSample ch.toNat raw s)

/-- `SMPWR ch, r; SMPWR ch + 1, r'; ...`. -/
def putSamples (ch : Nat) : List U24 → State → State
  | [], s => s
  | r :: rs, s => putSamples (ch + 1) rs (putSample ch r s)

/-- `SAMPLE r0 ... r8` (R89): `BEGIN`, then `SMPWR` of the nine channels. -/
def execSample (raws : Vector U24 9) (s : State) : Host.Outcome State Fault Refusal :=
  .next (putSamples 0 raws.toList (beginSample s))

end Sys2Proof.Machine
end

