-- ==== Sys2Proof/Machine/Dispatch.lean ====
section
/-! DEFINITION. One arm per constructor of Instr, each one call of its meaning. -/

namespace Sys2Proof.Machine

def exec (i : Instr) (s : State) : Host.Outcome State Fault Refusal :=
  match i with
  | .reset => Sys2Proof.Machine.execReset s
  | .rxb b => Sys2Proof.Machine.execRxb b s
  | .beginOp => Sys2Proof.Machine.execBegin s
  | .paywr off b => Sys2Proof.Machine.execPaywr off b s
  | .smpwr ch raw => Sys2Proof.Machine.execSmpwr ch raw s
  | .setord m => Sys2Proof.Machine.execSetord m s
  | .setwin size => Sys2Proof.Machine.execSetwin size s
  | .crcupd crc b => Sys2Proof.Machine.execCrcupd crc b s
  | .reservedOp low => Sys2Proof.Machine.execReservedOp low s
  | .frameR body => Sys2Proof.Machine.execFrameR body s
  | .frameC body => Sys2Proof.Machine.execFrameC body s
  | .frameD body => Sys2Proof.Machine.execFrameD body s
  | .frameOther t => Sys2Proof.Machine.execFrameOther t s
  | .feed bytes => Sys2Proof.Machine.execFeed bytes s
  | .crcCompute bytes => Sys2Proof.Machine.execCrcCompute bytes s
  | .sample raws => Sys2Proof.Machine.execSample raws s
  | .feedpkt p => Sys2Proof.Machine.execFeedpkt p s

end Sys2Proof.Machine
end

