-- ==== Sys2Proof/Machine/Fetch.lean ====
section
/-! DEFINITION. How the next operation is taken from the inputs (spec/00_scope.md R12, spec/30_encoding.md R82, spec/60_exceptions.md
R239, spec/70_reset_and_hazards.md R260, R266), and how a table word is placed there. -/

namespace Sys2Proof.Machine

/-- What the step finds at the inputs. -/
inductive Fetched where
  /-- nothing is presented: the block is idle and holds its state (R246) -/
  | idle
  /-- an operation, and the state once its input is taken -/
  | operation (i : Instr) (s : State)
  /-- no operation -/
  | refused (r : Refusal)
  deriving DecidableEq, Repr

/-- The refusal a rejected input stands for. -/
def refusalOf (r : Reject) : Refusal :=
  match r with
  | .reservedEncoding => .reservedEncoding
  | .overlap => .overlap

/-- The oldest input is decoded and taken. -/
def fetch (s : State) : Fetched :=
  match s.input with
  | [] => .idle
  | x :: rest =>
    match decode s.cfg x with
    | .ok i => .operation i { s with input := rest }
    | .error r => .refused (refusalOf r)

/-- `s` with an input presented before all others. -/
def State.present (s : State) (x : Input) : State := { s with input := x :: s.input }

/-- `s` with a table word presented next. -/
def placeTableWord (s : State) (nbits w : Nat) : State :=
  match tableInput nbits w with
  | some x => s.present x
  | none => s

end Sys2Proof.Machine
end

