-- ==== Sys2Proof/Machine/Step.lean ====
section
/-! DEFINITION. One step: the oldest input is taken and its operation is performed, atomically (spec/00_scope.md R12,
spec/20_memory.md R59). -/

namespace Sys2Proof.Machine

/-- One step. With nothing presented the block is idle and holds its state (R246; log 12). -/
def step (s : State) : Host.Outcome State Fault Refusal :=
  match fetch s with
  | .idle => .next s
  | .operation i t => exec i t
  | .refused r => .refused r

/-- `s` with the table word presented next, so that the very next step runs it (log 5). -/
def State.withFetchWord (s : State) (nbits w : Nat) : State := placeTableWord s nbits w

end Sys2Proof.Machine
end

