-- ==== Sys2Proof/Machine/Expand.lean ====
section
/-! DEFINITION. The expansions of the pseudo-operations and of the frames into the operations of spec/30_encoding.md R82
(R89, spec/46_control_ops.md R223, spec/40_checksum.md R106, spec/00_scope.md R12), and operations performed one after the other. -/

namespace Sys2Proof.Machine

/-- The `RXB` operations of a byte sequence (R223). -/
def rxbOps (bytes : List Byte) : List Instr := bytes.map Instr.rxb

/-- The `CRCUPD` operations of a chain, each with the running value the host holds (R106). -/
def crcOps (c : Config) (crc : U16) : List Byte → List Instr
  | [] => []
  | b :: bs => .crcupd crc b :: crcOps c (crcUpdate c crc b) bs

/-- `SMPWR ch, r; SMPWR ch + 1, r'; ...`. -/
def smpwrOps (ch : Nat) : List U24 → List Instr
  | [] => []
  | r :: rs => .smpwr (BitVec.ofNat 4 ch) r :: smpwrOps (ch + 1) rs

/-- The expansion of an operation into operations of R82; a command word is its own. -/
def expand (c : Config) (i : Instr) : List Instr :=
  match i with
  | .reset => [.reset]
  | .rxb b => [.rxb b]
  | .beginOp => [.beginOp]
  | .paywr off b => [.paywr off b]
  | .smpwr ch raw => [.smpwr ch raw]
  | .setord m => [.setord m]
  | .setwin size => [.setwin size]
  | .crcupd crc b => [.crcupd crc b]
  | .reservedOp low => [.reservedOp low]
  | .frameR body => rxbOps (markByte :: typeR :: body)
  | .frameC body => rxbOps (markByte :: typeC :: body)
  | .frameD body => rxbOps (markByte :: typeD :: body)
  | .frameOther t => rxbOps [markByte, t]
  | .feed bytes => rxbOps bytes
  | .crcCompute bytes => crcOps c 0#16 bytes
  | .sample raws => .beginOp :: smpwrOps 0 raws.toList
  | .feedpkt p => rxbOps p.toList

/-- Operations one after the other, up to the first that has no meaning (R59). -/
def execSeq : List Instr → State → Host.Outcome State Fault Refusal
  | [], s => .next s
  | i :: is, s =>
    match exec i s with
    | .next t => execSeq is t
    | .fault f => .fault f
    | .refused r => .refused r

end Sys2Proof.Machine
end

