-- ==== Sys2Proof/WellFormed.lean ====
section
/-! DEFINITION. Which instructions have a meaning and an encoding (spec/30_encoding.md R71 to R74, R84). -/

namespace Sys2Proof

/-- The operands are in their legal range (R84); the reserved operation codes have none. -/
def legalOperands (c : Config) (i : Instr) : Bool :=
  match i with
  | .reset => true
  | .rxb _ => true
  | .beginOp => true
  | .paywr off _ => off.toNat ≤ 26
  | .smpwr ch _ => ch.toNat ≤ 8
  | .setord mode => mode ≠ 3#2
  | .setwin size => size.toNat ≤ c.wMax
  | .crcupd _ _ => true
  | .reservedOp _ => false
  | .frameR _ => true
  | .frameC _ => true
  | .frameD _ => true
  | .frameOther _ => true
  | .feed _ => true
  | .crcCompute _ => true
  | .sample _ => true
  | .feedpkt _ => true

/-- The bytes of a frame are those of that frame (R71 to R74); log 7 for a text frame still unfinished. -/
def frameShape (c : Config) (i : Instr) : Bool :=
  match i with
  | .frameR body => body.length = pktBody
  | .frameC body => isOneWord c body
  | .frameD body => isTwoWords c body
  | .frameOther t => t ≠ typeR ∧ t ≠ typeC ∧ t ≠ typeD
  | .reset => true
  | .rxb _ => true
  | .beginOp => true
  | .paywr _ _ => true
  | .smpwr _ _ => true
  | .setord _ => true
  | .setwin _ => true
  | .crcupd _ _ => true
  | .reservedOp _ => true
  | .feed _ => true
  | .crcCompute _ => true
  | .sample _ => true
  | .feedpkt _ => true

/-- An instruction is well formed: legal operands and the bytes of its own frame. -/
def wellFormed (c : Config) (i : Instr) : Bool := legalOperands c i && frameShape c i

end Sys2Proof
end

