-- ==== Sys2Proof/Safety.lean ====
section
/-! DEFINITION. What holds of the machine in every safe run: the invariants of spec/10_state.md R47 and spec/44_reorder.md
R190, and the two sides of the block that share no state (spec/20_memory.md R59). -/

namespace Sys2Proof.Machine

/-! The invariant (R47, R190). -/

/-- The stores are as long as the parameters say (R27, R28). -/
def StoresOk (s : State) : Prop :=
  s.tok.length = s.cfg.store64 + 1 ∧ s.name.length = s.cfg.store16 + 1

/-- R47 item 2. -/
def PacketReaderOk (s : State) : Prop := s.st = .sPkt → s.rxCnt.toNat ≤ 30

/-- R47 item 3, with what R24 says of `COPY`: at least one byte is stored. -/
def WordReaderOk (s : State) : Prop :=
  ∀ cap store, capOf s.st = some cap → storeOf s.cfg s.st = some store →
    s.wCnt.toNat < cap ∧ s.wCnt.toNat ≤ s.wLen ∧ s.wLen ≤ store ∧ (s.wPhase = .skip → s.wLen = 0) ∧ (s.wPhase = .copy → 1 ≤ s.wLen)

/-- While the value is read the finished name stands in its store, with its terminator (R28). -/
def NameOk (s : State) : Prop :=
  s.st = .sValue → 1 ≤ s.nameLen ∧ s.nameLen ≤ s.cfg.store16 ∧ s.name[s.nameLen]? = some termByte

/-- R47 item 4, R190 (a). -/
def WindowOk (s : State) : Prop :=
  s.win.toNat ≤ s.cfg.wMax ∧ (s.win = 0#16 → s.rb = []) ∧ (s.win ≠ 0#16 → s.rb.length < s.win.toNat)

/-- R47 item 5, R190 (b): the front is `EMPTY`. -/
def FrontOk (rb : List Slot) : Prop := frontFull rb = false

/-- R47 item 6, R190 (b): the back is `FULL`. -/
def BackOk (rb : List Slot) : Prop := rb ≠ [] → ∃ p, rb[rb.length - 1]? = some (.full p)

/-- R190 (c), R138: a full slot holds the sequence number it stands for; and its packet was valid (R146, R90). -/
def SlotsOk (c : Config) (lastSeq : U16) (rb : List Slot) : Prop :=
  ∀ k p, rb[k]? = some (.full p) → pktSeq p = slotSeq lastSeq rb.length k ∧ pktValid c p = true

/-- The reorder invariant, R190. -/
def ReorderOk (s : State) : Prop :=
  WindowOk s ∧ FrontOk s.rb ∧ BackOk s.rb ∧ SlotsOk s.cfg s.lastSeq s.rb

/-- R47 item 7. -/
def MarkersOk (s : State) : Prop := ∀ i, pktByte (s.histAt i) 0 = markByte ∧ pktByte (s.histAt i) 1 = typeR

/-- R47 item 8. -/
def CurrentSlotOk (s : State) : Prop := pktSeq (s.histAt s.cur) = s.seqTx

/-- The invariant of R47 (item 1 is the type of `st`). -/
def Inv (s : State) : Prop :=
  s.cfg.Legal ∧ StoresOk s ∧ PacketReaderOk s ∧ WordReaderOk s ∧ NameOk s ∧ ReorderOk s ∧ MarkersOk s ∧ CurrentSlotOk s

/-! The two sides (R59 item 4, R200). -/

/-- The transmit side: `mode`, `seq_tx`, `hist`. -/
def State.txSide (s : State) : TxMode × U16 × Vector Packet 64 := (s.mode, s.seqTx, s.hist)

/-- The framing machine's registers and stores: `st` to `name`. -/
def State.framing (s : State) : RxSt × BitVec 5 × Packet × WPhase × BitVec 7 × Nat × List Byte × Nat × List Byte :=
  (s.st, s.rxCnt, s.rxbuf, s.wPhase, s.wCnt, s.wLen, s.tok, s.nameLen, s.name)

/-- The reorder state: `last_seq`, `rb`, `W`. -/
def State.reorder (s : State) : U16 × List Slot × U16 := (s.lastSeq, s.rb, s.win)

/-- What no operation touches: the parameters, and what the host has still to present. -/
def State.outside (s : State) : Config × List Input := (s.cfg, s.input)

/-! Records. -/

/-- The records of the occupied slots of a list, in order: what evicting them delivers (R183). -/
def arrivals (rb : List Slot) : List Event :=
  rb.filterMap fun v =>
    match v with
    | .full q => some (.pktArrived q)
    | .empty => none

/-- The state after the `k` slots at the front are delivered and evicted, oldest first (R183). -/
def State.evict (k : Nat) (s : State) : State :=
  { s with rb := s.rb.drop k, events := s.events ++ arrivals (s.rb.take k) }

/-- The sequence number of a `PKT_ARRIVED` record. -/
def Event.arrivedSeq (e : Event) : Option U16 :=
  match e with
  | .pktArrived p => some (pktSeq p)
  | .pktReady _ => none
  | .config _ _ => none
  | .command _ => none

/-- What R90 says of a record's payload: an arrived packet was valid, the lengths are in their bounds. -/
def Event.Ok (c : Config) (e : Event) : Prop :=
  match e with
  | .pktArrived p => pktValid c p = true
  | .pktReady _ => True
  | .config name value =>
    1 ≤ name.length ∧ name.length ≤ c.store16 ∧ 1 ≤ value.length ∧ 2 * value.length ≤ c.store64
  | .command token => 1 ≤ token.length ∧ token.length ≤ c.store16

/-! The transmit side in terms of slots (R202 to R210). -/

/-- The history slot `k` once the packet just filled is finalised (R202). -/
def finalSlot (s : State) (k : SlotIndex) : Packet :=
  if k = s.cur then pktFinalize s.cfg (s.histAt k) else s.histAt k

/-- The records `BEGIN` emits (R204 to R207). -/
def readyRecords (s : State) (j : SlotIndex) : List Event :=
  match s.mode with
  | .mode0 => [.pktReady (finalSlot s j)]
  | .mode1 => [.pktReady (finalSlot s (permEntry s.cfg.permA j))]
  | .mode2 => [.pktReady (finalSlot s (permEntry s.cfg.permB1 j)), .pktReady (finalSlot s (permEntry s.cfg.permB2 j))]

/-- The `n` newest packets begun are in the history under their own numbers, and all but the one being filled are
finalised (R64, R202, R208). -/
def HistOk (n : Nat) (s : State) : Prop :=
  ∀ a, a < n →
    pktSeq (s.histAt (slotOf (s.seqTx - BitVec.ofNat 16 a))) = s.seqTx - BitVec.ofNat 16 a ∧
    (1 ≤ a → pktValid s.cfg (s.histAt (slotOf (s.seqTx - BitVec.ofNat 16 a))) = true)

/-- The payload writes (R120, R121). -/
def isPayloadWrite (i : Instr) : Bool :=
  match i with
  | .reset => false
  | .rxb _ => false
  | .beginOp => false
  | .paywr _ _ => true
  | .smpwr _ _ => true
  | .setord _ => false
  | .setwin _ => false
  | .crcupd _ _ => false
  | .reservedOp _ => false
  | .frameR _ => false
  | .frameC _ => false
  | .frameD _ => false
  | .frameOther _ => false
  | .feed _ => false
  | .crcCompute _ => false
  | .sample _ => false
  | .feedpkt _ => false

/-! The receive side in terms of packets (R145, R146). -/

/-- The 33 bytes of the frame once `b` is its last body byte, the marker re-prepended (R145, R146). -/
def assembled (s : State) (b : Byte) : Packet := pktMark (pktSetByte s.rxbuf (2 + s.rxCnt.toNat) b)

/-- `b` is the last body byte of a packet frame (R145). -/
def LastBodyByte (s : State) : Prop := s.st = .sPkt ∧ s.rxCnt = 30#5

/-- The state after the last body byte, but for what becomes of the packet (R145, R146). -/
def State.received (s : State) (b : Byte) : State := { s with st := .sScan, rxCnt := 31#5, rxbuf := assembled s b }

/-! Words in terms of their text (R73, R74, R79, R150 to R155). -/

/-- The text of one token byte: an escaped byte stands after a backslash (R79). -/
def spellItem (x : Bool × Byte) : List Byte := if x.1 then [0x5C#8, x.2] else [x.2]

/-- The text of a token: each byte with whether it is escaped. -/
def spell (items : List (Bool × Byte)) : List Byte := items.flatMap spellItem

/-- The bytes that count toward the cap (R153). -/
def counted (items : List (Bool × Byte)) : Nat := items.countP (fun x => !x.1)

/-- A byte that is not escaped is neither a delimiter nor a backslash (R150). -/
def PlainOk (items : List (Bool × Byte)) : Prop :=
  ∀ x ∈ items, x.1 = false → isDelim x.2 = false ∧ x.2 ≠ 0x5C#8

/-- `text` is one word that ends with its last byte and yields `token`: leading delimiters, the token, and an
unescaped delimiter or the cap (R152 to R155). -/
def WordText (cap store : Nat) (text token : List Byte) : Prop :=
  ∃ lead items, (∀ b ∈ lead, isDelim b = true) ∧ PlainOk items ∧ items ≠ [] ∧ items.length ≤ store ∧
    token = items.map Prod.snd ∧
    ((counted items < cap ∧ ∃ d, isDelim d = true ∧ text = lead ++ spell items ++ [d]) ∨
     (counted items = cap ∧ items.getLast?.map Prod.fst = some false ∧ text = lead ++ spell items))

/-- `text` is one word that overflows its store with its last byte (R156). -/
def OverlongText (cap store : Nat) (text : List Byte) : Prop :=
  ∃ lead items x, (∀ b ∈ lead, isDelim b = true) ∧ PlainOk (items ++ [x]) ∧ items.length = store ∧
    counted items < cap ∧ text = lead ++ spell (items ++ [x])

/-- What is left of the word reader when it finishes at a byte: by a delimiter, or by the cap (R154, R155). -/
def WordFinishes (cap store : Nat) (b : Byte) (s u : State) : Prop :=
  (s.wPhase = .copy ∧ isDelim b = true ∧ u = { s with tok := s.tok.set s.wLen 0x00#8 }) ∨
  (s.wPhase ≠ .esc ∧ isDelim b = false ∧ b ≠ 0x5C#8 ∧ s.wLen ≠ store ∧ (s.wCnt + 1#7).toNat = cap ∧
    u = { s with tok := (s.tok.set s.wLen b).set (s.wLen + 1) 0x00#8, wLen := s.wLen + 1, wCnt := s.wCnt + 1#7,
                 wPhase := .copy })

/-! Hexadecimal text (R80, R162). -/

/-- Digits taken two by two, the first the high nibble (R51); an odd number of them fails. -/
def pairDigits : List (BitVec 4) → Option (List Byte)
  | [] => some []
  | [_] => none
  | h :: l :: rest => (pairDigits rest).map ((h ++ l) :: ·)

/-- The bytes a value token stands for: spaces ignored, every other byte a digit, an even number of digits. -/
def hexText (upper : Bool) (token : List Byte) : Option (List Byte) :=
  ((token.filter (· ≠ 0x20#8)).mapM (hexVal upper)).bind pairDigits

/-! Command words by their fields (R82, R84). -/

/-- A must-be-zero bit of an assigned operation is set, row by row of R82. -/
def MustBeZeroSet (w : U32) : Prop :=
  let op := (w.extractLsb' 28 4).toNat
  ((op = 0 ∨ op = 2) ∧ w.extractLsb' 0 28 ≠ 0#28) ∨
  (op = 1 ∧ w.extractLsb' 8 20 ≠ 0#20) ∨
  ((op = 3 ∨ op = 6) ∧ w.extractLsb' 16 12 ≠ 0#12) ∨
  (op = 5 ∧ w.extractLsb' 2 26 ≠ 0#26) ∨
  (op = 7 ∧ w.extractLsb' 24 4 ≠ 0#4)

/-- An operand is outside its legal range (R84). -/
def OperandOutOfRange (c : Config) (w : U32) : Prop :=
  let op := (w.extractLsb' 28 4).toNat
  (op = 3 ∧ 26 < (w.extractLsb' 8 8).toNat) ∨
  (op = 4 ∧ 8 < (w.extractLsb' 24 4).toNat) ∨
  (op = 5 ∧ w.extractLsb' 0 2 = 3#2) ∨
  (op = 6 ∧ c.wMax < (w.extractLsb' 0 16).toNat)

/-- The reserved command encodings of R84, field by field. -/
def ReservedWord (c : Config) (w : U32) : Prop :=
  8 ≤ (w.extractLsb' 28 4).toNat ∨ MustBeZeroSet w ∨ OperandOutOfRange c w

/-! The families of operations (R59 item 4). -/

/-- The operations of the receive side. -/
def isReceive (i : Instr) : Bool :=
  match i with
  | .reset => false
  | .rxb _ => true
  | .beginOp => false
  | .paywr _ _ => false
  | .smpwr _ _ => false
  | .setord _ => false
  | .setwin _ => true
  | .crcupd _ _ => false
  | .reservedOp _ => false
  | .frameR _ => true
  | .frameC _ => true
  | .frameD _ => true
  | .frameOther _ => true
  | .feed _ => true
  | .crcCompute _ => false
  | .sample _ => false
  | .feedpkt _ => true

/-- The operations of the transmit side. -/
def isTransmit (i : Instr) : Bool :=
  match i with
  | .reset => false
  | .rxb _ => false
  | .beginOp => true
  | .paywr _ _ => true
  | .smpwr _ _ => true
  | .setord _ => true
  | .setwin _ => false
  | .crcupd _ _ => false
  | .reservedOp _ => false
  | .frameR _ => false
  | .frameC _ => false
  | .frameD _ => false
  | .frameOther _ => false
  | .feed _ => false
  | .crcCompute _ => false
  | .sample _ => true
  | .feedpkt _ => false

end Sys2Proof.Machine
end

