-- ==== Sys2Proof/Certificates/Slice0/Obligations.lean ====
section
/-! DEFINITION. The statements for the provers, each from a numbered rule of spec/ or derived from its sections. -/

open Sys2Proof Sys2Proof.Machine

/-! Encoding. -/

/-- Words written out from the fields of R82 and frames from R72 to R74 decode to what they stand for. -/
def Obligations.WordsFromTheTablesDecode : Prop :=
  decodeCmd 0x00000000#32 = .ok .reset ∧
  decodeCmd 0x1000002F#32 = .ok (.rxb 0x2F#8) ∧
  decodeCmd 0x20000000#32 = .ok .beginOp ∧
  decodeCmd 0x30001AAA#32 = .ok (.paywr 26#8 0xAA#8) ∧
  decodeCmd 0x41FFFFFF#32 = .ok (.smpwr 1#4 0xFFFFFF#24) ∧
  decodeCmd 0x50000002#32 = .ok (.setord 2#2) ∧
  decodeCmd 0x60000020#32 = .ok (.setwin 32#16) ∧
  decodeCmd 0x70267232#32 = .ok (.crcupd 0x2672#16 0x32#8) ∧
  decodeCmd 0x80000000#32 = .ok (.reservedOp 0#31) ∧
  decodeCmd 0x20000001#32 = .error .reservedEncoding ∧
  decodeWire Config.default ([0x2F#8, 0x52#8] ++ List.replicate 31 0#8) = .frameR (List.replicate 31 0#8) ∧
  decodeWire Config.default [0x2F#8, 0x63#8, 0x67#8, 0x6F#8, 0x0A#8] = .frameC [0x67#8, 0x6F#8, 0x0A#8] ∧
  decodeWire Config.default [0x2F#8, 0x64#8, 0x6E#8, 0x20#8, 0x31#8, 0x32#8, 0x20#8] =
    .frameD [0x6E#8, 0x20#8, 0x31#8, 0x32#8, 0x20#8] ∧
  decodeWire Config.default [0x2F#8, 0x78#8] = .frameOther 0x78#8

/-- Every command word and every frame, with every operand at every value its field admits, is decoded from its own
encoding (R71 to R74, R82, R85). A text frame's bytes may also end before its word does, or overflow: that such a
chunk bears its frame's name is the model's choice (log 7). -/
def Obligations.EncodedInputsDecodeBack : Prop :=
  ∀ (c : Config) (i : Instr) (x : Input), frameShape c i = true → encode i = some x → decode c x = .ok i

/-- What is decoded is what was presented: no bit and no byte of an input is dropped. A chunk that is no frame is
the chunk of a `FEED`; the reset input is `RESET`. -/
def Obligations.DecodedInputsEncodeBack : Prop :=
  ∀ (c : Config) (x : Input) (i : Instr), decode c x = .ok i →
    frameShape c i = true ∧
    (encode i = some x ∨ (∃ bytes, x = .wire bytes ∧ i = .feed bytes) ∨ (x = .resetPin ∧ i = .reset))

/-- No command word fits two rows of R82. -/
def Obligations.CommandRowsNeverOverlap : Prop :=
  ∀ w : U32, (cmdTable.filter (fun r => r.fits w)).length ≤ 1

/-- A command word is refused when it is a reserved encoding (R84), and only then: every other word is performed, from
every state (R230). -/
def Obligations.CommandRefusedExactlyWhenReserved : Prop :=
  ∀ (s : State) (w : U32),
    (ReservedWord s.cfg w →
      step (s.present (.cmd w)) = .refused .reservedEncoding ∨ step (s.present (.cmd w)) = .refused .reservedOperand) ∧
    (¬ ReservedWord s.cfg w → ∃ t, step (s.present (.cmd w)) = .next t)

/-! The step. -/

/-- A step takes the oldest input and performs the operation it decodes to; an input that is no operation is
refused, in particular one presented too early (R239, R266); with nothing presented the block is idle and holds
its state (R246). The table word the host places runs next. -/
def Obligations.StepPerformsTheOldestInput : Prop :=
  (∀ (s : State) x rest i, s.input = x :: rest → decode s.cfg x = .ok i → step s = exec i { s with input := rest }) ∧
  (∀ (s : State) x rest r, s.input = x :: rest → decode s.cfg x = .error r → step s = .refused (refusalOf r)) ∧
  (∀ (s : State) w rest, s.input = .early w :: rest → step s = .refused .overlap) ∧
  (∀ s : State, s.input = [] → step s = .next s) ∧
  (∀ (s : State) nbits w x i, tableInput nbits w = some x → decode s.cfg x = .ok i →
    step (s.withFetchWord nbits w) = exec i s)

/-! Completion. -/

/-- Every operation with legal operands completes, from every state; the parameters and the inputs stay. It covers
all constructors but the reserved one: `RESET`, `RXB`, `BEGIN`, `PAYWR`, `SMPWR`, `SETORD`, `SETWIN`, `CRCUPD`,
the four frames and the four pseudo-operations. -/
def Obligations.LegalOperationCompletes : Prop :=
  ∀ (i : Instr) (s : State), legalOperands s.cfg i = true → ∃ t, exec i s = .next t ∧ t.outside = s.outside

/-- R230: no input byte sequence, and no sequence of legal operations, stops the block. -/
def Obligations.LegalRunNeverStops : Prop :=
  ∀ (is : List Instr) (s : State), (∀ i ∈ is, legalOperands s.cfg i = true) → ∃ t, execSeq is s = .next t

/-- R224: command words with a reserved operation code, with a must-be-zero bit set (each row's bits named in
`MustBeZeroSet`), or with an operand outside its range have no meaning and are refused. -/
def Obligations.ReservedOperationsRefused : Prop :=
  (∀ low s, exec (.reservedOp low) s = .refused .reservedEncoding) ∧
  (∀ off b s, 26 < off.toNat → exec (.paywr off b) s = .refused .reservedOperand) ∧
  (∀ ch raw s, 8 < ch.toNat → exec (.smpwr ch raw) s = .refused .reservedOperand) ∧
  (∀ s, exec (.setord 3#2) s = .refused .reservedOperand) ∧
  (∀ (size : U16) (s : State), s.cfg.wMax < size.toNat → exec (.setwin size) s = .refused .reservedOperand) ∧
  (∀ (s : State) (w : U32), 8 ≤ (w.extractLsb' 28 4).toNat ∨ MustBeZeroSet w →
    step (s.present (.cmd w)) = .refused .reservedEncoding) ∧
  (∀ (s : State) (w : U32), OperandOutOfRange s.cfg w → ¬ MustBeZeroSet w →
    step (s.present (.cmd w)) = .refused .reservedOperand)

/-! Reset. -/

/-- R46: every element of the state after reset (the spec's own decision D12, log 4). -/
def Obligations.ResetLeavesTheTabulatedState : Prop :=
  State.reset.st = .sScan ∧ State.reset.rxCnt = 0#5 ∧ (∀ k, k < 33 → pktByte State.reset.rxbuf k = 0x00#8) ∧
  State.reset.wPhase = .skip ∧ State.reset.wCnt = 0#7 ∧ State.reset.wLen = 0 ∧ State.reset.nameLen = 0 ∧
  (State.reset.tok.length = State.reset.cfg.store64 + 1 ∧ ∀ b ∈ State.reset.tok, b = 0x00#8) ∧
  (State.reset.name.length = State.reset.cfg.store16 + 1 ∧ ∀ b ∈ State.reset.name, b = 0x00#8) ∧
  State.reset.lastSeq = 0#16 ∧ State.reset.rb = [] ∧ State.reset.win = 0#16 ∧ State.reset.mode = .mode0 ∧
  State.reset.seqTx = 0#16 ∧
  ∀ i k, k < 33 → pktByte (State.reset.histAt i) k = if k = 0 then 0x2F#8 else if k = 1 then 0x52#8 else 0x00#8

/-- R220, R260, R262: from every state `RESET`, and the reset input, give every element its reset value, deliver
nothing and emit nothing. The parameters, what is still to be presented and what has left on the ports are not in
the block (log 11). -/
def Obligations.ResetOperationRestoresEveryElement : Prop :=
  ∀ s : State,
    (∃ t, exec .reset s = .next t ∧ step (s.present .resetPin) = .next t ∧
      t.st = .sScan ∧ t.rxCnt = 0#5 ∧ t.wPhase = .skip ∧ t.wCnt = 0#7 ∧ t.wLen = 0 ∧ t.nameLen = 0 ∧
      (∀ k, k < 33 → pktByte t.rxbuf k = 0x00#8) ∧
      t.tok = List.replicate (s.cfg.store64 + 1) 0x00#8 ∧ t.name = List.replicate (s.cfg.store16 + 1) 0x00#8 ∧
      t.lastSeq = 0#16 ∧ t.rb = [] ∧ t.win = 0#16 ∧ t.mode = .mode0 ∧ t.seqTx = 0#16 ∧
      (∀ i, t.histAt i = pktEmpty 0#16) ∧
      t.outside = s.outside ∧ t.events = s.events ∧ t.results = s.results ∧ t.drops = s.drops)

/-! Checksum. -/

/-- R101: the fold from 0 in ascending offset; the empty sequence gives 0; incremental. -/
def Obligations.ChecksumIsIncrementalFold : Prop :=
  ∀ c : Config, crcCompute c [] = 0x0000#16 ∧
    (∀ as b, crcCompute c (as ++ [b]) = crcUpdate c (crcCompute c as) b) ∧
    (∀ as bs, crcCompute c (as ++ bs) = bs.foldl (crcUpdate c) (crcCompute c as))

/-- R102: with any `CRC_STEP` that has `CRC_INJ`, changing any one byte changes the checksum. -/
def Obligations.SingleByteChangeChangesChecksum : Prop :=
  ∀ c : Config, CrcInj (crcUpdate c) → ∀ (bytes : List Byte) (k : Nat) (b : Byte), k < bytes.length →
    bytes[k]? ≠ some b → crcCompute c (bytes.set k b) ≠ crcCompute c bytes

/-- R107: with the default instance (the spec's own choice D1, log 1) a sequence followed by its own checksum, high byte
first, has checksum 0. -/
def Obligations.DefaultChecksumHasZeroResidue : Prop :=
  ∀ (c : Config) (m : List Byte), c.crc = .xmodem →
    crcCompute c (m ++ [hiByte (crcCompute c m), loByte (crcCompute c m)]) = 0x0000#16

/-- R105: `CRCUPD` returns the updated value, zero-extended, and touches nothing else; the corner cases are those
of the default instance. -/
def Obligations.CrcupdReturnsUpdatedValue : Prop :=
  (∀ crc b (s : State), exec (.crcupd crc b) s =
    .next { s with results := s.results ++ [(crcUpdate s.cfg crc b).setWidth 32] }) ∧
  xmodemStep 0x0000#16 0x00#8 = 0x0000#16 ∧ xmodemStep 0xABCD#16 0xAB#8 = 0xCD00#16 ∧
  xmodemStep 0x0000#16 0x31#8 = 0x2672#16

/-- R106: `CRC.COMPUTE` is a chain of `CRCUPD`: its `k`-th result is the checksum of the first `k + 1` bytes, the last
one `crc_compute` of all; nothing else changes. -/
def Obligations.CrcComputeReturnsRunningValues : Prop :=
  ∀ (bytes : List Byte) (s : State), ∃ t, exec (.crcCompute bytes) s = .next t ∧
    t = { s with results := t.results } ∧ t.results.length = s.results.length + bytes.length ∧
    (∀ k, k < s.results.length → t.results[k]? = s.results[k]?) ∧
    ∀ k, k < bytes.length →
      t.results[s.results.length + k]? = some ((crcCompute s.cfg (bytes.take (k + 1))).setWidth 32)

/-! The packet codec. -/

/-- R111, R112: the bytes of `pkt_empty(s)`; a sequence number written is read, and no other byte is touched. -/
def Obligations.EmptyPacketAndSequenceField : Prop :=
  (∀ (s : U16) (k : Nat), k < 33 → pktByte (pktEmpty s) k =
    if k = 0 then 0x2F#8 else if k = 1 then 0x52#8 else if k = 2 then s.extractLsb' 8 8
    else if k = 3 then s.extractLsb' 0 8 else 0x00#8) ∧
  (∀ (p : Packet) (s : U16), pktSeq (pktSetSeq p s) = s ∧
    ∀ k, k ≠ 2 → k ≠ 3 → pktByte (pktSetSeq p s) k = pktByte p k) ∧
  (∀ p : Packet, (pktSeq p).toNat = 256 * (pktByte p 2).toNat + (pktByte p 3).toNat)

/-- R113, R114: the sample written is the sample read, as the signed integer of its 24 bits, big-endian; no other byte
changes. -/
def Obligations.SampleWrittenIsSampleRead : Prop :=
  ∀ (p : Packet) (c : Nat) (raw : U24), c ≤ 8 →
    smpGet (smpPut p c raw) c = raw.toInt ∧
    pktByte (smpPut p c raw) (4 + 3 * c) = raw.extractLsb' 16 8 ∧
    pktByte (smpPut p c raw) (5 + 3 * c) = raw.extractLsb' 8 8 ∧
    pktByte (smpPut p c raw) (6 + 3 * c) = raw.extractLsb' 0 8 ∧
    (∀ k, k < 4 + 3 * c ∨ 6 + 3 * c < k → pktByte (smpPut p c raw) k = pktByte p k) ∧
    (smpGet32 (smpPut p c raw) c).toInt = raw.toInt

/-- R117: the finalised packet is valid, only its checksum field is written, and finalising twice is idempotent. -/
def Obligations.FinalizedPacketIsValid : Prop :=
  ∀ (c : Config) (p : Packet), pktValid c (pktFinalize c p) = true ∧
    (∀ k, k < 31 → pktByte (pktFinalize c p) k = pktByte p k) ∧
    be16 (pktFinalize c p) 31 = crcCompute c (p.toList.take 31) ∧
    pktFinalize c (pktFinalize c p) = pktFinalize c p

/-- R118: validity compares the stored field with the checksum of offsets 0 to 30; with `CRC_INJ`, changing any one
byte of a valid packet makes it invalid. -/
def Obligations.AnyByteChangeInvalidatesPacket : Prop :=
  (∀ (c : Config) (p : Packet), pktValid c p = true ↔ be16 p 31 = crcCompute c (p.toList.take 31)) ∧
  ∀ (c : Config) (p : Packet) (k : Nat) (b : Byte), CrcInj (crcUpdate c) → pktValid c p = true → k < 33 →
    b ≠ pktByte p k → pktValid c (pktSetByte p k b) = false

/-- R115: every pattern is one exact rational, `raw / 2^23`, from -1 to `1 - 2^-23` inclusive, and each of these is
the value of a pattern. -/
def Obligations.SampleValuesAreExact : Prop :=
  (∀ raw : U24, smpValue raw.toInt * 8388608 = raw.toInt ∧ -1 ≤ smpValue raw.toInt ∧
    smpValue raw.toInt ≤ 1 - 1 / 8388608) ∧
  ∀ k : Int, -8388608 ≤ k → k ≤ 8388607 → ∃ raw : U24, smpValue raw.toInt = k / 8388608

/-- R116: floor, truncation and rounding to nearest, clamped, all meet the bound the source gives the producer's
conversion (`QUANT`, outside the block). -/
def Obligations.ClampedRoundingsMeetQuantBound : Prop :=
  QuantOk (fun x => max (-8388608) (min 8388607 ⌊x * 8388608⌋)) ∧
  QuantOk (fun x => max (-8388608) (min 8388607 (if 0 ≤ x then ⌊x * 8388608⌋ else ⌈x * 8388608⌉))) ∧
  QuantOk (fun x => max (-8388608) (min 8388607 (round (x * 8388608))))

/-! Payload writes. -/

/-- R120: one payload byte of the current slot is written; every other byte of every store reads as before, and
nothing but the history changes; an offset beyond 26 is refused. -/
def Obligations.PaywrWritesOnePayloadByte : Prop :=
  ∀ (off b : Byte) (s : State),
    (off.toNat ≤ 26 → ∃ t, exec (.paywr off b) s = .next t ∧ t = { s with hist := t.hist } ∧
      t.readByte .hist (payloadAddr s off.toNat) = some b ∧
      (∀ space a, ¬ (space = .hist ∧ a = payloadAddr s off.toNat) → t.readByte space a = s.readByte space a) ∧
      pktByte (t.histAt (s.seqTx.setWidth 6)) (4 + off.toNat) = b) ∧
    (26 < off.toNat → exec (.paywr off b) s = .refused .reservedOperand)

/-- R121: three payload bytes of the current slot are written, big-endian; every other byte of every store reads as
before, nothing but the history changes; the same is done by three `PAYWR`; a channel beyond 8 is refused. -/
def Obligations.SmpwrWritesThreePayloadBytes : Prop :=
  ∀ (ch : BitVec 4) (raw : U24) (s : State),
    (ch.toNat ≤ 8 → ∃ t, exec (.smpwr ch raw) s = .next t ∧ t = { s with hist := t.hist } ∧
      t.readByte .hist (payloadAddr s (3 * ch.toNat)) = some (raw.extractLsb' 16 8) ∧
      t.readByte .hist (payloadAddr s (3 * ch.toNat + 1)) = some (raw.extractLsb' 8 8) ∧
      t.readByte .hist (payloadAddr s (3 * ch.toNat + 2)) = some (raw.extractLsb' 0 8) ∧
      (∀ space a, ¬ (space = .hist ∧ payloadAddr s (3 * ch.toNat) ≤ a ∧ a ≤ payloadAddr s (3 * ch.toNat + 2)) →
        t.readByte space a = s.readByte space a) ∧
      execSeq [.paywr (BitVec.ofNat 8 (3 * ch.toNat)) (raw.extractLsb' 16 8),
               .paywr (BitVec.ofNat 8 (3 * ch.toNat + 1)) (raw.extractLsb' 8 8),
               .paywr (BitVec.ofNat 8 (3 * ch.toNat + 2)) (raw.extractLsb' 0 8)] s = .next t) ∧
    (8 < ch.toNat → exec (.smpwr ch raw) s = .refused .reservedOperand)

/-! Transmit. -/

/-- R201 to R208: the whole effect of `BEGIN`: the slot just filled is finalised, the counter advances, the record of
the look-behind slot (through the tables in modes 1 and 2) leaves, slot `i` is fresh, `i` is returned; every
other slot, and everything else, stays. A table that is given is read at the index `j` itself (R206, R207). -/
def Obligations.BeginEffect : Prop :=
  (∀ (entries : Vector SlotIndex 64) (j : SlotIndex) (h : j.toNat < 64), permEntry (.table entries) j = entries[j.toNat]) ∧
  ∀ s : State, ∃ t, exec .beginOp s = .next t ∧
    t = { s with seqTx := t.seqTx, hist := t.hist, events := t.events, results := t.results } ∧
    t.seqTx = s.seqTx + 1#16 ∧
    (∀ k : SlotIndex, t.histAt k =
      if k = t.seqTx.setWidth 6 then pktEmpty t.seqTx
      else if k = s.seqTx.setWidth 6 then pktFinalize s.cfg (s.histAt k) else s.histAt k) ∧
    t.results = s.results ++ [(t.seqTx.setWidth 6).setWidth 32] ∧
    t.events = s.events ++ readyRecords s (t.seqTx.setWidth 6 ^^^ 32#6)

/-- R203: the look-behind slot is the slot of the sequence number 32 earlier, always half the history away. -/
def Obligations.LookBehindIsHalfTheHistory : Prop :=
  ∀ q : U16, slotOf q ^^^ lookBehind = slotOf (q - 32#16) ∧
    (slotOf q ^^^ lookBehind).toNat =
      if (slotOf q).toNat < 32 then (slotOf q).toNat + 32 else (slotOf q).toNat - 32

/-- `BEGIN` adds one packet to the history under its own number, payload writes keep it, and in mode 0, once 32
packets were begun, each `BEGIN` emits the valid packet whose number is 32 behind. -/
def Obligations.HistoryHoldsOnePacketPerNumber : Prop :=
  (∀ n (s : State), n ≤ 63 → HistOk n s → ∃ t, exec .beginOp s = .next t ∧ HistOk (n + 1) t) ∧
  (∀ n i (s t : State), HistOk n s → isPayloadWrite i = true → exec i s = .next t → HistOk n t) ∧
  (∀ s : State, HistOk 32 s → s.mode = .mode0 → ∃ t q, exec .beginOp s = .next t ∧
    t.events = s.events ++ [.pktReady q] ∧ pktSeq q = t.seqTx - 32#16 ∧ pktValid s.cfg q = true)

/-- R210: in mode 0 the packet begun by one `BEGIN` and filled before the next is emitted, finalised, by the 32nd
`BEGIN` after it, whatever payload writes stand between. -/
def Obligations.PacketLeavesThirtyTwoBeginsLater : Prop :=
  ∀ (s t u : State) (fill : List Instr) (later : List (List Instr)),
    (∀ i ∈ fill, isPayloadWrite i = true) → (∀ w ∈ later, ∀ i ∈ w, isPayloadWrite i = true) → later.length = 31 →
    s.mode = .mode0 → execSeq (.beginOp :: fill) s = .next t →
    execSeq (later.flatMap (fun w => .beginOp :: w)) t = .next u →
    ∃ v, exec .beginOp u = .next v ∧
      v.events = u.events ++ [.pktReady (pktFinalize s.cfg (t.histAt (slotOf (s.seqTx + 1#16))))] ∧
      pktSeq (t.histAt (slotOf (s.seqTx + 1#16))) = s.seqTx + 1#16

/-- `SAMPLE` (R89): a `BEGIN`, then the nine channels of the packet begun hold the nine samples. -/
def Obligations.SampleFillsTheFreshPacket : Prop :=
  ∀ (raws : Vector U24 9) (s : State), ∃ t b, exec (.sample raws) s = .next t ∧ exec .beginOp s = .next b ∧
    t = { b with hist := t.hist } ∧
    (∀ k, k ≠ b.cur → t.histAt k = b.histAt k) ∧
    pktSeq (t.histAt t.cur) = s.seqTx + 1#16 ∧
    ∀ c (h : c < 9), smpGet (t.histAt t.cur) c = (raws[c]).toInt

/-! Control. -/

/-- R221: the mode is set, nothing else changes; 3 is refused. -/
def Obligations.SetordSelectsMode : Prop :=
  ∀ s : State,
    exec (.setord 0#2) s = .next { s with mode := .mode0 } ∧ exec (.setord 1#2) s = .next { s with mode := .mode1 } ∧
    exec (.setord 2#2) s = .next { s with mode := .mode2 } ∧ exec (.setord 3#2) s = .refused .reservedOperand

/-- R222: every buffered packet is delivered, oldest first, gaps skipped; then the window is set; `last_seq` and all
else stay. A size beyond `W_MAX` is refused. -/
def Obligations.SetwinFlushesInOrder : Prop :=
  ∀ (size : U16) (s : State),
    (size.toNat ≤ s.cfg.wMax → exec (.setwin size) s =
      .next { s with rb := [], win := size, events := s.events ++ arrivals s.rb }) ∧
    (s.cfg.wMax < size.toNat → exec (.setwin size) s = .refused .reservedOperand)

/-! Framing. -/

/-- R143, R144: marker scan and frame-type dispatch. -/
def Obligations.ScanAndTypeDispatch : Prop :=
  ∀ (b : Byte) (s : State),
    (s.st = .sScan → exec (.rxb b) s = .next { s with st := if b = 0x2F#8 then .sType else .sScan }) ∧
    (s.st = .sType →
      (b = 0x52#8 → exec (.rxb b) s = .next { s with st := .sPkt, rxCnt := 0#5 }) ∧
      (b = 0x63#8 → exec (.rxb b) s = .next { s with st := .sCmd, wPhase := .skip, wCnt := 0#7, wLen := 0 }) ∧
      (b = 0x64#8 → exec (.rxb b) s = .next { s with st := .sName, wPhase := .skip, wCnt := 0#7, wLen := 0 }) ∧
      (b ≠ 0x52#8 → b ≠ 0x63#8 → b ≠ 0x64#8 →
        exec (.rxb b) s = .next { s with st := .sScan, drops := s.drops ++ [.badType] }))

/-- R145: a body byte is stored and counted, whatever it is; the 31st ends the frame. -/
def Obligations.BodyBytesAreCounted : Prop :=
  ∀ (b : Byte) (s : State), s.st = .sPkt →
    (s.rxCnt.toNat < 30 → exec (.rxb b) s =
      .next { s with rxbuf := pktSetByte s.rxbuf (2 + s.rxCnt.toNat) b, rxCnt := s.rxCnt + 1#5 }) ∧
    (s.rxCnt = 30#5 → ∃ t, exec (.rxb b) s = .next t ∧ t.st = .sScan ∧ t.rxCnt = 31#5 ∧ t.rxbuf = assembled s b)

/-- A frame whose checksum does not match is discarded: no event, the reorder state untouched, back to scanning (R146, R231,
R237). -/
def Obligations.InvalidPacketIsDiscarded : Prop :=
  ∀ (b : Byte) (s : State), LastBodyByte s → pktValid s.cfg (assembled s b) = false →
    exec (.rxb b) s = .next { s.received b with drops := s.drops ++ [.badCrc] }

/-- R182: with the window off every valid packet is delivered at once, in arrival order, and `last_seq` follows. -/
def Obligations.WindowOffDeliversAtOnce : Prop :=
  ∀ (b : Byte) (s : State), LastBodyByte s → pktValid s.cfg (assembled s b) = true → s.win = 0#16 →
    exec (.rxb b) s =
      .next { s.received b with lastSeq := pktSeq (assembled s b), events := s.events ++ [.pktArrived (assembled s b)] }

/-- R181, R185, R189: a packet ahead by less than the window: just enough of the front is evicted, the gap and the
packet are appended, `last_seq` follows, and the drain delivers what now stands full at the front. -/
def Obligations.NewAheadPacketIsAppended : Prop :=
  ∀ (b : Byte) (s : State) (p : Packet) (d room : Nat) (ring : List Slot),
    LastBodyByte s → p = assembled s b → pktValid s.cfg p = true → s.win ≠ 0#16 →
    (pktSeq p - s.lastSeq).toInt = d → 0 < d → d < s.win.toNat →
    room = min s.rb.length (s.rb.length + d + 1 - s.win.toNat) →
    ring = s.rb.drop room ++ List.replicate (d - 1) .empty ++ [.full p] →
    exec (.rxb b) s =
      .next { s.received b with
        rb := ring.dropWhile Slot.occupied, lastSeq := pktSeq p,
        events := s.events ++ arrivals (s.rb.take room) ++ arrivals (ring.takeWhile Slot.occupied) }

/-- R181, R186, R189: a late packet or a duplicate goes to the slot of its own number, replacing what stands there
without any event; `last_seq` stays; the drain follows. -/
def Obligations.LatePacketFillsItsSlot : Prop :=
  ∀ (b : Byte) (s : State) (p : Packet) (d : Int) (ring : List Slot),
    LastBodyByte s → p = assembled s b → pktValid s.cfg p = true → s.win ≠ 0#16 →
    d = (pktSeq p - s.lastSeq).toInt → d ≤ 0 → d.natAbs < s.rb.length →
    ring = s.rb.set (s.rb.length - 1 - d.natAbs) (.full p) →
    exec (.rxb b) s =
      .next { s.received b with
        rb := ring.dropWhile Slot.occupied,
        events := s.events ++ arrivals (ring.takeWhile Slot.occupied) }

/-- R181, R187, R189: a packet the window or more away, either way, restarts the window: every buffered packet is
delivered, oldest first, gaps skipped, then this one; the ring is empty and `last_seq` follows. -/
def Obligations.FarPacketRestartsWindow : Prop :=
  ∀ (b : Byte) (s : State) (p : Packet) (d : Int),
    LastBodyByte s → p = assembled s b → pktValid s.cfg p = true → s.win ≠ 0#16 → s.rb.length < s.win.toNat →
    d = (pktSeq p - s.lastSeq).toInt → s.win.toNat ≤ d.natAbs →
    exec (.rxb b) s =
      .next { s.received b with
        rb := [], lastSeq := pktSeq p, events := s.events ++ arrivals s.rb ++ [.pktArrived p] }

/-- R188: a packet behind the oldest buffered slot but within the window is dropped: no event and no change of the
reorder state, the front of the ring being a gap (the invariant R190 (b)). -/
def Obligations.StalePacketIsDropped : Prop :=
  ∀ (b : Byte) (s : State) (p : Packet) (d : Int),
    LastBodyByte s → p = assembled s b → pktValid s.cfg p = true → s.win ≠ 0#16 → FrontOk s.rb →
    d = (pktSeq p - s.lastSeq).toInt → d ≤ 0 → s.rb.length ≤ d.natAbs → d.natAbs < s.win.toNat →
    exec (.rxb b) s = .next { s.received b with drops := s.drops ++ [.stale] }

/-- R91: the number of events of one operation. -/
def Obligations.EventsPerOperationAreBounded : Prop :=
  ∀ s : State, Inv s →
    (∀ b, ∃ t es, exec (.rxb b) s = .next t ∧ t.events = s.events ++ es ∧
      ((es.length ≤ max (s.win.toNat - 1) 1 ∧ ∀ e ∈ es, e.kind = 0) ∨ (es.length = 1 ∧ ∀ e ∈ es, e.kind = 2 ∨ e.kind = 3))) ∧
    (∃ t es, exec .beginOp s = .next t ∧ t.events = s.events ++ es ∧ (∀ e ∈ es, e.kind = 1) ∧
      es.length = if s.mode = .mode2 then 2 else 1) ∧
    (∀ size : U16, size.toNat ≤ s.cfg.wMax → ∃ t es, exec (.setwin size) s = .next t ∧ t.events = s.events ++ es ∧
      (∀ e ∈ es, e.kind = 0) ∧ es.length ≤ s.win.toNat - 2)

/-- From every state that meets the invariant, the packets one byte delivers have strictly increasing sequence
numbers (modulo 65536), unless the window is off or restarts (R192, R236). -/
def Obligations.DeliveredInSequenceOrder : Prop :=
  ∀ (b : Byte) (s : State), Inv s → s.win ≠ 0#16 →
    (LastBodyByte s → (pktSeq (assembled s b) - s.lastSeq).toInt.natAbs < s.win.toNat) →
    ∃ t es, exec (.rxb b) s = .next t ∧ t.events = s.events ++ es ∧
      (es.filterMap Event.arrivedSeq).Pairwise (fun q r => 0 < (r - q).toInt)

/-- The word reader while the word goes on, in its three states: leading delimiters are skipped, a backslash
escapes the next byte, an escaped byte is stored and not counted, an ordinary byte is stored and counted, a byte
that does not fit discards the frame (R150 to R156, R165). The delimiters are NUL, space, CR, LF and TAB (R7). -/
def Obligations.WordReaderTransitions : Prop :=
  (∀ b : Byte, isDelim b = true ↔ b = 0x00#8 ∨ b = 0x20#8 ∨ b = 0x0D#8 ∨ b = 0x0A#8 ∨ b = 0x09#8) ∧
  ∀ (b : Byte) (s : State) (cap store : Nat), capOf s.st = some cap → storeOf s.cfg s.st = some store →
    (s.wPhase = .skip → isDelim b = true → exec (.rxb b) s = .next s) ∧
    (s.wPhase ≠ .esc → b = 0x5C#8 → exec (.rxb b) s = .next { s with wPhase := .esc }) ∧
    (s.wPhase = .esc → s.wLen ≠ store →
      exec (.rxb b) s = .next { s with tok := s.tok.set s.wLen b, wLen := s.wLen + 1, wPhase := .copy }) ∧
    (s.wPhase ≠ .esc → isDelim b = false → b ≠ 0x5C#8 → s.wLen ≠ store → (s.wCnt + 1#7).toNat ≠ cap →
      exec (.rxb b) s =
        .next { s with tok := s.tok.set s.wLen b, wLen := s.wLen + 1, wCnt := s.wCnt + 1#7, wPhase := .copy }) ∧
    (s.wPhase = .esc ∨ (isDelim b = false ∧ b ≠ 0x5C#8) → s.wLen = store →
      exec (.rxb b) s = .next { s with st := .sScan, drops := s.drops ++ [.tokenOverflow] })

/-- What a finished word does: a command token leaves as `COMMAND`; a configuration name moves to its store and the
value word starts; a value token is decoded and leaves with the name as `CONFIG`, or the frame is dropped (R155, R157
to R162). -/
def Obligations.FinishedWordCompletesItsFrame : Prop :=
  ∀ (b : Byte) (s u : State), StoresOk s →
    (s.st = .sCmd → WordFinishes 16 s.cfg.store16 b s u → 1 ≤ u.wLen →
      exec (.rxb b) s = .next { u with st := .sScan, events := s.events ++ [.command (u.tok.take u.wLen)] }) ∧
    (s.st = .sName → WordFinishes 16 s.cfg.store16 b s u → u.wLen ≤ s.cfg.store16 → u.wLen < s.tok.length →
      ∃ t, exec (.rxb b) s = .next t ∧
        t = { u with st := .sValue, wPhase := .skip, wCnt := 0#7, wLen := 0, nameLen := u.wLen, name := t.name } ∧
        t.name.length = s.name.length ∧ t.name.take (u.wLen + 1) = u.tok.take (u.wLen + 1) ∧
        t.name.drop (u.wLen + 1) = s.name.drop (u.wLen + 1)) ∧
    (s.st = .sValue → WordFinishes 64 s.cfg.store64 b s u → 1 ≤ s.nameLen → 1 ≤ u.wLen → u.wLen ≤ s.tok.length →
      ∃ t, exec (.rxb b) s = .next t ∧ t = { u with st := .sScan, tok := t.tok, events := t.events, drops := t.drops } ∧
        ((∃ value, hexText s.cfg.hexUpper (u.tok.take u.wLen) = some value ∧ value ≠ [] ∧
            t.events = s.events ++ [.config (s.name.take s.nameLen) value] ∧ t.drops = s.drops) ∨
         ((hexText s.cfg.hexUpper (u.tok.take u.wLen) = none ∨ hexText s.cfg.hexUpper (u.tok.take u.wLen) = some []) ∧
            t.events = s.events ∧ t.drops = s.drops ++ [.badHex])))

/-- Decoding in place gives the bytes of the token's digit pairs, spaces ignored, and length 0 on a byte that is no
digit or an odd number of digits; only `tok` below `w_len` is touched (R162). The digits are those of R80, upper case
by `HEX_UPPER` (the spec's own choice, D8), and no other byte is one. -/
def Obligations.HexDecodeInPlaceIsExact : Prop :=
  (∀ (upper : Bool) (b : Byte),
    (0x30 ≤ b.toNat → b.toNat ≤ 0x39 → ∃ v, hexVal upper b = some v ∧ v.toNat = b.toNat - 0x30) ∧
    (0x61 ≤ b.toNat → b.toNat ≤ 0x66 → ∃ v, hexVal upper b = some v ∧ v.toNat = b.toNat - 0x61 + 10) ∧
    (0x41 ≤ b.toNat → b.toNat ≤ 0x46 → upper = true → ∃ v, hexVal upper b = some v ∧ v.toNat = b.toNat - 0x41 + 10) ∧
    (0x41 ≤ b.toNat → b.toNat ≤ 0x46 → upper = false → hexVal upper b = none) ∧
    (b.toNat < 0x30 ∨ (0x39 < b.toNat ∧ b.toNat < 0x41) ∨ (0x46 < b.toNat ∧ b.toNat < 0x61) ∨ 0x66 < b.toNat →
      hexVal upper b = none)) ∧
  ∀ s : State, s.wLen ≤ s.tok.length →
    (hexDecode s).1 = { s with tok := (hexDecode s).1.tok } ∧
    (hexDecode s).1.tok.length = s.tok.length ∧ (hexDecode s).1.tok.drop s.wLen = s.tok.drop s.wLen ∧
    (∀ value, hexText s.cfg.hexUpper (s.tok.take s.wLen) = some value →
      (hexDecode s).2 = value.length ∧ (hexDecode s).1.tok.take value.length = value) ∧
    (hexText s.cfg.hexUpper (s.tok.take s.wLen) = none → (hexDecode s).2 = 0)

/-- R73: a command frame delivers its token, escapes removed and uncounted, at its delimiter or at its 16th counted
byte; nothing but the framing machine and the event port is touched. -/
def Obligations.CommandFrameDeliversToken : Prop :=
  ∀ (text token : List Byte) (s : State), s.cfg.Legal → StoresOk s → s.st = .sScan → WordText 16 s.cfg.store16 text token →
    ∃ t, exec (.frameC text) s = .next t ∧ t.st = .sScan ∧ t.events = s.events ++ [.command token] ∧
      t.drops = s.drops ∧ t.reorder = s.reorder ∧ t.txSide = s.txSide ∧ t.outside = s.outside ∧ t.results = s.results

/-- R74: a configuration frame delivers its name and its decoded value, or is dropped when the value is not valid
hexadecimal; nothing but the framing machine and the event port is touched. -/
def Obligations.ConfigFrameDeliversNameAndValue : Prop :=
  ∀ (text1 text2 name value : List Byte) (s : State), s.cfg.Legal → StoresOk s → s.st = .sScan →
    WordText 16 s.cfg.store16 text1 name → WordText 64 s.cfg.store64 text2 value →
    ∃ t, exec (.frameD (text1 ++ text2)) s = .next t ∧ t.st = .sScan ∧ t.reorder = s.reorder ∧ t.txSide = s.txSide ∧
      t.outside = s.outside ∧ t.results = s.results ∧
      (∀ bytes, hexText s.cfg.hexUpper value = some bytes → bytes ≠ [] →
        t.events = s.events ++ [.config name bytes] ∧ t.drops = s.drops) ∧
      (hexText s.cfg.hexUpper value = none ∨ hexText s.cfg.hexUpper value = some [] →
        t.events = s.events ∧ t.drops = s.drops ++ [.badHex])

/-- R156: a word that outgrows its store discards its frame, as a command token, a name or a value; the byte that did
not fit is consumed and control is back at scanning. -/
def Obligations.OverlongWordIsDropped : Prop :=
  ∀ (text : List Byte) (s : State), s.cfg.Legal → StoresOk s → s.st = .sScan →
    (OverlongText 16 s.cfg.store16 text →
      (∃ t, exec (.frameC text) s = .next t ∧ t.st = .sScan ∧ t.events = s.events ∧
        t.drops = s.drops ++ [.tokenOverflow] ∧ t.reorder = s.reorder ∧ t.txSide = s.txSide) ∧
      (∃ t, exec (.frameD text) s = .next t ∧ t.st = .sScan ∧ t.events = s.events ∧
        t.drops = s.drops ++ [.tokenOverflow] ∧ t.reorder = s.reorder ∧ t.txSide = s.txSide)) ∧
    (∀ text1 name, WordText 16 s.cfg.store16 text1 name → OverlongText 64 s.cfg.store64 text →
      ∃ t, exec (.frameD (text1 ++ text)) s = .next t ∧ t.st = .sScan ∧ t.events = s.events ∧
        t.drops = s.drops ++ [.tokenOverflow] ∧ t.reorder = s.reorder ∧ t.txSide = s.txSide)

/-- A packet frame met while scanning is read whole, whatever its bytes; the packet goes to the reorder algorithm if it
is valid and is dropped if not; so for `FRAME.R` and for `FEEDPKT` of the same 33 bytes (R72, R89, R145, R146). -/
def Obligations.PacketFrameReachesReorder : Prop :=
  ∀ (body : List Byte) (p : Packet) (s : State), s.st = .sScan → p.toList = 0x2F#8 :: 0x52#8 :: body →
    exec (.feedpkt p) s = exec (.frameR body) s ∧
    (pktValid s.cfg p = true →
      ∃ t, reorderAccept p { s with rxCnt := 31#5, rxbuf := p, st := .sPkt } = .ok t ∧
        exec (.frameR body) s = .next { t with st := .sScan }) ∧
    (pktValid s.cfg p = false →
      exec (.frameR body) s = .next { s with rxCnt := 31#5, rxbuf := p, drops := s.drops ++ [.badCrc] })

/-- An unrecognised type byte after the marker is consumed and discarded, a second marker byte among them (R71, R144,
the spec's decision D4). -/
def Obligations.UnknownTypeByteIsDiscarded : Prop :=
  ∀ (t : Byte) (s : State), s.st = .sScan → t ≠ 0x52#8 → t ≠ 0x63#8 → t ≠ 0x64#8 →
    exec (.frameOther t) s = .next { s with drops := s.drops ++ [.badType] }

/-- Every pseudo-operation (R89) and every frame (R12, R142, R223; one step, log 8) has the effect of its expansion into
operations of R82, from every state. -/
def Obligations.PseudoOperationsAreTheirExpansions : Prop :=
  ∀ (i : Instr) (s : State), exec i s = execSeq (expand s.cfg i) s

/-- R164: the state after a chunk and the events do not depend on where the stream is cut; and one step on a chunk is
the steps on the `RXB` words of its bytes. -/
def Obligations.ChunkingIsInvisible : Prop :=
  (∀ (as bs : List Byte) (s : State), exec (.feed (as ++ bs)) s = execSeq [.feed as, .feed bs] s) ∧
  (∀ s : State, exec (.feed []) s = .next s) ∧
  ∀ (bytes : List Byte) (rest : List Input) (s t : State),
    step { s with input := .wire bytes :: rest } = .next t →
    (Host.Core.run
      { State := State, Fault := Fault, Refusal := Refusal, step := step, reset := State.reset } bytes.length
      { s with input := bytes.map (fun b => .cmd (0x1#4 ++ 0#20 ++ b)) ++ rest } : Host.Outcome State Fault Refusal) =
      .next t

/-- R232, R235, R237: one byte has at most one drop cause, never the empty token, and then no event: the block is back at
scanning with the reorder state and the transmit side as they were. -/
def Obligations.DroppedFrameLeavesNoTrace : Prop :=
  ∀ (b : Byte) (s : State), Inv s → ∃ t ds, exec (.rxb b) s = .next t ∧ t.drops = s.drops ++ ds ∧
    (ds = [] ∨ ∃ c, ds = [c] ∧ c ≠ .emptyToken ∧ t.events = s.events ∧ t.st = .sScan ∧ t.reorder = s.reorder ∧
      t.txSide = s.txSide)

/-- R90: which operations produce which records, and what a record carries: an arrived packet was valid, lengths are in
their bounds; records are only ever appended. -/
def Obligations.EmittedRecordsAreWellFormed : Prop :=
  ∀ (i : Instr) (s : State), Inv s → legalOperands s.cfg i = true → ∃ t es, exec i s = .next t ∧
    t.events = s.events ++ es ∧ (∀ e ∈ es, e.Ok s.cfg) ∧
    (∀ b, i = .rxb b → ∀ e ∈ es, e.kind = 0 ∨ e.kind = 2 ∨ e.kind = 3) ∧
    (i = .beginOp → ∀ e ∈ es, e.kind = 1) ∧ (∀ size, i = .setwin size → ∀ e ∈ es, e.kind = 0) ∧
    (i = .reset ∨ (∃ m, i = .setord m) ∨ (∃ crc b, i = .crcupd crc b) ∨ isPayloadWrite i = true → es = [])

/-- The receive side and the transmit side share no state: no receive operation touches the transmit side, no transmit
operation touches the framing machine or the reorder state, and neither touches the parameters or the inputs (R59
item 4, R200). -/
def Obligations.SidesShareNoState : Prop :=
  ∀ (i : Instr) (s t : State), exec i s = .next t → t.outside = s.outside ∧
    (isReceive i = true → t.txSide = s.txSide ∧ t.results = s.results) ∧
    (isTransmit i = true → t.framing = s.framing ∧ t.reorder = s.reorder ∧ t.drops = s.drops)

/-- What a receive operation does depends on nothing of the transmit side: two states that agree on the framing machine,
the reorder state and the parameters are led by the same operation (`RXB`, `SETWIN`, a frame, `FEED`, `FEEDPKT`) to
states that agree on them, with the same new records and the same new drops. -/
def Obligations.ReceiveIgnoresTransmitSide : Prop :=
  ∀ (i : Instr) (s₁ s₂ : State), isReceive i = true → legalOperands s₁.cfg i = true →
    s₁.framing = s₂.framing → s₁.reorder = s₂.reorder → s₁.cfg = s₂.cfg →
    ∃ t₁ t₂ es ds, exec i s₁ = .next t₁ ∧ exec i s₂ = .next t₂ ∧
      t₁.framing = t₂.framing ∧ t₁.reorder = t₂.reorder ∧ t₁.cfg = t₂.cfg ∧
      t₁.events = s₁.events ++ es ∧ t₂.events = s₂.events ++ es ∧
      t₁.drops = s₁.drops ++ ds ∧ t₂.drops = s₂.drops ++ ds

/-! Invariants. -/

/-- R47, R190: from every state that meets the invariant, a step leads to a state that meets it (with the model's reading
of the store sizes, log 13). -/
def Obligations.StepKeepsInvariant : Prop :=
  ∀ s t : State, Inv s → step s = .next t → Inv t

/-- The invariant holds after reset. -/
def Obligations.ResetMeetsInvariant : Prop := Inv State.reset

/-! The ring. -/

/-- R131 to R136: the container's operations within their preconditions, overwrite-oldest on overflow, and the refusals
outside them. -/
def Obligations.RingOperationsAsSpecified : Prop :=
  (∀ rb k (h : k < rb.length), rbGet rb k = .ok rb[k]) ∧ (∀ rb k, rb.length ≤ k → rbGet rb k = .error .rbIndex) ∧
  (∀ rb k v, k < rb.length → rbSet rb k v = .ok (rb.set k v)) ∧
  (∀ rb k v, rb.length ≤ k → rbSet rb k v = .error .rbIndex) ∧
  (∀ cap rb v, rb.length < cap → rbAppend cap rb v = .ok (rb ++ [v])) ∧
  (∀ cap rb v front rest, rb = front :: rest → rb.length = cap → rbAppend cap rb v = .ok (rest ++ [v])) ∧
  (∀ v, rbAppend 0 [] v = .error .rbZeroCap) ∧
  (∀ rb n, n ≤ rb.length → rbRemovePrefix rb n = .ok (rb.drop n)) ∧
  (∀ rb n, rb.length < n → rbRemovePrefix rb n = .error .rbIndex) ∧
  (∀ cap rb d, rb.length + d ≤ cap → rbExtendEmpty cap rb d = .ok (rb ++ List.replicate d .empty)) ∧
  rbClear = []

/-- R137: the physical ring, with its begin and size counters and modular indexing, behaves as the sequence: append
(overwriting the oldest when full), prefix removal, read. -/
def Obligations.PhysicalRingRefinesSequence : Prop :=
  ∀ r : PhysRing, r.Ok →
    (physView r).length = r.size ∧
    (∀ v, (physAppend r v).Ok ∧ rbAppend r.slots.length (physView r) v = .ok (physView (physAppend r v))) ∧
    (∀ n, n ≤ r.size →
      (physRemovePrefix r n).Ok ∧ rbRemovePrefix (physView r) n = .ok (physView (physRemovePrefix r n))) ∧
    (∀ k, k < r.size → rbGet (physView r) k = .ok (physGet r k))
end

