-- ==== Sys2Proof/Laws/Packet.lean ====
section
/-! SUPPORT. The packet image read byte by byte (Machine/Operands.lean, Machine/Packet.lean): a read after a write,
equality from the bytes, and what the codec functions leave in each byte. -/

namespace Sys2Proof.Machine

theorem pktByte_eq_getElem (p : Packet) {k : Nat} (h : k < 33) : pktByte p k = p[k] := by
  simp [pktByte, h]

/-- A read after a write of a packet byte. -/
theorem pktByte_pktSetByte (p : Packet) (j k : Nat) (b : Byte) :
    pktByte (pktSetByte p j b) k = if j = k ∧ k < 33 then b else pktByte p k := by
  unfold pktByte pktSetByte
  by_cases hk : k < 33 <;> by_cases hj : j = k <;> simp [hk, hj]

@[simp] theorem pktByte_pktSetByte_same (p : Packet) {k : Nat} (b : Byte) (h : k < 33) :
    pktByte (pktSetByte p k b) k = b := by simp [pktByte_pktSetByte, h]

@[simp] theorem pktByte_pktSetByte_ne (p : Packet) {j k : Nat} (b : Byte) (h : j ≠ k) :
    pktByte (pktSetByte p j b) k = pktByte p k := by simp [pktByte_pktSetByte, h]

/-- Packets with the same 33 bytes are equal. -/
theorem pkt_ext {p q : Packet} (h : ∀ k, k < 33 → pktByte p k = pktByte q k) : p = q := by
  apply Vector.ext
  intro k hk
  have := h k hk
  rwa [pktByte_eq_getElem p hk, pktByte_eq_getElem q hk] at this

theorem pktSetByte_same_twice (p : Packet) (k : Nat) (b b' : Byte) :
    pktSetByte (pktSetByte p k b) k b' = pktSetByte p k b' := by
  apply pkt_ext
  intro j _
  simp only [pktByte_pktSetByte]
  split <;> simp_all

theorem toNat_append_byte {w : Nat} (a : BitVec w) (b : Byte) : (a ++ b).toNat = a.toNat * 256 + b.toNat := by
  have := b.isLt
  rw [BitVec.toNat_append, ← Nat.shiftLeft_add_eq_or_of_lt b.isLt, Nat.shiftLeft_eq]

theorem hiByte_toNat (v : U16) : (hiByte v).toNat = v.toNat / 256 := by
  have := v.isLt
  simp [hiByte, Nat.shiftRight_eq_div_pow]
  omega

theorem loByte_toNat (v : U16) : (loByte v).toNat = v.toNat % 256 := by
  simp [loByte]

/-- The bytes of a 16-bit word, put together again (R50). -/
@[simp] theorem hiByte_append_loByte (v : U16) : hiByte v ++ loByte v = v := by
  apply BitVec.eq_of_toNat_eq
  have h : (hiByte v ++ loByte v : U16).toNat = _ := toNat_append_byte (hiByte v) (loByte v)
  rw [h, hiByte_toNat, loByte_toNat]
  omega

@[simp] theorem hiByte_append (a b : Byte) : hiByte (a ++ b) = a := by
  apply BitVec.eq_of_toNat_eq
  have h : (a ++ b : U16).toNat = _ := toNat_append_byte a b
  have := b.isLt
  rw [hiByte_toNat, h]
  omega

@[simp] theorem loByte_append (a b : Byte) : loByte (a ++ b) = b := by
  apply BitVec.eq_of_toNat_eq
  have h : (a ++ b : U16).toNat = _ := toNat_append_byte a b
  have := b.isLt
  rw [loByte_toNat, h]
  omega

/-- The bytes of a sample pattern, put together again (R85). -/
@[simp] theorem raw_bytes_append (v : U24) : rawHi v ++ rawMid v ++ rawLo v = v := by
  apply BitVec.eq_of_toNat_eq
  have h : (rawHi v ++ rawMid v ++ rawLo v : U24).toNat = _ := toNat_append_byte (rawHi v ++ rawMid v) (rawLo v)
  have h' : (rawHi v ++ rawMid v : U16).toNat = _ := toNat_append_byte (rawHi v) (rawMid v)
  have := v.isLt
  rw [h, h']
  simp [rawHi, rawMid, rawLo, Nat.shiftRight_eq_div_pow]
  omega

/-- The sequence number just written (R112). -/
@[simp] theorem pktSeq_pktSetSeq (p : Packet) (s : U16) : pktSeq (pktSetSeq p s) = s := by
  simp [pktSeq, pktSetSeq, be16]

/-- The bytes of `pkt_empty(s)` (R111). -/
theorem pktByte_pktEmpty (s : U16) (k : Nat) :
    pktByte (pktEmpty s) k =
      if k = 0 then markByte else if k = 1 then typeR else if k = 2 then hiByte s
      else if k = 3 then loByte s else 0#8 := by
  have hz : pktByte (Vector.replicate 33 0#8) k = 0#8 := by
    by_cases h : k < 33 <;> simp [pktByte, h]
  simp only [pktEmpty, pktSetSeq, pktMark, pktByte_pktSetByte, hz]
  grind

@[simp] theorem pktSeq_pktEmpty (s : U16) : pktSeq (pktEmpty s) = s := by simp [pktEmpty]

/-- The channel just written reads back (R114). -/
theorem smpRaw_smpPut_same (p : Packet) (c : Nat) (raw : U24) (h : c ≤ 8) : smpRaw (smpPut p c raw) c = raw := by
  have h4 : 4 + 3 * c + 1 = 5 + 3 * c := by omega
  have h5 : 4 + 3 * c + 2 = 6 + 3 * c := by omega
  rw [smpRaw, be24, h4, h5]
  simp only [smpPut]
  rw [pktByte_pktSetByte_ne _ _ (by omega), pktByte_pktSetByte_ne _ _ (by omega),
    pktByte_pktSetByte_same _ _ (by omega), pktByte_pktSetByte_ne _ _ (by omega),
    pktByte_pktSetByte_same _ _ (by omega), pktByte_pktSetByte_same _ _ (by omega)]
  exact raw_bytes_append raw

/-- A sample write touches only its three bytes (R114). -/
theorem pktByte_smpPut_other (p : Packet) (c : Nat) (raw : U24) (k : Nat) (h : k < 4 + 3 * c ∨ 6 + 3 * c < k) :
    pktByte (smpPut p c raw) k = pktByte p k := by
  simp only [smpPut, pktByte_pktSetByte]
  rw [if_neg (by omega), if_neg (by omega), if_neg (by omega)]

/-- Another channel is not touched by a sample write. -/
theorem smpRaw_smpPut_other (p : Packet) (c d : Nat) (raw : U24) (h : c ≠ d) :
    smpRaw (smpPut p c raw) d = smpRaw p d := by
  simp only [smpRaw, be24]
  rw [pktByte_smpPut_other _ _ _ _ (by omega), pktByte_smpPut_other _ _ _ _ (by omega),
    pktByte_smpPut_other _ _ _ _ (by omega)]

/-- The bytes the checksum covers are the first 31 (R110). -/
theorem pktCovered_congr {p q : Packet} (h : ∀ k, k < 31 → pktByte p k = pktByte q k) :
    pktCovered p = pktCovered q := by
  unfold pktCovered
  apply List.ext_getElem
  · simp
  · intro k hk _
    have hk' : k < 31 := by simpa using hk
    have := h k hk'
    rw [pktByte_eq_getElem p (by omega), pktByte_eq_getElem q (by omega)] at this
    simpa using this

theorem pktByte_pktFinalize_lt (c : Config) (p : Packet) {k : Nat} (h : k < 31) :
    pktByte (pktFinalize c p) k = pktByte p k := by
  simp only [pktFinalize, pktByte_pktSetByte]
  rw [if_neg (by omega), if_neg (by omega)]

/-- Finalising does not change what the checksum covers (R117). -/
@[simp] theorem pktCovered_pktFinalize (c : Config) (p : Packet) : pktCovered (pktFinalize c p) = pktCovered p :=
  pktCovered_congr fun _ h => pktByte_pktFinalize_lt c p h

theorem pktCrcField_pktFinalize (c : Config) (p : Packet) :
    pktCrcField (pktFinalize c p) = crcCompute c (pktCovered p) := by
  simp [pktCrcField, pktFinalize, be16]

@[simp] theorem pktSeq_pktFinalize (c : Config) (p : Packet) : pktSeq (pktFinalize c p) = pktSeq p := by
  simp [pktSeq, be16, pktByte_pktFinalize_lt]

@[simp] theorem pktSeq_smpPut (p : Packet) (c : Nat) (raw : U24) : pktSeq (smpPut p c raw) = pktSeq p := by
  simp only [pktSeq, be16]
  rw [pktByte_smpPut_other _ _ _ _ (by omega), pktByte_smpPut_other _ _ _ _ (by omega)]

end Sys2Proof.Machine
end

