-- ==== Sys2Proof/Laws/Checksum.lean ====
section
/-! SUPPORT. The default checksum step (spec/40_checksum.md R103) has `CRC_INJ` (R102), so the statements that assume
`CRC_INJ` have an example. -/

namespace Sys2Proof.Machine

/-- The low bytes of the 256 table entries are pairwise different. -/
theorem crcRom_lo_inj (a b : Byte) (hab : loByte (crcRom a) = loByte (crcRom b)) : a = b := by
  have h : (List.range 256).Pairwise
      (fun a b => loByte (crcRom (BitVec.ofNat 8 a)) ≠ loByte (crcRom (BitVec.ofNat 8 b))) := by decide +kernel
  by_contra hne
  rw [List.pairwise_iff_getElem] at h
  have hne' : a.toNat ≠ b.toNat := fun e => hne (BitVec.eq_of_toNat_eq e)
  rcases Nat.lt_or_gt_of_ne hne' with hl | hl
  · have := h a.toNat b.toNat (by simpa using a.isLt) (by simpa using b.isLt) hl
    simp [hab] at this
  · have := h b.toNat a.toNat (by simpa using b.isLt) (by simpa using a.isLt) hl
    simp [hab] at this

theorem loByte_shiftLeft (crc : U16) : loByte (crc <<< 8) = 0#8 := by
  apply BitVec.eq_of_getLsbD_eq; intro i hi; simp [loByte, hi]

theorem hiByte_shiftLeft (crc : U16) : hiByte (crc <<< 8) = loByte crc := by
  apply BitVec.eq_of_getLsbD_eq; intro i hi; simp [hiByte, loByte, hi]; intros; omega

theorem loByte_xor (a b : U16) : loByte (a ^^^ b) = loByte a ^^^ loByte b := by
  apply BitVec.eq_of_getLsbD_eq; intro i hi; simp [loByte, hi]

theorem hiByte_xor (a b : U16) : hiByte (a ^^^ b) = hiByte a ^^^ hiByte b := by
  apply BitVec.eq_of_getLsbD_eq; intro i hi; simp [hiByte, hi]

theorem xor_right_cancel {a b c : Byte} (h : b ^^^ a = c ^^^ a) : b = c := by
  have := congrArg (· ^^^ a) h
  simpa [BitVec.xor_assoc] using this

/-- `CRC_INJ` of the default instance. -/
theorem xmodemStep_inj : CrcInj xmodemStep := by
  have index : ∀ {x y : U16} {b c : Byte}, xmodemStep x b = xmodemStep y c → hiByte x ^^^ b = hiByte y ^^^ c := by
    intro x y b c he
    have := congrArg loByte he
    simp only [xmodemStep, loByte_xor, loByte_shiftLeft, BitVec.zero_xor] at this
    exact crcRom_lo_inj _ _ this
  refine ⟨fun crc b b' hb he => hb ?_, fun crc crc' b hc he => hc ?_⟩
  · have := index he
    rw [BitVec.xor_comm _ b, BitVec.xor_comm _ b'] at this
    exact xor_right_cancel this
  · have hi := index he
    have lo := congrArg hiByte he
    simp only [xmodemStep, hiByte_xor, hiByte_shiftLeft] at lo
    rw [hi] at lo
    rw [← hiByte_append_loByte crc, ← hiByte_append_loByte crc', xor_right_cancel lo, xor_right_cancel hi]

theorem crcUpdate_xmodem {c : Config} (h : c.crc = .xmodem) : crcUpdate c = xmodemStep := by
  funext crc b; simp [crcUpdate, h, crcStepOf]

/-- `CRC_INJ` of a block with the default instance. -/
theorem crcInj_of_xmodem {c : Config} (h : c.crc = .xmodem) : CrcInj (crcUpdate c) := by
  rw [crcUpdate_xmodem h]; exact xmodemStep_inj

end Sys2Proof.Machine
end

