-- ==== Sys2Proof/Laws/Decode.lean ====
section
/-! SUPPORT. The command space as arithmetic (spec/30_encoding.md R82, R84, R85): which words a row of R82 fits, the decoder as
a chain of comparisons, the fields of a word and the word of its fields as numbers. -/

namespace Sys2Proof

/-- The bits `lo` to `lo + n - 1` of a word under a mask, as a number. -/
theorem and_mask_eq_iff (w m p : U32) (lo n : Nat) (hm : m.toNat = (2 ^ n - 1) * 2 ^ lo) (hp : p.toNat % 2 ^ lo = 0) :
    w &&& m = p ↔ w.toNat / 2 ^ lo % 2 ^ n = p.toNat / 2 ^ lo := by
  constructor
  · intro h
    rw [← h, BitVec.toNat_and, hm]
    apply Nat.eq_of_testBit_eq
    intro i
    simp only [Nat.testBit_div_two_pow, Nat.testBit_mod_two_pow, Nat.testBit_and, Nat.testBit_mul_two_pow,
      Nat.testBit_two_pow_sub_one]
    by_cases i < n <;> simp [*]
  · intro h
    apply BitVec.eq_of_toNat_eq
    apply Nat.eq_of_testBit_eq
    intro i
    have h1 := congrArg (fun x => x.testBit (i - lo)) h
    have h2 : p.toNat = p.toNat / 2 ^ lo * 2 ^ lo := by
      have := Nat.div_add_mod p.toNat (2 ^ lo)
      rw [hp] at this
      rw [Nat.mul_comm]
      omega
    rw [BitVec.toNat_and, hm, h2]
    simp [Nat.testBit_div_two_pow, Nat.testBit_mod_two_pow, Nat.testBit_mul_two_pow, Nat.testBit_two_pow_sub_one] at h1 ⊢
    by_cases hlo : lo ≤ i
    · simp [hlo] at h1 ⊢
      rw [← h1]
      grind
    · simp [hlo]

/-! The rows of R82. -/

theorem fits_reset (w : U32) : w &&& 0xFFFFFFFF#32 = 0x00000000#32 ↔ w.toNat = 0 := by
  rw [and_mask_eq_iff w _ _ 0 32 rfl rfl]; simp; have := w.isLt; omega
theorem fits_rxb (w : U32) : w &&& 0xFFFFFF00#32 = 0x10000000#32 ↔ w.toNat / 2 ^ 8 = 0x100000 := by
  rw [and_mask_eq_iff w _ _ 8 24 rfl rfl]; simp; have := w.isLt; omega
theorem fits_begin (w : U32) : w &&& 0xFFFFFFFF#32 = 0x20000000#32 ↔ w.toNat = 0x20000000 := by
  rw [and_mask_eq_iff w _ _ 0 32 rfl rfl]; simp; have := w.isLt; omega
theorem fits_paywr (w : U32) : w &&& 0xFFFF0000#32 = 0x30000000#32 ↔ w.toNat / 2 ^ 16 = 0x3000 := by
  rw [and_mask_eq_iff w _ _ 16 16 rfl rfl]; simp; have := w.isLt; omega
theorem fits_smpwr (w : U32) : w &&& 0xF0000000#32 = 0x40000000#32 ↔ w.toNat / 2 ^ 28 = 4 := by
  rw [and_mask_eq_iff w _ _ 28 4 rfl rfl]; simp; have := w.isLt; omega
theorem fits_setord (w : U32) : w &&& 0xFFFFFFFC#32 = 0x50000000#32 ↔ w.toNat / 4 = 0x14000000 := by
  rw [and_mask_eq_iff w _ _ 2 30 rfl rfl]; simp; have := w.isLt; omega
theorem fits_setwin (w : U32) : w &&& 0xFFFF0000#32 = 0x60000000#32 ↔ w.toNat / 2 ^ 16 = 0x6000 := by
  rw [and_mask_eq_iff w _ _ 16 16 rfl rfl]; simp; have := w.isLt; omega
theorem fits_crcupd (w : U32) : w &&& 0xFF000000#32 = 0x70000000#32 ↔ w.toNat / 2 ^ 24 = 0x70 := by
  rw [and_mask_eq_iff w _ _ 24 8 rfl rfl]; simp; have := w.isLt; omega
theorem fits_reserved (w : U32) : w &&& 0x80000000#32 = 0x80000000#32 ↔ w.toNat / 2 ^ 31 = 1 := by
  rw [and_mask_eq_iff w _ _ 31 1 rfl rfl]; simp; have := w.isLt; omega

/-- The decoder over a list of rows. -/
def decodeRows (rows : List CmdRow) (w : U32) : Except Reject Instr :=
  match rows.find? (fun r => r.fits w) with
  | some r => .ok (r.operands w)
  | none => .error .reservedEncoding

theorem decodeRows_cons (r : CmdRow) (rows : List CmdRow) (w : U32) :
    decodeRows (r :: rows) w = if w &&& r.mask = r.pattern then .ok (r.operands w) else decodeRows rows w := by
  unfold decodeRows
  rw [List.find?_cons]
  by_cases h : w &&& r.mask = r.pattern
  · simp [CmdRow.fits, h]
  · have : (w &&& r.mask == r.pattern) = false := by simpa using h
    simp [CmdRow.fits, h, this]

/-- The decoder as a chain of comparisons, one for each row of R82. -/
theorem decodeCmd_eq (w : U32) : decodeCmd w =
    if w.toNat = 0 then .ok .reset
    else if w.toNat / 2 ^ 8 = 0x100000 then .ok (.rxb (w.extractLsb' 0 8))
    else if w.toNat = 0x20000000 then .ok .beginOp
    else if w.toNat / 2 ^ 16 = 0x3000 then .ok (.paywr (w.extractLsb' 8 8) (w.extractLsb' 0 8))
    else if w.toNat / 2 ^ 28 = 4 then .ok (.smpwr (w.extractLsb' 24 4) (w.extractLsb' 0 24))
    else if w.toNat / 4 = 0x14000000 then .ok (.setord (w.extractLsb' 0 2))
    else if w.toNat / 2 ^ 16 = 0x6000 then .ok (.setwin (w.extractLsb' 0 16))
    else if w.toNat / 2 ^ 24 = 0x70 then .ok (.crcupd (w.extractLsb' 8 16) (w.extractLsb' 0 8))
    else if w.toNat / 2 ^ 31 = 1 then .ok (.reservedOp (w.extractLsb' 0 31))
    else .error .reservedEncoding := by
  change decodeRows cmdTable w = _
  simp only [cmdTable, decodeRows_cons, fits_reset, fits_rxb, fits_begin, fits_paywr, fits_smpwr, fits_setord,
    fits_setwin, fits_crcupd, fits_reserved]
  rfl

/-- Two rows that disagree on a bit both of them select fit no word in common. -/
theorem rows_exclude {a b : CmdRow} {w : U32} (h : a.mask &&& b.mask &&& (a.pattern ^^^ b.pattern) ≠ 0#32)
    (ha : a.fits w = true) (hb : b.fits w = true) : False := by
  simp only [CmdRow.fits, beq_iff_eq] at ha hb
  apply h
  rw [← ha, ← hb]
  apply BitVec.eq_of_getLsbD_eq
  intro i hi
  simp
  grind

/-! Fields and words as numbers. -/

/-- A field of a word, as a number. -/
theorem field_toNat (w : U32) (a n : Nat) : (w.extractLsb' a n).toNat = w.toNat / 2 ^ a % 2 ^ n := by
  simp [Nat.shiftRight_eq_div_pow]

/-- The must-be-zero bits of R82, as numbers. -/
theorem mustBeZeroSet_iff (w : U32) : Machine.MustBeZeroSet w ↔
    (w.toNat / 2 ^ 28 = 0 ∧ w.toNat ≠ 0) ∨ (w.toNat / 2 ^ 28 = 1 ∧ w.toNat / 2 ^ 8 ≠ 0x100000) ∨
    (w.toNat / 2 ^ 28 = 2 ∧ w.toNat ≠ 0x20000000) ∨ (w.toNat / 2 ^ 28 = 3 ∧ w.toNat / 2 ^ 16 ≠ 0x3000) ∨
    (w.toNat / 2 ^ 28 = 5 ∧ w.toNat / 4 ≠ 0x14000000) ∨ (w.toNat / 2 ^ 28 = 6 ∧ w.toNat / 2 ^ 16 ≠ 0x6000) ∨
    (w.toNat / 2 ^ 28 = 7 ∧ w.toNat / 2 ^ 24 ≠ 0x70) := by
  have hw := w.isLt
  have low : w.toNat / 2 ^ 0 = w.toNat := by simp
  have op : w.toNat / 2 ^ 28 % 2 ^ 4 = w.toNat / 2 ^ 28 := by omega
  simp only [Machine.MustBeZeroSet, field_toNat, ne_eq, ← BitVec.toNat_inj, BitVec.toNat_ofNat, low, op]
  rcases (by omega : w.toNat / 2 ^ 28 = 0 ∨ w.toNat / 2 ^ 28 = 1 ∨ w.toNat / 2 ^ 28 = 2 ∨ w.toNat / 2 ^ 28 = 3 ∨
    w.toNat / 2 ^ 28 = 4 ∨ w.toNat / 2 ^ 28 = 5 ∨ w.toNat / 2 ^ 28 = 6 ∨ w.toNat / 2 ^ 28 = 7 ∨ 8 ≤ w.toNat / 2 ^ 28)
    with h | h | h | h | h | h | h | h | h
  all_goals simp [h]
  all_goals omega

/-- The operands out of range of R84, as numbers. -/
theorem operandOutOfRange_iff (c : Config) (w : U32) : Machine.OperandOutOfRange c w ↔
    (w.toNat / 2 ^ 28 = 3 ∧ 26 < w.toNat / 2 ^ 8 % 2 ^ 8) ∨ (w.toNat / 2 ^ 28 = 4 ∧ 8 < w.toNat / 2 ^ 24 % 2 ^ 4) ∨
    (w.toNat / 2 ^ 28 = 5 ∧ w.toNat % 4 = 3) ∨ (w.toNat / 2 ^ 28 = 6 ∧ c.wMax < w.toNat % 2 ^ 16) := by
  have hw := w.isLt
  have low : w.toNat / 2 ^ 0 = w.toNat := by simp
  have op : w.toNat / 2 ^ 28 % 2 ^ 4 = w.toNat / 2 ^ 28 := by omega
  simp only [Machine.OperandOutOfRange, field_toNat, ← BitVec.toNat_inj, BitVec.toNat_ofNat, low, op]
  rfl

/-- Fields put together, as a number. -/
theorem append_toNat {a b : Nat} (x : BitVec a) (y : BitVec b) : (x ++ y).toNat = x.toNat * 2 ^ b + y.toNat := by
  rw [BitVec.toNat_append, ← Nat.shiftLeft_add_eq_or_of_lt y.isLt, Nat.shiftLeft_eq]

theorem word_rxb (b : Byte) : (0x1#4 ++ 0#20 ++ b).toNat = 2 ^ 28 + b.toNat := by
  simp only [append_toNat, BitVec.toNat_ofNat]; omega
theorem word_paywr (off b : Byte) :
    (0x3#4 ++ 0#12 ++ off ++ b).toNat = 3 * 2 ^ 28 + off.toNat * 256 + b.toNat := by
  simp only [append_toNat, BitVec.toNat_ofNat]; omega
theorem word_smpwr (ch : BitVec 4) (raw : U24) :
    (0x4#4 ++ ch ++ raw).toNat = 4 * 2 ^ 28 + ch.toNat * 2 ^ 24 + raw.toNat := by
  simp only [append_toNat, BitVec.toNat_ofNat]; omega
theorem word_setord (m : BitVec 2) : (0x5#4 ++ 0#26 ++ m).toNat = 5 * 2 ^ 28 + m.toNat := by
  simp only [append_toNat, BitVec.toNat_ofNat]; omega
theorem word_setwin (size : U16) : (0x6#4 ++ 0#12 ++ size).toNat = 6 * 2 ^ 28 + size.toNat := by
  simp only [append_toNat, BitVec.toNat_ofNat]; omega
theorem word_crcupd (crc : U16) (b : Byte) :
    (0x7#4 ++ 0#4 ++ crc ++ b).toNat = 7 * 2 ^ 28 + crc.toNat * 256 + b.toNat := by
  simp only [append_toNat, BitVec.toNat_ofNat]; omega
theorem word_reserved (low : BitVec 31) : (1#1 ++ low).toNat = 2 ^ 31 + low.toNat := by
  simp only [append_toNat, BitVec.toNat_ofNat]; omega

end Sys2Proof
end

