-- ==== Sys2Proof/Laws/Ring.lean ====
section
/-! SUPPORT. What each ring operation does within its precondition (spec/42_ring_buffer.md R131 to R135). -/

namespace Sys2Proof.Machine

theorem rbGet_of_lt {rb : List Slot} {k : Nat} (h : k < rb.length) : rbGet rb k = .ok rb[k] := by
  simp [rbGet, h]

@[simp] theorem rbGet_cons_zero (v : Slot) (rb : List Slot) : rbGet (v :: rb) 0 = .ok v := rfl

theorem rbSet_of_lt {rb : List Slot} {k : Nat} (v : Slot) (h : k < rb.length) : rbSet rb k v = .ok (rb.set k v) := by
  simp [rbSet, h]

theorem rbAppend_of_lt {cap : Nat} {rb : List Slot} (v : Slot) (h : rb.length < cap) :
    rbAppend cap rb v = .ok (rb ++ [v]) := by
  simp [rbAppend, h]

@[simp] theorem rbRemovePrefix_cons_one (v : Slot) (rb : List Slot) : rbRemovePrefix (v :: rb) 1 = .ok rb := by
  simp [rbRemovePrefix]

/-- Within the capacity, extending appends `d` empty slots (R135). -/
theorem rbExtendEmpty_of_le {cap : Nat} (d : Nat) :
    ∀ rb : List Slot, rb.length + d ≤ cap → rbExtendEmpty cap rb d = .ok (rb ++ List.replicate d .empty) := by
  induction d with
  | zero => intro rb _; simp [rbExtendEmpty]
  | succ d ih =>
    intro rb h
    rw [rbExtendEmpty, rbAppend_of_lt _ (by omega)]
    have := ih (rb ++ [Slot.empty]) (by simp; omega)
    simpa [bind, Except.bind, List.replicate_succ] using this

end Sys2Proof.Machine
end

