-- ==== Sys2Proof/Laws/State.lean ====
section
/-! SUPPORT. One lemma per field per update of the shared operations that write a few fields of the state
(Machine/Ops.lean, Machine/Framing.lean, Machine/Fetch.lean). -/

namespace Sys2Proof.Machine

variable (s : State)

@[simp] theorem emit_st (e : Event) : (s.emit e).st = s.st := rfl
@[simp] theorem emit_rxCnt (e : Event) : (s.emit e).rxCnt = s.rxCnt := rfl
@[simp] theorem emit_rxbuf (e : Event) : (s.emit e).rxbuf = s.rxbuf := rfl
@[simp] theorem emit_wPhase (e : Event) : (s.emit e).wPhase = s.wPhase := rfl
@[simp] theorem emit_wCnt (e : Event) : (s.emit e).wCnt = s.wCnt := rfl
@[simp] theorem emit_wLen (e : Event) : (s.emit e).wLen = s.wLen := rfl
@[simp] theorem emit_tok (e : Event) : (s.emit e).tok = s.tok := rfl
@[simp] theorem emit_nameLen (e : Event) : (s.emit e).nameLen = s.nameLen := rfl
@[simp] theorem emit_name (e : Event) : (s.emit e).name = s.name := rfl
@[simp] theorem emit_lastSeq (e : Event) : (s.emit e).lastSeq = s.lastSeq := rfl
@[simp] theorem emit_rb (e : Event) : (s.emit e).rb = s.rb := rfl
@[simp] theorem emit_win (e : Event) : (s.emit e).win = s.win := rfl
@[simp] theorem emit_mode (e : Event) : (s.emit e).mode = s.mode := rfl
@[simp] theorem emit_seqTx (e : Event) : (s.emit e).seqTx = s.seqTx := rfl
@[simp] theorem emit_hist (e : Event) : (s.emit e).hist = s.hist := rfl
@[simp] theorem emit_cfg (e : Event) : (s.emit e).cfg = s.cfg := rfl
@[simp] theorem emit_input (e : Event) : (s.emit e).input = s.input := rfl
@[simp] theorem emit_events (e : Event) : (s.emit e).events = s.events ++ [e] := rfl
@[simp] theorem emit_results (e : Event) : (s.emit e).results = s.results := rfl
@[simp] theorem emit_drops (e : Event) : (s.emit e).drops = s.drops := rfl

@[simp] theorem putResult_st (r : U32) : (s.putResult r).st = s.st := rfl
@[simp] theorem putResult_rxCnt (r : U32) : (s.putResult r).rxCnt = s.rxCnt := rfl
@[simp] theorem putResult_rxbuf (r : U32) : (s.putResult r).rxbuf = s.rxbuf := rfl
@[simp] theorem putResult_wPhase (r : U32) : (s.putResult r).wPhase = s.wPhase := rfl
@[simp] theorem putResult_wCnt (r : U32) : (s.putResult r).wCnt = s.wCnt := rfl
@[simp] theorem putResult_wLen (r : U32) : (s.putResult r).wLen = s.wLen := rfl
@[simp] theorem putResult_tok (r : U32) : (s.putResult r).tok = s.tok := rfl
@[simp] theorem putResult_nameLen (r : U32) : (s.putResult r).nameLen = s.nameLen := rfl
@[simp] theorem putResult_name (r : U32) : (s.putResult r).name = s.name := rfl
@[simp] theorem putResult_lastSeq (r : U32) : (s.putResult r).lastSeq = s.lastSeq := rfl
@[simp] theorem putResult_rb (r : U32) : (s.putResult r).rb = s.rb := rfl
@[simp] theorem putResult_win (r : U32) : (s.putResult r).win = s.win := rfl
@[simp] theorem putResult_mode (r : U32) : (s.putResult r).mode = s.mode := rfl
@[simp] theorem putResult_seqTx (r : U32) : (s.putResult r).seqTx = s.seqTx := rfl
@[simp] theorem putResult_hist (r : U32) : (s.putResult r).hist = s.hist := rfl
@[simp] theorem putResult_cfg (r : U32) : (s.putResult r).cfg = s.cfg := rfl
@[simp] theorem putResult_input (r : U32) : (s.putResult r).input = s.input := rfl
@[simp] theorem putResult_events (r : U32) : (s.putResult r).events = s.events := rfl
@[simp] theorem putResult_results (r : U32) : (s.putResult r).results = s.results ++ [r] := rfl
@[simp] theorem putResult_drops (r : U32) : (s.putResult r).drops = s.drops := rfl

@[simp] theorem dropped_st (c : DropCause) : (s.dropped c).st = s.st := rfl
@[simp] theorem dropped_rxCnt (c : DropCause) : (s.dropped c).rxCnt = s.rxCnt := rfl
@[simp] theorem dropped_rxbuf (c : DropCause) : (s.dropped c).rxbuf = s.rxbuf := rfl
@[simp] theorem dropped_wPhase (c : DropCause) : (s.dropped c).wPhase = s.wPhase := rfl
@[simp] theorem dropped_wCnt (c : DropCause) : (s.dropped c).wCnt = s.wCnt := rfl
@[simp] theorem dropped_wLen (c : DropCause) : (s.dropped c).wLen = s.wLen := rfl
@[simp] theorem dropped_tok (c : DropCause) : (s.dropped c).tok = s.tok := rfl
@[simp] theorem dropped_nameLen (c : DropCause) : (s.dropped c).nameLen = s.nameLen := rfl
@[simp] theorem dropped_name (c : DropCause) : (s.dropped c).name = s.name := rfl
@[simp] theorem dropped_lastSeq (c : DropCause) : (s.dropped c).lastSeq = s.lastSeq := rfl
@[simp] theorem dropped_rb (c : DropCause) : (s.dropped c).rb = s.rb := rfl
@[simp] theorem dropped_win (c : DropCause) : (s.dropped c).win = s.win := rfl
@[simp] theorem dropped_mode (c : DropCause) : (s.dropped c).mode = s.mode := rfl
@[simp] theorem dropped_seqTx (c : DropCause) : (s.dropped c).seqTx = s.seqTx := rfl
@[simp] theorem dropped_hist (c : DropCause) : (s.dropped c).hist = s.hist := rfl
@[simp] theorem dropped_cfg (c : DropCause) : (s.dropped c).cfg = s.cfg := rfl
@[simp] theorem dropped_input (c : DropCause) : (s.dropped c).input = s.input := rfl
@[simp] theorem dropped_events (c : DropCause) : (s.dropped c).events = s.events := rfl
@[simp] theorem dropped_results (c : DropCause) : (s.dropped c).results = s.results := rfl
@[simp] theorem dropped_drops (c : DropCause) : (s.dropped c).drops = s.drops ++ [c] := rfl

@[simp] theorem toScan_st : (s.toScan).st = .sScan := rfl
@[simp] theorem toScan_rxCnt : (s.toScan).rxCnt = s.rxCnt := rfl
@[simp] theorem toScan_rxbuf : (s.toScan).rxbuf = s.rxbuf := rfl
@[simp] theorem toScan_wPhase : (s.toScan).wPhase = s.wPhase := rfl
@[simp] theorem toScan_wCnt : (s.toScan).wCnt = s.wCnt := rfl
@[simp] theorem toScan_wLen : (s.toScan).wLen = s.wLen := rfl
@[simp] theorem toScan_tok : (s.toScan).tok = s.tok := rfl
@[simp] theorem toScan_nameLen : (s.toScan).nameLen = s.nameLen := rfl
@[simp] theorem toScan_name : (s.toScan).name = s.name := rfl
@[simp] theorem toScan_lastSeq : (s.toScan).lastSeq = s.lastSeq := rfl
@[simp] theorem toScan_rb : (s.toScan).rb = s.rb := rfl
@[simp] theorem toScan_win : (s.toScan).win = s.win := rfl
@[simp] theorem toScan_mode : (s.toScan).mode = s.mode := rfl
@[simp] theorem toScan_seqTx : (s.toScan).seqTx = s.seqTx := rfl
@[simp] theorem toScan_hist : (s.toScan).hist = s.hist := rfl
@[simp] theorem toScan_cfg : (s.toScan).cfg = s.cfg := rfl
@[simp] theorem toScan_input : (s.toScan).input = s.input := rfl
@[simp] theorem toScan_events : (s.toScan).events = s.events := rfl
@[simp] theorem toScan_results : (s.toScan).results = s.results := rfl
@[simp] theorem toScan_drops : (s.toScan).drops = s.drops := rfl

@[simp] theorem discard_st (c : DropCause) : (s.discard c).st = .sScan := rfl
@[simp] theorem discard_rxCnt (c : DropCause) : (s.discard c).rxCnt = s.rxCnt := rfl
@[simp] theorem discard_rxbuf (c : DropCause) : (s.discard c).rxbuf = s.rxbuf := rfl
@[simp] theorem discard_wPhase (c : DropCause) : (s.discard c).wPhase = s.wPhase := rfl
@[simp] theorem discard_wCnt (c : DropCause) : (s.discard c).wCnt = s.wCnt := rfl
@[simp] theorem discard_wLen (c : DropCause) : (s.discard c).wLen = s.wLen := rfl
@[simp] theorem discard_tok (c : DropCause) : (s.discard c).tok = s.tok := rfl
@[simp] theorem discard_nameLen (c : DropCause) : (s.discard c).nameLen = s.nameLen := rfl
@[simp] theorem discard_name (c : DropCause) : (s.discard c).name = s.name := rfl
@[simp] theorem discard_lastSeq (c : DropCause) : (s.discard c).lastSeq = s.lastSeq := rfl
@[simp] theorem discard_rb (c : DropCause) : (s.discard c).rb = s.rb := rfl
@[simp] theorem discard_win (c : DropCause) : (s.discard c).win = s.win := rfl
@[simp] theorem discard_mode (c : DropCause) : (s.discard c).mode = s.mode := rfl
@[simp] theorem discard_seqTx (c : DropCause) : (s.discard c).seqTx = s.seqTx := rfl
@[simp] theorem discard_hist (c : DropCause) : (s.discard c).hist = s.hist := rfl
@[simp] theorem discard_cfg (c : DropCause) : (s.discard c).cfg = s.cfg := rfl
@[simp] theorem discard_input (c : DropCause) : (s.discard c).input = s.input := rfl
@[simp] theorem discard_events (c : DropCause) : (s.discard c).events = s.events := rfl
@[simp] theorem discard_results (c : DropCause) : (s.discard c).results = s.results := rfl
@[simp] theorem discard_drops (c : DropCause) : (s.discard c).drops = s.drops ++ [c] := rfl

@[simp] theorem setHist_st (i : SlotIndex) (p : Packet) : (s.setHist i p).st = s.st := rfl
@[simp] theorem setHist_rxCnt (i : SlotIndex) (p : Packet) : (s.setHist i p).rxCnt = s.rxCnt := rfl
@[simp] theorem setHist_rxbuf (i : SlotIndex) (p : Packet) : (s.setHist i p).rxbuf = s.rxbuf := rfl
@[simp] theorem setHist_wPhase (i : SlotIndex) (p : Packet) : (s.setHist i p).wPhase = s.wPhase := rfl
@[simp] theorem setHist_wCnt (i : SlotIndex) (p : Packet) : (s.setHist i p).wCnt = s.wCnt := rfl
@[simp] theorem setHist_wLen (i : SlotIndex) (p : Packet) : (s.setHist i p).wLen = s.wLen := rfl
@[simp] theorem setHist_tok (i : SlotIndex) (p : Packet) : (s.setHist i p).tok = s.tok := rfl
@[simp] theorem setHist_nameLen (i : SlotIndex) (p : Packet) : (s.setHist i p).nameLen = s.nameLen := rfl
@[simp] theorem setHist_name (i : SlotIndex) (p : Packet) : (s.setHist i p).name = s.name := rfl
@[simp] theorem setHist_lastSeq (i : SlotIndex) (p : Packet) : (s.setHist i p).lastSeq = s.lastSeq := rfl
@[simp] theorem setHist_rb (i : SlotIndex) (p : Packet) : (s.setHist i p).rb = s.rb := rfl
@[simp] theorem setHist_win (i : SlotIndex) (p : Packet) : (s.setHist i p).win = s.win := rfl
@[simp] theorem setHist_mode (i : SlotIndex) (p : Packet) : (s.setHist i p).mode = s.mode := rfl
@[simp] theorem setHist_seqTx (i : SlotIndex) (p : Packet) : (s.setHist i p).seqTx = s.seqTx := rfl
@[simp] theorem setHist_hist (i : SlotIndex) (p : Packet) : (s.setHist i p).hist = s.hist.set i.toNat p (by omega) := rfl
@[simp] theorem setHist_cfg (i : SlotIndex) (p : Packet) : (s.setHist i p).cfg = s.cfg := rfl
@[simp] theorem setHist_input (i : SlotIndex) (p : Packet) : (s.setHist i p).input = s.input := rfl
@[simp] theorem setHist_events (i : SlotIndex) (p : Packet) : (s.setHist i p).events = s.events := rfl
@[simp] theorem setHist_results (i : SlotIndex) (p : Packet) : (s.setHist i p).results = s.results := rfl
@[simp] theorem setHist_drops (i : SlotIndex) (p : Packet) : (s.setHist i p).drops = s.drops := rfl

@[simp] theorem wordStart_st : (wordStart s).st = s.st := rfl
@[simp] theorem wordStart_rxCnt : (wordStart s).rxCnt = s.rxCnt := rfl
@[simp] theorem wordStart_rxbuf : (wordStart s).rxbuf = s.rxbuf := rfl
@[simp] theorem wordStart_wPhase : (wordStart s).wPhase = .skip := rfl
@[simp] theorem wordStart_wCnt : (wordStart s).wCnt = 0#7 := rfl
@[simp] theorem wordStart_wLen : (wordStart s).wLen = 0 := rfl
@[simp] theorem wordStart_tok : (wordStart s).tok = s.tok := rfl
@[simp] theorem wordStart_nameLen : (wordStart s).nameLen = s.nameLen := rfl
@[simp] theorem wordStart_name : (wordStart s).name = s.name := rfl
@[simp] theorem wordStart_lastSeq : (wordStart s).lastSeq = s.lastSeq := rfl
@[simp] theorem wordStart_rb : (wordStart s).rb = s.rb := rfl
@[simp] theorem wordStart_win : (wordStart s).win = s.win := rfl
@[simp] theorem wordStart_mode : (wordStart s).mode = s.mode := rfl
@[simp] theorem wordStart_seqTx : (wordStart s).seqTx = s.seqTx := rfl
@[simp] theorem wordStart_hist : (wordStart s).hist = s.hist := rfl
@[simp] theorem wordStart_cfg : (wordStart s).cfg = s.cfg := rfl
@[simp] theorem wordStart_input : (wordStart s).input = s.input := rfl
@[simp] theorem wordStart_events : (wordStart s).events = s.events := rfl
@[simp] theorem wordStart_results : (wordStart s).results = s.results := rfl
@[simp] theorem wordStart_drops : (wordStart s).drops = s.drops := rfl

@[simp] theorem present_st (x : Input) : (s.present x).st = s.st := rfl
@[simp] theorem present_rxCnt (x : Input) : (s.present x).rxCnt = s.rxCnt := rfl
@[simp] theorem present_rxbuf (x : Input) : (s.present x).rxbuf = s.rxbuf := rfl
@[simp] theorem present_wPhase (x : Input) : (s.present x).wPhase = s.wPhase := rfl
@[simp] theorem present_wCnt (x : Input) : (s.present x).wCnt = s.wCnt := rfl
@[simp] theorem present_wLen (x : Input) : (s.present x).wLen = s.wLen := rfl
@[simp] theorem present_tok (x : Input) : (s.present x).tok = s.tok := rfl
@[simp] theorem present_nameLen (x : Input) : (s.present x).nameLen = s.nameLen := rfl
@[simp] theorem present_name (x : Input) : (s.present x).name = s.name := rfl
@[simp] theorem present_lastSeq (x : Input) : (s.present x).lastSeq = s.lastSeq := rfl
@[simp] theorem present_rb (x : Input) : (s.present x).rb = s.rb := rfl
@[simp] theorem present_win (x : Input) : (s.present x).win = s.win := rfl
@[simp] theorem present_mode (x : Input) : (s.present x).mode = s.mode := rfl
@[simp] theorem present_seqTx (x : Input) : (s.present x).seqTx = s.seqTx := rfl
@[simp] theorem present_hist (x : Input) : (s.present x).hist = s.hist := rfl
@[simp] theorem present_cfg (x : Input) : (s.present x).cfg = s.cfg := rfl
@[simp] theorem present_input (x : Input) : (s.present x).input = x :: s.input := rfl
@[simp] theorem present_events (x : Input) : (s.present x).events = s.events := rfl
@[simp] theorem present_results (x : Input) : (s.present x).results = s.results := rfl
@[simp] theorem present_drops (x : Input) : (s.present x).drops = s.drops := rfl

@[simp] theorem deliver_empty : s.deliver .empty = s := rfl
@[simp] theorem deliver_full (q : Packet) : s.deliver (.full q) = s.emit (.pktArrived q) := rfl

end Sys2Proof.Machine
end

