-- ==== Sys2Proof/Laws/Reorder.lean ====
section
/-! SUPPORT. The reorder algorithm without its loops and its refusals: what each loop and each branch leaves
(spec/44_reorder.md R183 to R189). No ring operation is ever refused (spec/42_ring_buffer.md R139). -/

namespace Sys2Proof.Machine

@[simp] theorem arrivals_nil : arrivals [] = [] := rfl
@[simp] theorem arrivals_append (a b : List Slot) : arrivals (a ++ b) = arrivals a ++ arrivals b := by
  simp [arrivals]
@[simp] theorem arrivals_cons_empty (a : List Slot) : arrivals (.empty :: a) = arrivals a := rfl
@[simp] theorem arrivals_cons_full (q : Packet) (a : List Slot) :
    arrivals (.full q :: a) = .pktArrived q :: arrivals a := rfl

theorem arrivals_cons (v : Slot) (a : List Slot) : arrivals (v :: a) = arrivals [v] ++ arrivals a :=
  arrivals_append [v] a

/-- How many slots a loop `while rb_len > 0 and c: deliver_and_evict()` evicts. -/
def evictCount (c : List Slot → Bool) : List Slot → Nat
  | [] => 0
  | v :: rest => if c (v :: rest) then evictCount c rest + 1 else 0

@[simp] theorem occupied_empty : Slot.occupied .empty = false := rfl
@[simp] theorem occupied_full (q : Packet) : Slot.occupied (.full q) = true := rfl

@[simp] theorem evict_rb (k : Nat) (s : State) : (s.evict k).rb = s.rb.drop k := rfl
@[simp] theorem evict_win (k : Nat) (s : State) : (s.evict k).win = s.win := rfl
@[simp] theorem evict_zero (s : State) : s.evict 0 = s := by simp [State.evict]

/-- One turn of a loop (R183). -/
theorem deliverAndEvict_eq {s : State} (h : 0 < s.rb.length) : deliverAndEvict s = .ok (s.evict 1) := by
  match hrb : s.rb with
  | [] => simp [hrb] at h
  | .empty :: rest => simp [deliverAndEvict, hrb, State.evict, bind, Except.bind, pure, Except.pure]
  | .full q :: rest => simp [deliverAndEvict, hrb, State.evict, bind, Except.bind, pure, Except.pure, State.emit]

theorem evict_evict (s : State) (j k : Nat) : (s.evict j).evict k = s.evict (j + k) := by
  simp [State.evict, List.take_add, arrivals_append]

/-- A loop evicts the slots it counts, and is never refused. -/
theorem evictWhile_eq (c : List Slot → Bool) :
    ∀ (n : Nat) (s : State), s.rb.length ≤ n → evictWhile c n s = .ok (s.evict (evictCount c s.rb)) := by
  intro n
  induction n with
  | zero =>
    intro s h
    have : s.rb = [] := by simpa using h
    simp [evictWhile, this, evictCount]
  | succ n ih =>
    intro s h
    match hrb : s.rb with
    | [] => simp [evictWhile, hrb, evictCount]
    | v :: rest =>
      rw [evictWhile]
      by_cases hc : c (v :: rest)
      · rw [if_pos (by simp [hrb, hc]), deliverAndEvict_eq (by simp [hrb])]
        have hlen : (s.evict 1).rb = rest := by simp [State.evict, hrb]
        have := ih (s.evict 1) (by rw [hlen]; simp [hrb] at h; omega)
        rw [hlen, evict_evict, Nat.add_comm] at this
        simpa [evictCount, hc, bind, Except.bind] using this
      · rw [if_neg (by simp [hrb, hc])]
        simp [evictCount, hc]

theorem evictCount_true (rb : List Slot) : evictCount (fun _ => true) rb = rb.length := by
  induction rb with
  | nil => rfl
  | cons v rest ih => simp [evictCount, ih]

theorem evictCount_makeRoom (d w : Nat) (rb : List Slot) :
    evictCount (fun rb => w ≤ rb.length + d) rb = min rb.length (rb.length + d + 1 - w) := by
  induction rb with
  | nil => simp [evictCount]
  | cons v rest ih =>
    simp only [evictCount, List.length_cons, ih, decide_eq_true_eq]
    split <;> omega

theorem evictCount_frontFull (rb : List Slot) :
    evictCount frontFull rb = (rb.takeWhile Slot.occupied).length := by
  induction rb with
  | nil => rfl
  | cons v rest ih => cases v <;> simp [evictCount, frontFull, List.takeWhile_cons, ih]

/-- The flush delivers every occupied slot, oldest first, and empties the ring (R187, R222). -/
theorem flush_eq (s : State) : flush s = .ok { s with rb := [], events := s.events ++ arrivals s.rb } := by
  rw [flush, evictWhile_eq _ _ _ (Nat.le_refl _), evictCount_true]
  simp [State.evict]

/-- Making room evicts just enough (R185). -/
theorem makeRoom_eq (d w : Nat) (s : State) :
    makeRoom d w s = .ok (s.evict (min s.rb.length (s.rb.length + d + 1 - w))) := by
  rw [makeRoom, evictWhile_eq _ _ _ (Nat.le_refl _), evictCount_makeRoom]

/-- The drain delivers the occupied slots at the front, up to the first gap (R189). -/
theorem drain_eq (s : State) : drain s = .ok (s.evict (s.rb.takeWhile Slot.occupied).length) := by
  rw [drain, evictWhile_eq _ _ _ (Nat.le_refl _), evictCount_frontFull]

theorem length_takeWhile_drop (rb : List Slot) :
    rb.drop (rb.takeWhile Slot.occupied).length = rb.dropWhile Slot.occupied := by
  induction rb with
  | nil => rfl
  | cons v rest ih => cases v <;> simp [List.takeWhile_cons, List.dropWhile_cons, ih]

theorem length_takeWhile_take (rb : List Slot) :
    rb.take (rb.takeWhile Slot.occupied).length = rb.takeWhile Slot.occupied := by
  induction rb with
  | nil => rfl
  | cons v rest ih => cases v <;> simp [List.takeWhile_cons, ih]

/-- The drain, in closed form. -/
theorem drain_closed (s : State) :
    drain s = .ok { s with rb := s.rb.dropWhile Slot.occupied,
                           events := s.events ++ arrivals (s.rb.takeWhile Slot.occupied) } := by
  rw [drain_eq, State.evict, length_takeWhile_drop, length_takeWhile_take]

/-- New-ahead (R185): room is made, `d - 1` gaps and the packet are appended. -/
theorem newAhead_eq (p : Packet) {d : Nat} {s : State} (hd : 0 < d) (hw : d < s.win.toNat) :
    newAhead p d s =
      .ok { s.evict (min s.rb.length (s.rb.length + d + 1 - s.win.toNat)) with
            rb := s.rb.drop (min s.rb.length (s.rb.length + d + 1 - s.win.toNat))
                    ++ List.replicate (d - 1) .empty ++ [.full p],
            lastSeq := pktSeq p } := by
  obtain ⟨d, rfl⟩ : ∃ e, d = e + 1 := ⟨d - 1, by omega⟩
  rw [newAhead, makeRoom_eq]
  generalize he : min s.rb.length (s.rb.length + (d + 1) + 1 - s.win.toNat) = e
  simp only [bind, Except.bind, evict_rb, evict_win]
  have hlen : (s.rb.drop e).length = s.rb.length - e := by simp
  rw [rbExtendEmpty_of_le _ _ (by rw [hlen]; omega)]
  simp only
  rw [rbSet_of_lt _ (by simp)]
  simp [pure, Except.pure, State.evict, List.replicate_succ']

/-- Late or duplicate (R186). -/
theorem late_eq (p : Packet) {d : Int} {s : State} (hd : d ≤ 0) (hlen : d.natAbs < s.rb.length) :
    late p d s = .ok { s with rb := s.rb.set (s.rb.length - 1 - d.natAbs) (.full p) } := by
  have hidx : ((s.rb.length : Int) - 1 + d).toNat = s.rb.length - 1 - d.natAbs := by omega
  rw [late, hidx, rbSet_of_lt _ (by omega)]
  rfl

/-- Window restart (R187), with a window that is on. -/
theorem windowRestart_eq (p : Packet) {s : State} (hw : 0 < s.win.toNat) :
    windowRestart p s =
      .ok { s with rb := [.full p], events := s.events ++ arrivals s.rb, lastSeq := pktSeq p } := by
  rw [windowRestart, flush_eq]
  simp [bind, Except.bind, rbAppend_of_lt _ (show ([] : List Slot).length < s.win.toNat from hw), pure, Except.pure]

theorem win_pos {s : State} (h : s.win ≠ 0#16) : 0 < s.win.toNat := by
  rcases Nat.eq_zero_or_pos s.win.toNat with h0 | h0
  · exact absurd (BitVec.eq_of_toNat_eq (by simpa using h0)) h
  · exact h0

/-- What the branch taken leaves, with a window that is on (R184 to R188). -/
theorem reorderBranch_cases (p : Packet) {s : State} (hw : s.win ≠ 0#16) :
    ∃ t, reorderBranch p s = .ok t ∧
      ((0 < delta (pktSeq p) s.lastSeq ∧ delta (pktSeq p) s.lastSeq < s.win.toNat ∧
          newAhead p (delta (pktSeq p) s.lastSeq).toNat s = .ok t) ∨
       (delta (pktSeq p) s.lastSeq ≤ 0 ∧ (delta (pktSeq p) s.lastSeq).natAbs < s.rb.length ∧
          t = { s with rb := s.rb.set (s.rb.length - 1 - (delta (pktSeq p) s.lastSeq).natAbs) (.full p) }) ∨
       (s.win.toNat ≤ (delta (pktSeq p) s.lastSeq).natAbs ∧
          ¬ (delta (pktSeq p) s.lastSeq ≤ 0 ∧ (delta (pktSeq p) s.lastSeq).natAbs < s.rb.length) ∧
          t = { s with rb := [.full p], events := s.events ++ arrivals s.rb, lastSeq := pktSeq p }) ∨
       (delta (pktSeq p) s.lastSeq ≤ 0 ∧ s.rb.length ≤ (delta (pktSeq p) s.lastSeq).natAbs ∧
          (delta (pktSeq p) s.lastSeq).natAbs < s.win.toNat ∧ t = s.dropped .stale)) := by
  unfold reorderBranch
  simp only [isNewAhead, isLate, isRestart, decide_eq_true_eq]
  generalize delta (pktSeq p) s.lastSeq = d
  by_cases h1 : 0 < d ∧ d < s.win.toNat
  · rw [if_pos h1]
    refine ⟨_, newAhead_eq p (by omega) (by omega), .inl ⟨h1.1, h1.2, newAhead_eq p (by omega) (by omega)⟩⟩
  rw [if_neg h1]
  by_cases h2 : d ≤ 0 ∧ d.natAbs < s.rb.length
  · rw [if_pos h2]
    exact ⟨_, late_eq p h2.1 h2.2, .inr (.inl ⟨h2.1, h2.2, rfl⟩)⟩
  rw [if_neg h2]
  by_cases h3 : s.win.toNat ≤ d.natAbs
  · rw [if_pos h3]
    exact ⟨_, windowRestart_eq p (win_pos hw), .inr (.inr (.inl ⟨h3, h2, rfl⟩))⟩
  rw [if_neg h3]
  exact ⟨_, rfl, .inr (.inr (.inr ⟨by omega, by omega, by omega, rfl⟩))⟩

/-- An accepted packet is never refused, whatever the state (R131, R139). -/
theorem reorderAccept_ok (p : Packet) (s : State) : ∃ t, reorderAccept p s = .ok t := by
  unfold reorderAccept
  split
  · exact ⟨_, rfl⟩
  · next hw =>
    obtain ⟨t, ht, -⟩ := reorderBranch_cases p hw
    exact ⟨_, by rw [ht]; exact drain_eq t⟩

/-- What an accepted packet may change: the reorder state, the events and the trace of drops. -/
theorem reorderAccept_frame {p : Packet} {s t : State} (h : reorderAccept p s = .ok t) :
    t = { s with rb := t.rb, lastSeq := t.lastSeq, events := t.events, drops := t.drops } := by
  unfold reorderAccept at h
  split at h
  · cases h; rfl
  · next hw =>
    obtain ⟨u, hu, hcase⟩ := reorderBranch_cases p hw
    rw [hu] at h
    simp only [bind, Except.bind, drain_closed, Except.ok.injEq] at h
    have hu' : u = { s with rb := u.rb, lastSeq := u.lastSeq, events := u.events, drops := u.drops } := by
      rcases hcase with ⟨h1, h2, h3⟩ | ⟨-, -, rfl⟩ | ⟨-, -, rfl⟩ | ⟨-, -, -, rfl⟩
      · rw [newAhead_eq p (by omega) (by omega)] at h3
        cases h3
        rfl
      · rfl
      · rfl
      · rfl
    rw [hu'] at h
    cases h
    rfl

/-- An accepted packet with a window that is on: the branch taken, then the drain (R184, R189). -/
theorem reorderAccept_on {p : Packet} {s t : State} (hw : s.win ≠ 0#16) (h : reorderBranch p s = .ok t) :
    reorderAccept p s =
      .ok { t with rb := t.rb.dropWhile Slot.occupied,
                   events := t.events ++ arrivals (t.rb.takeWhile Slot.occupied) } := by
  rw [reorderAccept, if_neg hw, h]
  exact drain_closed t

theorem arrivals_length_le (rb : List Slot) : (arrivals rb).length ≤ rb.length := by
  simp only [arrivals]
  exact List.length_filterMap_le _ _

theorem arrivals_kind (rb : List Slot) : ∀ e ∈ arrivals rb, e.kind = 0 := by
  induction rb with
  | nil => simp
  | cons v rest ih =>
    cases v with
    | empty => simpa using ih
    | full q => simpa [Event.kind] using ih

/-- A ring whose front is a gap is not drained. -/
theorem drained_of_frontOk {rb : List Slot} (h : FrontOk rb) :
    rb.dropWhile Slot.occupied = rb ∧ rb.takeWhile Slot.occupied = [] := by
  cases rb with
  | nil => simp
  | cons v rest => cases v <;> simp_all [FrontOk, frontFull]

theorem frontOk_dropWhile (rb : List Slot) : FrontOk (rb.dropWhile Slot.occupied) := by
  induction rb with
  | nil => rfl
  | cons v rest ih => cases v <;> simp [List.dropWhile_cons, ih]; rfl

end Sys2Proof.Machine
end

