-- ==== Sys2Proof/Laws/Framing.lean ====
section
/-! SUPPORT. What one received byte can do (spec/43_framing_fsm.md R143 to R162): the word reader by cases, the frame of every
handler, and that no byte is ever refused (spec/60_exceptions.md R230). -/

namespace Sys2Proof.Machine

/-- A write to `tok` touches `tok` only. -/
theorem writeByte_tok (s : State) (a : Nat) (b : Byte) : s.writeByte .tok a b = { s with tok := s.tok.set a b } := rfl

theorem writeByte_rxbuf (s : State) (a : Nat) (b : Byte) :
    s.writeByte .rxbuf a b = { s with rxbuf := pktSetByte s.rxbuf a b } := rfl

theorem writeByte_name (s : State) (a : Nat) (b : Byte) :
    s.writeByte .name a b = { s with name := s.name.set a b } := rfl

/-- A byte stored in the word (R152 to R154). -/
theorem storeByte_eq (b : Byte) (s : State) :
    storeByte b s = { s with tok := s.tok.set s.wLen b, wLen := s.wLen + 1, wPhase := .copy } := rfl

/-- A counter below its last value does not wrap (R22, R25). -/
theorem toNat_succ {w : Nat} (c : BitVec w) (h : c.toNat + 1 < 2 ^ w) : (c + BitVec.ofNat w 1).toNat = c.toNat + 1 := by
  have : 1 < 2 ^ w := by omega
  simp [BitVec.toNat_add, BitVec.toNat_ofNat, Nat.mod_eq_of_lt this, Nat.mod_eq_of_lt h]

/-- A run of writes to `name` puts the bytes at consecutive offsets and touches nothing else. -/
theorem memWrite_name (s : State) (bs : List Byte) :
    ∀ a, ∃ n, s.memWrite .name a bs = { s with name := n } ∧ n.length = s.name.length ∧
      ∀ k, n[k]? = if a ≤ k ∧ k < a + bs.length ∧ k < s.name.length then bs[k - a]? else s.name[k]? := by
  induction bs generalizing s with
  | nil => intro a; exact ⟨s.name, rfl, rfl, fun k => by rw [if_neg (by simp; omega)]⟩
  | cons b bs ih =>
    intro a
    obtain ⟨n, hn, hlen, hget⟩ := ih (s.writeByte .name a b) (a + 1)
    refine ⟨n, hn, by simpa [writeByte_name] using hlen, fun k => ?_⟩
    rw [hget k]
    simp only [writeByte_name, List.length_set, List.length_cons]
    by_cases h1 : a + 1 ≤ k ∧ k < a + 1 + bs.length ∧ k < s.name.length
    · rw [if_pos h1, if_pos (by omega)]
      obtain ⟨j, rfl⟩ : ∃ j, k = a + 1 + j := ⟨k - (a + 1), by omega⟩
      simp [show a + 1 + j - (a + 1) = j by omega, show a + 1 + j - a = j + 1 by omega]
    · rw [if_neg h1, List.getElem?_set]
      by_cases h2 : a = k
      · subst h2
        by_cases h3 : a < s.name.length
        · simp [h3]
        · rw [if_pos rfl, if_neg h3, if_neg (by omega)]
          exact (List.getElem?_eq_none (by omega)).symm
      · rw [if_neg h2, if_neg (by omega)]

/-- The word reader, by cases (R150 to R156). -/
theorem wordStep_cases (cap store : Nat) (b : Byte) (s : State) :
    (s.wPhase = .skip ∧ isDelim b = true ∧ wordStep cap store b s = (.more, s)) ∨
    (s.wPhase = .copy ∧ isDelim b = true ∧
      wordStep cap store b s = (.done, { s with tok := s.tok.set s.wLen termByte })) ∨
    (s.wPhase ≠ .esc ∧ b = escByte ∧ wordStep cap store b s = (.more, { s with wPhase := .esc })) ∨
    ((s.wPhase = .esc ∨ (isDelim b = false ∧ b ≠ escByte)) ∧ s.wLen = store ∧
      wordStep cap store b s = (.overflow, s)) ∨
    (s.wPhase = .esc ∧ s.wLen ≠ store ∧ wordStep cap store b s = (.more, storeByte b s)) ∨
    (s.wPhase ≠ .esc ∧ isDelim b = false ∧ b ≠ escByte ∧ s.wLen ≠ store ∧ (s.wCnt + 1#7).toNat ≠ cap ∧
      wordStep cap store b s = (.more, { storeByte b s with wCnt := s.wCnt + 1#7 })) ∨
    (s.wPhase ≠ .esc ∧ isDelim b = false ∧ b ≠ escByte ∧ s.wLen ≠ store ∧ (s.wCnt + 1#7).toNat = cap ∧
      wordStep cap store b s =
        (.done, { storeByte b s with wCnt := s.wCnt + 1#7,
                                     tok := (s.tok.set s.wLen b).set (s.wLen + 1) termByte })) := by
  have hesc : isDelim escByte = false := by decide
  have other : isDelim b = false → s.wPhase ≠ .esc → wordStep cap store b s = wordStep.wordOther cap store b s := by
    intro hb hp
    cases hph : s.wPhase <;> simp_all [wordStep]
  cases hb : isDelim b
  · by_cases hp : s.wPhase = .esc
    · by_cases hl : s.wLen = store
      · exact .inr (.inr (.inr (.inl ⟨.inl hp, hl, by simp [wordStep, hp, hl]⟩)))
      · exact .inr (.inr (.inr (.inr (.inl ⟨hp, hl, by simp [wordStep, hp, hl]⟩))))
    · rw [other hb hp]
      by_cases he : b = escByte
      · exact .inr (.inr (.inl ⟨hp, he, by simp [wordStep.wordOther, he]⟩))
      · by_cases hl : s.wLen = store
        · exact .inr (.inr (.inr (.inl ⟨.inr ⟨rfl, he⟩, hl, by simp [wordStep.wordOther, he, hl]⟩)))
        · by_cases hc : (s.wCnt + 1#7).toNat = cap
          · refine .inr (.inr (.inr (.inr (.inr (.inr ⟨hp, rfl, he, hl, hc, ?_⟩)))))
            simp [wordStep.wordOther, he, hl, hc, storeByte_eq, wordFinish, writeByte_tok, -BitVec.toNat_add]
          · refine .inr (.inr (.inr (.inr (.inr (.inl ⟨hp, rfl, he, hl, hc, ?_⟩)))))
            simp [wordStep.wordOther, he, hl, hc, storeByte_eq, -BitVec.toNat_add]
  · have he : b ≠ escByte := by rintro rfl; simp [hesc] at hb
    cases hp : s.wPhase
    · exact .inl ⟨rfl, rfl, by simp [wordStep, hp, hb]⟩
    · exact .inr (.inl ⟨rfl, rfl, by simp [wordStep, hp, hb, wordFinish, writeByte_tok]⟩)
    · by_cases hl : s.wLen = store
      · exact .inr (.inr (.inr (.inl ⟨.inl rfl, hl, by simp [wordStep, hp, hl]⟩)))
      · exact .inr (.inr (.inr (.inr (.inl ⟨rfl, hl, by simp [wordStep, hp, hl]⟩))))

/-- The word reader touches its own registers and `tok`. -/
theorem wordStep_frame (cap store : Nat) (b : Byte) (s : State) :
    (wordStep cap store b s).2 =
      { s with wPhase := (wordStep cap store b s).2.wPhase, wCnt := (wordStep cap store b s).2.wCnt,
               wLen := (wordStep cap store b s).2.wLen, tok := (wordStep cap store b s).2.tok } := by
  rcases wordStep_cases cap store b s with ⟨-, -, h⟩ | ⟨-, -, h⟩ | ⟨-, -, h⟩ | ⟨-, -, h⟩ | ⟨-, -, h⟩ |
    ⟨-, -, -, -, -, h⟩ | ⟨-, -, -, -, -, h⟩ <;> rw [h] <;> rfl

/-- The packet of a finished frame: the 33 bytes with the marker re-prepended (R146). -/
def marked (s : State) : State := { s with rxbuf := pktMark s.rxbuf }

/-- The body byte is stored and counted (R145). -/
def bodyStored (b : Byte) (s : State) : State :=
  { s with rxbuf := pktSetByte s.rxbuf (2 + s.rxCnt.toNat) b, rxCnt := s.rxCnt + 1#5 }

/-- `S_PKT_FIN` in closed form (R146). -/
theorem pktFin_eq (s : State) :
    pktFin s =
      if pktValid s.cfg (pktMark s.rxbuf) then (reorderAccept (pktMark s.rxbuf) (marked s)).map State.toScan
      else .ok ((marked s).discard .badCrc) := by
  change (if pktValid s.cfg (pktMark s.rxbuf) then (do return (← reorderAccept (pktMark s.rxbuf) (marked s)).toScan)
    else .ok ((marked s).discard .badCrc)) = _
  split
  · cases reorderAccept (pktMark s.rxbuf) (marked s) <;> rfl
  · rfl

/-- `S_PKT` in closed form (R145). -/
theorem onPkt_eq (b : Byte) (s : State) :
    onPkt b s = if (s.rxCnt + 1#5).toNat = pktBody then pktFin (bodyStored b s) else .ok (bodyStored b s) := rfl

theorem pktFin_ok (s : State) : ∃ t, pktFin s = .ok t := by
  rw [pktFin_eq]
  split
  · obtain ⟨t, ht⟩ := reorderAccept_ok (pktMark s.rxbuf) (marked s)
    exact ⟨t.toScan, by rw [ht]; rfl⟩
  · exact ⟨_, rfl⟩

/-- No byte is refused, whatever the state (R142, R230). -/
theorem rxByte_ok (b : Byte) (s : State) : ∃ t, rxByte b s = .ok t := by
  unfold rxByte
  split
  · exact ⟨_, rfl⟩
  · exact ⟨_, rfl⟩
  · rw [onPkt_eq]
    split
    · exact pktFin_ok _
    · exact ⟨_, rfl⟩
  · exact ⟨_, rfl⟩
  · exact ⟨_, rfl⟩
  · exact ⟨_, rfl⟩

/-- No byte sequence is refused (R230). -/
theorem rxBytes_ok (bs : List Byte) : ∀ s, ∃ t, rxBytes bs s = .ok t := by
  induction bs with
  | nil => intro s; exact ⟨s, rfl⟩
  | cons b bs ih =>
    intro s
    obtain ⟨t, ht⟩ := rxByte_ok b s
    obtain ⟨u, hu⟩ := ih t
    exact ⟨u, by rw [rxBytes, ht]; exact hu⟩

theorem rxBytes_cons {b : Byte} {bs : List Byte} {s t : State} (h : rxByte b s = .ok t) :
    rxBytes (b :: bs) s = rxBytes bs t := by
  rw [rxBytes, h]; rfl

/-- Chunking is invisible (R164). -/
theorem rxBytes_append (as bs : List Byte) : ∀ s t, rxBytes as s = .ok t → rxBytes (as ++ bs) s = rxBytes bs t := by
  induction as with
  | nil => intro s t h; cases h; rfl
  | cons a as ih =>
    intro s t h
    obtain ⟨u, hu⟩ := rxByte_ok a s
    rw [rxBytes_cons hu] at h
    rw [List.cons_append, rxBytes_cons hu]
    exact ih u t h

/-- What a received byte leaves alone: the transmit side, the window, the parameters, the inputs, the result port
(R59 item 4, R233). -/
theorem rxByte_frame {b : Byte} {s t : State} (h : rxByte b s = .ok t) :
    t.txSide = s.txSide ∧ t.win = s.win ∧ t.outside = s.outside ∧ t.results = s.results := by
  have word : ∀ cap store, (wordStep cap store b s).2.txSide = s.txSide ∧ (wordStep cap store b s).2.win = s.win ∧
      (wordStep cap store b s).2.outside = s.outside ∧ (wordStep cap store b s).2.results = s.results := by
    intro cap store
    rw [wordStep_frame]
    exact ⟨rfl, rfl, rfl, rfl⟩
  unfold rxByte at h
  split at h
  · cases h
    unfold onScan
    split <;> exact ⟨rfl, rfl, rfl, rfl⟩
  · cases h
    unfold onType
    split
    · exact ⟨rfl, rfl, rfl, rfl⟩
    · split
      · exact ⟨rfl, rfl, rfl, rfl⟩
      · split <;> exact ⟨rfl, rfl, rfl, rfl⟩
  · rw [onPkt_eq] at h
    split at h
    · rw [pktFin_eq] at h
      split at h
      · obtain ⟨u, hu⟩ := reorderAccept_ok (pktMark (bodyStored b s).rxbuf) (marked (bodyStored b s))
        rw [hu] at h
        cases h
        rw [reorderAccept_frame hu]
        exact ⟨rfl, rfl, rfl, rfl⟩
      · cases h
        exact ⟨rfl, rfl, rfl, rfl⟩
    · cases h
      exact ⟨rfl, rfl, rfl, rfl⟩
  · cases h
    have hw := word capCmd s.cfg.store16
    unfold onCmd
    split <;> rename_i u hu <;> rw [hu] at hw
    · exact hw
    · unfold cmdFin
      split <;> exact hw
    · exact hw
  · cases h
    have hw := word capName s.cfg.store16
    unfold onName
    split <;> rename_i u hu <;> rw [hu] at hw
    · exact hw
    · unfold nameDone
      obtain ⟨n, hn, -, -⟩ := memWrite_name u (u.tok.take (u.wLen + 1)) 0
      rw [hn]
      exact hw
    · exact hw
  · cases h
    have hw := word capValue s.cfg.store64
    unfold onValue
    split <;> rename_i u hu <;> rw [hu] at hw
    · exact hw
    · unfold cfgFin
      split
      · exact hw
      · dsimp only
        split <;> exact hw
    · exact hw

/-- What a chunk leaves alone (R59 item 4, R233). -/
theorem rxBytes_frame {bs : List Byte} : ∀ {s t : State}, rxBytes bs s = .ok t →
    t.txSide = s.txSide ∧ t.win = s.win ∧ t.outside = s.outside ∧ t.results = s.results := by
  induction bs with
  | nil => intro s t h; cases h; exact ⟨rfl, rfl, rfl, rfl⟩
  | cons b bs ih =>
    intro s t h
    obtain ⟨u, hu⟩ := rxByte_ok b s
    rw [rxBytes_cons hu] at h
    have h1 := rxByte_frame hu
    have h2 := ih h
    exact ⟨h2.1.trans h1.1, h2.2.1.trans h1.2.1, h2.2.2.1.trans h1.2.2.1, h2.2.2.2.trans h1.2.2.2⟩

/-- The last body byte of a packet frame: the packet goes to the reorder algorithm or is dropped (R145, R146). -/
theorem rxByte_lastBody {b : Byte} {s : State} (h : LastBodyByte s) : rxByte b s =
    if pktValid s.cfg (assembled s b) then
      (reorderAccept (assembled s b) { s.received b with st := .sPkt }).map State.toScan
    else .ok { s.received b with drops := s.drops ++ [.badCrc] } := by
  obtain ⟨h1, h2⟩ := h
  have : rxByte b s = onPkt b s := by simp only [rxByte, h1]
  rw [this, onPkt_eq, if_pos (by rw [h2]; rfl), pktFin_eq]
  have e : marked (bodyStored b s) = { s.received b with st := .sPkt } := by
    simp [marked, bodyStored, State.received, assembled, h1, h2]
  have e2 : pktMark (bodyStored b s).rxbuf = assembled s b := rfl
  rw [e, e2]
  rfl

/-- The two marker bytes of a frame met while scanning (R143, R144). -/
theorem rxBytes_frameStart {s : State} (h : s.st = .sScan) (t : Byte) (body : List Byte) :
    rxBytes (markByte :: t :: body) s = rxBytes body (onType t { s with st := .sType }) := by
  have a : rxByte markByte s = .ok { s with st := .sType } := by simp only [rxByte, h, onScan, if_true]
  have b : rxByte t { s with st := .sType } = .ok (onType t { s with st := .sType }) := by simp only [rxByte]
  rw [rxBytes_cons a, rxBytes_cons b]

/-! The hexadecimal decoder, byte by byte (R162). -/

variable {upper : Bool} {todo k n : Nat} {tok : List Byte}

theorem hexLoop_space {hi : Option (BitVec 4)} (h : tok.getD k 0#8 = spaceByte) :
    hexLoop upper (todo + 1) k tok n hi = hexLoop upper todo (k + 1) tok n hi := by
  simp only [hexLoop, h, if_true]

theorem hexLoop_bad {hi : Option (BitVec 4)} (h : tok.getD k 0#8 ≠ spaceByte)
    (hv : hexVal upper (tok.getD k 0#8) = none) : hexLoop upper (todo + 1) k tok n hi = (tok, 0) := by
  simp only [hexLoop, h, if_false, hv]

theorem hexLoop_high {v : BitVec 4} (h : tok.getD k 0#8 ≠ spaceByte) (hv : hexVal upper (tok.getD k 0#8) = some v) :
    hexLoop upper (todo + 1) k tok n none = hexLoop upper todo (k + 1) tok n (some v) := by
  simp only [hexLoop, h, if_false, hv]

theorem hexLoop_low {v high : BitVec 4} (h : tok.getD k 0#8 ≠ spaceByte)
    (hv : hexVal upper (tok.getD k 0#8) = some v) :
    hexLoop upper (todo + 1) k tok n (some high) =
      hexLoop upper todo (k + 1) (tok.set n (high ++ v)) (n + 1) none := by
  simp only [hexLoop, h, if_false, hv]

end Sys2Proof.Machine
end

