-- ==== Sys2Proof/Laws/Ops.lean ====
section
/-! SUPPORT. The internal stores: a read after a write of a byte and of a history slot (spec/20_memory.md R56), and the lengths
that writes keep. -/

namespace Sys2Proof.Machine

/-- A history slot read after a slot is written. -/
@[simp] theorem histAt_setHist (s : State) (i j : SlotIndex) (p : Packet) :
    (s.setHist i p).histAt j = if i = j then p else s.histAt j := by
  simp only [State.histAt, setHist_hist, Vector.getElem_set, BitVec.toNat_inj]

/-- States whose history slots agree have the same history. -/
theorem hist_ext {h g : Vector Packet 64} (hg : ∀ i : SlotIndex, h[i.toNat]'(by omega) = g[i.toNat]'(by omega)) :
    h = g := by
  apply Vector.ext
  intro k hk
  have := hg (BitVec.ofNat 6 k)
  simpa [Nat.mod_eq_of_lt hk] using this

theorem ofNat_slot_inj {a b : Nat} (ha : a < 64 * 33) (hb : b < 64 * 33) :
    BitVec.ofNat 6 (a / 33) = BitVec.ofNat 6 (b / 33) ↔ a / 33 = b / 33 := by
  constructor
  · intro h
    have := congrArg BitVec.toNat h
    simp only [BitVec.toNat_ofNat] at this
    omega
  · intro h; rw [h]

theorem getElem?_set_eq_ite (l : List Byte) (a k : Nat) (b : Byte) :
    (l.set a b)[k]? = if a = k ∧ l[a]?.isSome then some b else l[k]? := by
  rw [List.getElem?_set]
  by_cases h : a = k
  · subst h
    by_cases hl : a < l.length <;> simp [hl]
  · simp [h]

/-- A byte of the internal stores read after a write (R11, R56): the byte written where the store has that byte,
every other byte of every store as before. -/
theorem readByte_writeByte (s : State) (sp sp' : Space) (a a' : Nat) (b : Byte) :
    (s.writeByte sp a b).readByte sp' a' =
      if sp = sp' ∧ a = a' ∧ (s.readByte sp a).isSome then some b else s.readByte sp' a' := by
  cases sp
  case rxbuf =>
    cases sp' <;> try (simp [State.writeByte, State.readByte, State.histAt]; done)
    simp only [State.writeByte, State.readByte, pktByte_pktSetByte, true_and]
    grind
  case tok =>
    cases sp' <;> try (simp [State.writeByte, State.readByte, State.histAt]; done)
    simp only [State.writeByte, State.readByte, getElem?_set_eq_ite, true_and]
  case name =>
    cases sp' <;> try (simp [State.writeByte, State.readByte, State.histAt]; done)
    simp only [State.writeByte, State.readByte, getElem?_set_eq_ite, true_and]
  case rb =>
    cases sp' <;> try (simp [State.writeByte, State.readByte, State.histAt]; done)
    simp only [State.writeByte, State.readByte, true_and, List.getElem?_modify]
    by_cases hq : a / 33 = a' / 33
    · rw [hq]
      cases s.rb[a' / 33]? with
      | none => simp
      | some v =>
        cases v with
        | empty => simp [Slot.setByte]
        | full p =>
          have h1 : a % 33 = a' % 33 ↔ a = a' := by omega
          have h2 := Nat.mod_lt a' (show 33 > 0 by omega)
          by_cases h : a = a'
          · subst h; simp [Slot.setByte, h2]
          · simp [Slot.setByte, h1, h]
    · have : a ≠ a' := by rintro rfl; exact hq rfl
      cases h : s.rb[a' / 33]? <;> simp [hq, this]
  case hist =>
    by_cases ha : a < 64 * 33
    · cases sp' <;> try (simp [State.writeByte, State.readByte, State.histAt, ha]; done)
      simp only [State.writeByte, State.readByte, ha, if_true, histAt_setHist, true_and]
      by_cases ha' : a' < 64 * 33
      · simp only [ha', if_true, ofNat_slot_inj ha ha']
        by_cases hq : a / 33 = a' / 33
        · have h1 : a % 33 = a' % 33 ↔ a = a' := by omega
          have h2 := Nat.mod_lt a' (show 33 > 0 by omega)
          simp only [hq, if_true, pktByte_pktSetByte, h1, h2, and_true, Option.isSome_some]
          split <;> rfl
        · have : a ≠ a' := by rintro rfl; exact hq rfl
          simp [hq, this]
      · have : a ≠ a' := by omega
        simp [ha', this]
    · simp [State.writeByte, State.readByte, ha]

@[simp] theorem cur_setHist (s : State) (i : SlotIndex) (p : Packet) : (s.setHist i p).cur = s.cur := rfl

theorem setHist_setHist (s : State) (i : SlotIndex) (p q : Packet) : (s.setHist i p).setHist i q = s.setHist i q := by
  simp [State.setHist]

/-- A byte of the history read after a slot is written. -/
theorem readByte_setHist (s : State) (i : SlotIndex) (p : Packet) (a : Nat) :
    (s.setHist i p).readByte .hist a =
      if a < 64 * 33 ∧ a / 33 = i.toNat then some (pktByte p (a % 33)) else s.readByte .hist a := by
  simp only [State.readByte, histAt_setHist]
  by_cases h : a < 64 * 33
  · have : i = BitVec.ofNat 6 (a / 33) ↔ a / 33 = i.toNat := by
      rw [← BitVec.toNat_inj, BitVec.toNat_ofNat]; omega
    simp only [h, this, if_true, true_and]
    split <;> rfl
  · simp [h]

/-- A byte of another store read after a history slot is written. -/
theorem readByte_setHist_of_ne (s : State) (i : SlotIndex) (p : Packet) {sp : Space} (h : sp ≠ .hist) (a : Nat) :
    (s.setHist i p).readByte sp a = s.readByte sp a := by
  cases sp <;> first | rfl | exact absurd rfl h

end Sys2Proof.Machine
end

