-- ==== Sys2Proof/Laws/PerInstr.lean ====
section
/-! SUPPORT. What holds of every instruction as syntax, one lemma per constructor: its encoding lies in the space of its row
(spec/30_encoding.md R71, R82). -/

namespace Sys2Proof.Laws.EncodesInSpace

/-- The operation code of a command word (R82); `none` for what is no command word. -/
def opCode (i : Instr) : Option Nat :=
  match i with
  | .reset => some 0
  | .rxb _ => some 1
  | .beginOp => some 2
  | .paywr _ _ => some 3
  | .smpwr _ _ => some 4
  | .setord _ => some 5
  | .setwin _ => some 6
  | .crcupd _ _ => some 7
  | .reservedOp low => some (8 + low.toNat / 2 ^ 28)
  | .frameR _ => none
  | .frameC _ => none
  | .frameD _ => none
  | .frameOther _ => none
  | .feed _ => none
  | .crcCompute _ => none
  | .sample _ => none
  | .feedpkt _ => none

/-- The type byte of a frame (R71); `none` for what is no frame. -/
def frameType (i : Instr) : Option Byte :=
  match i with
  | .reset => none
  | .rxb _ => none
  | .beginOp => none
  | .paywr _ _ => none
  | .smpwr _ _ => none
  | .setord _ => none
  | .setwin _ => none
  | .crcupd _ _ => none
  | .reservedOp _ => none
  | .frameR _ => some typeR
  | .frameC _ => some typeC
  | .frameD _ => some typeD
  | .frameOther t => some t
  | .feed _ => none
  | .crcCompute _ => none
  | .sample _ => none
  | .feedpkt _ => none

/-- A command word has its operation code in bits 31 to 28; a frame starts with the marker and its type byte; a
pseudo-operation has no encoding of its own (R89). -/
def Statement (i : Instr) : Prop :=
  match encode i with
  | some (.cmd w) => opCode i = some (w.toNat / 2 ^ 28)
  | some (.wire bytes) => ∃ t body, frameType i = some t ∧ bytes = markByte :: t :: body
  | some .resetPin => False
  | some (.early _) => False
  | none => opCode i = none ∧ frameType i = none

theorem reset : Statement .reset := rfl
theorem rxb (b : Byte) : Statement (.rxb b) := by
  have := b.isLt
  simp only [Statement, encode, opCode, word_rxb, Option.some.injEq]; omega
theorem beginOp : Statement .beginOp := rfl
theorem paywr (off b : Byte) : Statement (.paywr off b) := by
  have := b.isLt
  have := off.isLt
  simp only [Statement, encode, opCode, word_paywr, Option.some.injEq]; omega
theorem smpwr (ch : BitVec 4) (raw : U24) : Statement (.smpwr ch raw) := by
  have := ch.isLt
  have := raw.isLt
  simp only [Statement, encode, opCode, word_smpwr, Option.some.injEq]; omega
theorem setord (mode : BitVec 2) : Statement (.setord mode) := by
  have := mode.isLt
  simp only [Statement, encode, opCode, word_setord, Option.some.injEq]; omega
theorem setwin (size : U16) : Statement (.setwin size) := by
  have := size.isLt
  simp only [Statement, encode, opCode, word_setwin, Option.some.injEq]; omega
theorem crcupd (crc : U16) (b : Byte) : Statement (.crcupd crc b) := by
  have := crc.isLt
  have := b.isLt
  simp only [Statement, encode, opCode, word_crcupd, Option.some.injEq]; omega
theorem reservedOp (low : BitVec 31) : Statement (.reservedOp low) := by
  have := low.isLt
  simp only [Statement, encode, opCode, word_reserved, Option.some.injEq]; omega
theorem frameR (body : List Byte) : Statement (.frameR body) := ⟨typeR, body, rfl, rfl⟩
theorem frameC (body : List Byte) : Statement (.frameC body) := ⟨typeC, body, rfl, rfl⟩
theorem frameD (body : List Byte) : Statement (.frameD body) := ⟨typeD, body, rfl, rfl⟩
theorem frameOther (type : Byte) : Statement (.frameOther type) := ⟨type, [], rfl, rfl⟩
theorem feed (bytes : List Byte) : Statement (.feed bytes) := ⟨rfl, rfl⟩
theorem crcCompute (bytes : List Byte) : Statement (.crcCompute bytes) := ⟨rfl, rfl⟩
theorem sample (raws : Vector U24 9) : Statement (.sample raws) := ⟨rfl, rfl⟩
theorem feedpkt (p : Packet) : Statement (.feedpkt p) := ⟨rfl, rfl⟩

end Sys2Proof.Laws.EncodesInSpace
end

