-- ==== Sys2Proof/Laws/Transmit.lean ====
section
/-! SUPPORT. What `BEGIN`, `PAYWR` and `SMPWR` leave, slot by slot (spec/45_transmit.md R201 to R208, spec/41_packet_codec.md
R120, R121). -/

namespace Sys2Proof.Machine

/-- Advancing a sequence number by one changes its slot (R212). -/
theorem slotOf_succ_ne (q : U16) : slotOf q ≠ slotOf (q + 1#16) := by
  intro h
  have := congrArg BitVec.toNat h
  simp only [slotOf, BitVec.toNat_setWidth, BitVec.toNat_add, BitVec.toNat_ofNat] at this
  omega

/-- The look-behind slot is the slot of 32 numbers earlier (R203). -/
theorem lookBehind_eq (q : U16) : slotOf q ^^^ lookBehind = slotOf (q - 32#16) := by
  have key : ∀ i : SlotIndex, i ^^^ lookBehind = i - 32#6 := by decide
  rw [key]
  apply BitVec.eq_of_toNat_eq
  simp only [slotOf, BitVec.toNat_sub, BitVec.toNat_setWidth, BitVec.toNat_ofNat]
  omega

theorem histAt_finalizeCur (s : State) (k : SlotIndex) : (finalizeCur s).histAt k = finalSlot s k := by
  rw [finalizeCur, histAt_setHist, finalSlot]
  by_cases h : s.cur = k
  · subst h; simp
  · rw [if_neg h, if_neg (fun h' => h h'.symm)]

/-- `s` with further records on the event port. -/
def State.emits (s : State) (es : List Event) : State := { s with events := s.events ++ es }

theorem emitByMode_eq (j : SlotIndex) (s t : State) (ht : t.mode = s.mode) (hc : t.cfg = s.cfg)
    (hh : ∀ k, t.histAt k = finalSlot s k) : emitByMode j t = t.emits (readyRecords s j) := by
  have hk : ∀ (e : Event) k, (t.emit e).histAt k = finalSlot s k := fun _ k => hh k
  rw [emitByMode, readyRecords, ht, hc]
  cases s.mode with
  | mode0 => simp only [emitReady, hh]; rfl
  | mode1 => simp only [emitReady, hh]; rfl
  | mode2 =>
    simp only [emitReady, hh, hk]
    simp [State.emit, State.emits]

/-- `BEGIN` in closed form (R201). -/
theorem beginSample_eq (s : State) :
    beginSample s =
      { s with
        seqTx := s.seqTx + 1#16,
        hist := (finalizeCur s).hist.set (slotOf (s.seqTx + 1#16)).toNat (pktEmpty (s.seqTx + 1#16)) (by omega),
        events := s.events ++ readyRecords s (slotOf (s.seqTx + 1#16) ^^^ lookBehind),
        results := s.results ++ [(slotOf (s.seqTx + 1#16)).setWidth 32] } := by
  have := emitByMode_eq (slotOf (s.seqTx + 1#16) ^^^ lookBehind) s
    { finalizeCur s with seqTx := s.seqTx + 1#16 } rfl rfl (fun k => histAt_finalizeCur s k)
  change ((emitByMode (slotOf (s.seqTx + 1#16) ^^^ lookBehind)
    { finalizeCur s with seqTx := s.seqTx + 1#16 }).setHist (slotOf (s.seqTx + 1#16))
      (pktEmpty (emitByMode (slotOf (s.seqTx + 1#16) ^^^ lookBehind)
        { finalizeCur s with seqTx := s.seqTx + 1#16 }).seqTx)).putResult
      ((slotOf (s.seqTx + 1#16)).setWidth 32) = _
  rw [this]
  rfl

/-- The history slots after `BEGIN` (R202, R208). -/
theorem histAt_beginSample (s : State) (k : SlotIndex) :
    (beginSample s).histAt k =
      if k = slotOf (s.seqTx + 1#16) then pktEmpty (s.seqTx + 1#16) else finalSlot s k := by
  rw [beginSample_eq, ← histAt_finalizeCur]
  simp only [State.histAt, Vector.getElem_set, BitVec.toNat_inj]
  by_cases h : slotOf (s.seqTx + 1#16) = k
  · rw [if_pos h, if_pos h.symm]
  · rw [if_neg h, if_neg (fun h' => h h'.symm)]

/-- A payload write of one byte, as a slot write (R120). -/
theorem writeByte_payload (s : State) {off : Nat} (b : Byte) (h : off ≤ 26) :
    s.writeByte .hist (payloadAddr s off) b = s.setHist s.cur (pktSetByte (s.histAt s.cur) (4 + off) b) := by
  have hc := s.cur.isLt
  have h1 : payloadAddr s off / 33 = s.cur.toNat := by unfold payloadAddr; omega
  have h2 : payloadAddr s off % 33 = 4 + off := by unfold payloadAddr; omega
  have h3 : payloadAddr s off < 64 * 33 := by unfold payloadAddr; omega
  simp [State.writeByte, h1, h2, h3]

/-- A chain of sample writes touches the current slot only. -/
theorem putSamples_frame (rs : List U24) : ∀ ch s, ∃ p, putSamples ch rs s = s.setHist s.cur p := by
  induction rs with
  | nil =>
    intro ch s
    refine ⟨s.histAt s.cur, ?_⟩
    simp [putSamples, State.setHist, State.histAt]
  | cons r rs ih =>
    intro ch s
    obtain ⟨p, hp⟩ := ih (ch + 1) (putSample ch r s)
    refine ⟨p, ?_⟩
    rw [putSamples, hp]
    simp [putSample, State.setHist, State.cur]

/-- A byte of the current slot, by its payload offset (R120). -/
theorem readByte_payload (s : State) {off : Nat} (h : off ≤ 28) :
    s.readByte .hist (payloadAddr s off) = some (pktByte (s.histAt s.cur) (4 + off)) := by
  have hc := s.cur.isLt
  have h1 : payloadAddr s off / 33 = s.cur.toNat := by unfold payloadAddr; omega
  have h2 : payloadAddr s off % 33 = 4 + off := by unfold payloadAddr; omega
  have h3 : payloadAddr s off < 64 * 33 := by unfold payloadAddr; omega
  simp [State.readByte, h1, h2, h3]

end Sys2Proof.Machine
end

