-- ==== Sys2Proof/Tests/Slice0.lean ====
section
/-! SUPPORT. Tests: ill-formed terms that are refused, words written out from the spec's encodings, the vectors of spec/95_test_vectors.md
one step at a time, and for every obligation with hypotheses a witness that meets them. -/

namespace Sys2Proof.Tests

set_option Elab.async false

open Sys2Proof Sys2Proof.Machine

/-! Helpers. -/

/-- The next state of an outcome. -/
def nextOf (o : Host.Outcome State Fault Refusal) : Option State :=
  match o with
  | .next s => some s
  | .fault _ => none
  | .refused _ => none

/-- The refusal of an outcome. -/
def refusedWith (o : Host.Outcome State Fault Refusal) : Option Refusal :=
  match o with
  | .next _ => none
  | .fault _ => none
  | .refused r => some r

/-- A part of the next state. -/
def look {α : Type} (o : Host.Outcome State Fault Refusal) (f : State → α) : Option α := (nextOf o).map f

/-- The value of a decoding. -/
def decoded (r : Except Reject Instr) : Option Instr :=
  match r with
  | .ok i => some i
  | .error _ => none

/-- `n` zero bytes. -/
def zeros (n : Nat) : List Byte := List.replicate n 0x00#8

/-- A packet from its 33 bytes. -/
def packetOf (l : List Byte) : Packet := Vector.ofFn (fun k => l.getD k.val 0x00#8)

/-- `pkt(s)` of spec/95: an all-zero payload, with its checksum bytes as printed there. -/
def pkt (s crc : U16) : Packet := pktSetByte (pktSetByte (pktEmpty s) 31 (hiByte crc)) 32 (loByte crc)

/-- The printed packets used below. -/
def pkt1 : Packet := pkt 1 0xAC98
def pkt2 : Packet := pkt 2 0xC124
def pkt3 : Packet := pkt 3 0xE5B0
def pkt5 : Packet := pkt 5 0x3EC8
def pkt7 : Packet := pkt 7 0x77E0
def pkt8 : Packet := pkt 8 0xBC8D
def pkt100 : Packet := pkt 100 0x7C71

/-- Packet A (V-PKT-6). -/
def bytesA : List Byte :=
  [0x2F, 0x52, 0x00, 0x01, 0x00, 0x00, 0x01, 0xFF, 0xFF, 0xFF, 0x7F, 0xFF, 0xFF, 0x80, 0x00, 0x00] ++ zeros 15 ++ [0xBE, 0x59]

/-- Packet D (V-PKT-11), with markers in its body. -/
def bytesD : List Byte :=
  [0x2F, 0x52, 0x2F, 0x52, 0x2F, 0x52, 0x00, 0x2F, 0x63, 0x2F, 0x64, 0x2F, 0x2F] ++ zeros 18 ++ [0xC7, 0x14]

/-- Reset, with a window, a `last_seq` and a ring. -/
def reordering (w lastSeq : U16) (rb : List Slot) : State := { State.reset with win := w, lastSeq := lastSeq, rb := rb }

/-- The sequence numbers of the packets delivered. -/
def arrived (s : State) : List U16 := s.events.filterMap Event.arrivedSeq

/-- The sequence numbers of the ring, `none` for a gap. -/
def ringSeqs (s : State) : List (Option U16) :=
  s.rb.map fun v =>
    match v with
    | .empty => none
    | .full p => some (pktSeq p)

/-! The well-formedness check refuses an ill-formed term for each of its clauses (R84; R71 to R74). -/

theorem test_wellFormed_paywr : wellFormed Config.default (.paywr 27 0) = false := by decide
theorem test_wellFormed_smpwr : wellFormed Config.default (.smpwr 9 0) = false := by decide
theorem test_wellFormed_setord : wellFormed Config.default (.setord 3) = false := by decide
theorem test_wellFormed_setwin : wellFormed Config.default (.setwin 65) = false := by decide
theorem test_wellFormed_reservedOp : wellFormed Config.default (.reservedOp 0) = false := by decide
theorem test_wellFormed_frameR : wellFormed Config.default (.frameR (zeros 30)) = false := by decide
theorem test_wellFormed_frameC : wellFormed Config.default (.frameC [0x61, 0x20, 0x62]) = false := by decide
theorem test_wellFormed_frameD :
    wellFormed Config.default (.frameD [0x6E, 0x20, 0x31, 0x32, 0x20, 0x33]) = false := by decide
theorem test_wellFormed_frameOther : wellFormed Config.default (.frameOther 0x52) = false := by decide
theorem test_wellFormed_accepts :
    [Instr.reset, .rxb 0xFF, .beginOp, .paywr 26 0xFF, .smpwr 8 0xFFFFFF, .setord 2, .setwin 64, .crcupd 0xFFFF 0xFF,
      .frameR (zeros 31), .frameC [0x61, 0x20], .frameD [0x6E, 0x20, 0x31, 0x32, 0x20], .frameOther 0x2F,
      .feed [], .crcCompute [], .sample (Vector.replicate 9 0), .feedpkt pkt1].all (wellFormed Config.default) = true := by
  decide

/-! Decoding: the words of R82 written out field by field, `op` first. -/

theorem test_decode_reset : decoded (decodeCmd 0b0000_0000000000000000000000000000#32) = some .reset := by decide
theorem test_decode_rxb :
    decoded (decodeCmd 0b0001_00000000000000000000_10100101#32) = some (.rxb 0b10100101) := by decide
theorem test_decode_begin : decoded (decodeCmd 0b0010_0000000000000000000000000000#32) = some .beginOp := by decide
theorem test_decode_paywr :
    decoded (decodeCmd 0b0011_000000000000_00011010_10101010#32) = some (.paywr 26 0xAA) := by decide
theorem test_decode_smpwr :
    decoded (decodeCmd 0b0100_1000_100000000000000000000001#32) = some (.smpwr 8 0x800001) := by decide
theorem test_decode_setord :
    decoded (decodeCmd 0b0101_00000000000000000000000000_10#32) = some (.setord 2) := by decide
theorem test_decode_setwin :
    decoded (decodeCmd 0b0110_000000000000_0000000001000000#32) = some (.setwin 64) := by decide
theorem test_decode_crcupd :
    decoded (decodeCmd 0b0111_0000_0010011001110010_00110010#32) = some (.crcupd 0x2672 0x32) := by decide
theorem test_decode_reservedOp :
    decoded (decodeCmd 0b1111_0000000000000000000000000001#32) = some (.reservedOp 0x70000001) := by decide
/-- One must-be-zero bit of each row of R82, at its lowest place (R84). -/
theorem test_decode_mustBeZero :
    [0x00000001#32, 0x10000100#32, 0x20000001#32, 0x30010000#32, 0x50000004#32, 0x60010000#32, 0x71000000#32].all
      (fun w => (decoded (decodeCmd w)).isNone) = true := by decide
/-- The frames of the byte stream (R71), by their first two bytes. -/
theorem test_decode_frames :
    decodeWire Config.default bytesA = .frameR (bytesA.drop 2) ∧
    decodeWire Config.default [0x2F, 0x63, 0x67, 0x6F, 0x0A] = .frameC [0x67, 0x6F, 0x0A] ∧
    decodeWire Config.default [0x2F, 0x64, 0x6E, 0x20, 0x31, 0x32, 0x20] = .frameD [0x6E, 0x20, 0x31, 0x32, 0x20] ∧
    decodeWire Config.default [0x2F, 0x2F] = .frameOther 0x2F := by decide
/-- Noise, and a chunk that is more or less than one frame, is the chunk of a `FEED` (R223). -/
theorem test_decode_chunks :
    [[], [0x2F], [0xFF, 0x00, 0x52], 0x2F :: 0x52 :: zeros 30, 0x2F :: 0x52 :: zeros 32, [0x2F, 0x78, 0x2F],
      [0x2F, 0x63, 0x61, 0x20, 0x20]].all
      (fun bytes => decide (decodeWire Config.default bytes = .feed bytes)) = true := by decide

/-! The rows of spec/opcode_table.json, by their match words, as the host numbers them. -/

/-- The 32-bit rows. -/
theorem test_tableWord_cmd :
    decodeTableWord 32 0x00000000 = some .reset ∧ decodeTableWord 32 0x10000000 = some (.rxb 0) ∧
    decodeTableWord 32 0x20000000 = some .beginOp ∧ decodeTableWord 32 0x30000000 = some (.paywr 0 0) ∧
    decodeTableWord 32 0x40000000 = some (.smpwr 0 0) ∧ decodeTableWord 32 0x50000000 = some (.setord 0) ∧
    decodeTableWord 32 0x60000000 = some (.setwin 0) ∧ decodeTableWord 32 0x70000000 = some (.crcupd 0 0) ∧
    decodeTableWord 32 0x80000000 = some (.reservedOp 0) := by decide
/-- The 16-bit rows. -/
theorem test_tableWord_wire :
    decodeTableWord 16 0x2F52 = some (.frameR (zeros 31)) ∧ decodeTableWord 16 0x2F63 = some (.frameC (zeros 31)) ∧
    decodeTableWord 16 0x2F64 = some (.frameD (zeros 31)) ∧ decodeTableWord 16 0x2F00 = some (.frameOther 0) := by decide
/-- A placed table word is the one that runs (R82). -/
theorem test_withFetchWord_runs :
    step (State.reset.withFetchWord 32 0x60000004) = exec (.setwin 4) State.reset ∧
    step (State.reset.withFetchWord 16 0x2F00) = exec (.frameOther 0) State.reset := ⟨rfl, rfl⟩

/-! Checksum (spec/40_checksum.md R104; spec/95 V-CRC). -/

/-- Rows 0x00 to 0x38 of the table of R104. -/
theorem test_crcRom_a : (List.range 64).map (fun k => crcRom (BitVec.ofNat 8 (k + 0))) =
    [0x0000, 0x1021, 0x2042, 0x3063, 0x4084, 0x50A5, 0x60C6, 0x70E7] ++
    [0x8108, 0x9129, 0xA14A, 0xB16B, 0xC18C, 0xD1AD, 0xE1CE, 0xF1EF] ++
    [0x1231, 0x0210, 0x3273, 0x2252, 0x52B5, 0x4294, 0x72F7, 0x62D6] ++
    [0x9339, 0x8318, 0xB37B, 0xA35A, 0xD3BD, 0xC39C, 0xF3FF, 0xE3DE] ++
    [0x2462, 0x3443, 0x0420, 0x1401, 0x64E6, 0x74C7, 0x44A4, 0x5485] ++
    [0xA56A, 0xB54B, 0x8528, 0x9509, 0xE5EE, 0xF5CF, 0xC5AC, 0xD58D] ++
    [0x3653, 0x2672, 0x1611, 0x0630, 0x76D7, 0x66F6, 0x5695, 0x46B4] ++
    [0xB75B, 0xA77A, 0x9719, 0x8738, 0xF7DF, 0xE7FE, 0xD79D, 0xC7BC] := by decide +kernel
/-- Rows 0x40 to 0x78 of the table of R104. -/
theorem test_crcRom_b : (List.range 64).map (fun k => crcRom (BitVec.ofNat 8 (k + 64))) =
    [0x48C4, 0x58E5, 0x6886, 0x78A7, 0x0840, 0x1861, 0x2802, 0x3823] ++
    [0xC9CC, 0xD9ED, 0xE98E, 0xF9AF, 0x8948, 0x9969, 0xA90A, 0xB92B] ++
    [0x5AF5, 0x4AD4, 0x7AB7, 0x6A96, 0x1A71, 0x0A50, 0x3A33, 0x2A12] ++
    [0xDBFD, 0xCBDC, 0xFBBF, 0xEB9E, 0x9B79, 0x8B58, 0xBB3B, 0xAB1A] ++
    [0x6CA6, 0x7C87, 0x4CE4, 0x5CC5, 0x2C22, 0x3C03, 0x0C60, 0x1C41] ++
    [0xEDAE, 0xFD8F, 0xCDEC, 0xDDCD, 0xAD2A, 0xBD0B, 0x8D68, 0x9D49] ++
    [0x7E97, 0x6EB6, 0x5ED5, 0x4EF4, 0x3E13, 0x2E32, 0x1E51, 0x0E70] ++
    [0xFF9F, 0xEFBE, 0xDFDD, 0xCFFC, 0xBF1B, 0xAF3A, 0x9F59, 0x8F78] := by decide +kernel
/-- Rows 0x80 to 0xB8 of the table of R104. -/
theorem test_crcRom_c : (List.range 64).map (fun k => crcRom (BitVec.ofNat 8 (k + 128))) =
    [0x9188, 0x81A9, 0xB1CA, 0xA1EB, 0xD10C, 0xC12D, 0xF14E, 0xE16F] ++
    [0x1080, 0x00A1, 0x30C2, 0x20E3, 0x5004, 0x4025, 0x7046, 0x6067] ++
    [0x83B9, 0x9398, 0xA3FB, 0xB3DA, 0xC33D, 0xD31C, 0xE37F, 0xF35E] ++
    [0x02B1, 0x1290, 0x22F3, 0x32D2, 0x4235, 0x5214, 0x6277, 0x7256] ++
    [0xB5EA, 0xA5CB, 0x95A8, 0x8589, 0xF56E, 0xE54F, 0xD52C, 0xC50D] ++
    [0x34E2, 0x24C3, 0x14A0, 0x0481, 0x7466, 0x6447, 0x5424, 0x4405] ++
    [0xA7DB, 0xB7FA, 0x8799, 0x97B8, 0xE75F, 0xF77E, 0xC71D, 0xD73C] ++
    [0x26D3, 0x36F2, 0x0691, 0x16B0, 0x6657, 0x7676, 0x4615, 0x5634] := by decide +kernel
/-- Rows 0xC0 to 0xF8 of the table of R104. -/
theorem test_crcRom_d : (List.range 64).map (fun k => crcRom (BitVec.ofNat 8 (k + 192))) =
    [0xD94C, 0xC96D, 0xF90E, 0xE92F, 0x99C8, 0x89E9, 0xB98A, 0xA9AB] ++
    [0x5844, 0x4865, 0x7806, 0x6827, 0x18C0, 0x08E1, 0x3882, 0x28A3] ++
    [0xCB7D, 0xDB5C, 0xEB3F, 0xFB1E, 0x8BF9, 0x9BD8, 0xABBB, 0xBB9A] ++
    [0x4A75, 0x5A54, 0x6A37, 0x7A16, 0x0AF1, 0x1AD0, 0x2AB3, 0x3A92] ++
    [0xFD2E, 0xED0F, 0xDD6C, 0xCD4D, 0xBDAA, 0xAD8B, 0x9DE8, 0x8DC9] ++
    [0x7C26, 0x6C07, 0x5C64, 0x4C45, 0x3CA2, 0x2C83, 0x1CE0, 0x0CC1] ++
    [0xEF1F, 0xFF3E, 0xCF5D, 0xDF7C, 0xAF9B, 0xBFBA, 0x8FD9, 0x9FF8] ++
    [0x6E17, 0x7E36, 0x4E55, 0x5E74, 0x2E93, 0x3EB2, 0x0ED1, 0x1EF0] := by decide +kernel

/-- V-CRC-21: the running value of step 2 of P1. -/
theorem test_crcupd :
    look (step (State.reset.present (.cmd 0x70267232))) State.results = some [0x000020B5] := by decide +kernel
/-- V-CRC-9: index 0, the shifted value alone; V-CRC-7. -/
theorem test_crcupd_corners :
    look (exec (.crcupd 0xABCD 0xAB) State.reset) State.results = some [0x0000CD00] ∧
    look (exec (.crcupd 0x1234 0xFF) State.reset) State.results = some [0x00001883] := by decide +kernel
/-- V-CRC-18, the running values of "123456789". -/
theorem test_crcCompute :
    look (exec (.crcCompute [0x31, 0x32, 0x33, 0x34, 0x35, 0x36, 0x37, 0x38, 0x39]) State.reset) State.results =
      some [0x2672, 0x20B5, 0x9752, 0xD789, 0x546C, 0x20E4, 0x86D6, 0x9015, 0x31C3] := by decide +kernel
/-- V-CRC-19, the residue. -/
theorem test_crcCompute_residue :
    crcCompute Config.default [0x31, 0x32, 0x33, 0x34, 0x35, 0x36, 0x37, 0x38, 0x39, 0x31, 0xC3] = 0x0000 := by
  decide +kernel

/-! The packet codec (spec/95 V-PKT). -/

/-- V-PKT-6: packet A is what the codec functions build, and it is valid. -/
theorem test_packetA :
    pktFinalize Config.default (smpPut (smpPut (smpPut (smpPut (pktEmpty 1) 0 0x000001) 1 0xFFFFFF) 2 0x7FFFFF) 3 0x800000) =
      packetOf bytesA ∧ pktValid Config.default (packetOf bytesA) = true := by decide +kernel
/-- V-PKT-7, V-PKT-8: one byte changed. -/
theorem test_packetA_corrupted :
    pktValid Config.default (pktSetByte (packetOf bytesA) 10 0x7E) = false ∧
    pktValid Config.default (pktSetByte (packetOf bytesA) 32 0x58) = false := by decide +kernel
/-- V-PKT-3 to V-PKT-5: the signed values. -/
theorem test_smpGet :
    smpGet (smpPut (pktEmpty 0) 3 0x800000) 3 = -8388608 ∧ smpGet32 (smpPut (pktEmpty 0) 8 0xFFFFFF) 8 = 0xFFFFFFFF := by
  decide +kernel
/-- V-PKT-14, the last payload byte, word `30001AAA`; slot 1 is current. -/
theorem test_paywr :
    look (step ({ State.reset with seqTx := 1 }.present (.cmd 0x30001AAA))) (fun t => pktByte (t.histAt 1) 30) =
      some 0xAA := by decide +kernel
/-- V-PKT-15, word `30001B00`. -/
theorem test_paywr_refused :
    refusedWith (step (State.reset.present (.cmd 0x30001B00))) = some .reservedOperand := by decide +kernel
/-- V-PKT-13, word `41FFFFFF`; V-PKT-17, word `40000005`. -/
theorem test_smpwr :
    look (step ({ State.reset with seqTx := 1 }.present (.cmd 0x41FFFFFF)))
      (fun t => [6, 7, 8, 9, 10].map (pktByte (t.histAt 1))) = some [0x00, 0xFF, 0xFF, 0xFF, 0x00] ∧
    look (step (State.reset.present (.cmd 0x40000005))) (fun t => [4, 5, 6].map (pktByte (t.histAt 0))) =
      some [0x00, 0x00, 0x05] := by decide +kernel
/-- V-PKT-16, word `49000000`. -/
theorem test_smpwr_refused :
    refusedWith (step (State.reset.present (.cmd 0x49000000))) = some .reservedOperand := by decide +kernel

/-! The ring (spec/95 V-RB), capacity 4. -/

/-- V-RB-2, V-RB-5, V-RB-6, V-RB-8. -/
theorem test_ring :
    rbAppend 4 [.full pkt1, .empty, .full pkt2, .empty] (.full pkt3) = .ok [.empty, .full pkt2, .empty, .full pkt3] ∧
    rbRemovePrefix [.full pkt1, .empty, .full pkt2] 3 = .ok [] ∧
    rbExtendEmpty 4 [.full pkt1] 2 = .ok [.full pkt1, .empty, .empty] ∧
    rbGet [.full pkt1, .empty] 2 = .error .rbIndex := ⟨rfl, rfl, rfl, rfl⟩
/-- V-RB-10: a removal and an append on the physical ring wrap; the sequence does not show it. -/
theorem test_physical_ring :
    physView (physAppend (physRemovePrefix ⟨[.full pkt1, .full pkt2, .full pkt3, .full pkt5], 0, 4⟩ 1) (.full pkt7)) =
      [.full pkt2, .full pkt3, .full pkt5, .full pkt7] := by decide +kernel

/-! Framing (spec/95 V-FSM, S5, S7), from reset. -/

/-- V-FSM-2; and a byte that is no marker. -/
theorem test_rxb :
    look (step (State.reset.present (.cmd 0x1000002F))) State.st = some .sType ∧
    look (step (State.reset.present (.cmd 0x10000052))) State.st = some .sScan := by decide +kernel
/-- V-FSM-3, V-FSM-4: a second marker is a bad type byte too. -/
theorem test_frameOther :
    look (exec (.frameOther 0x78) State.reset) (fun t => (t.st, t.drops)) = some (.sScan, [.badType]) ∧
    look (exec (.frameOther 0x2F) State.reset) (fun t => (t.st, t.drops)) = some (.sScan, [.badType]) := by decide +kernel
/-- V-FSM-9: escapes removed and not counted. -/
theorem test_frameC_escapes :
    look (exec (.frameC [0x5C, 0x20, 0x61, 0x5C, 0x5C, 0x62, 0x0A]) State.reset)
      (fun t => (t.events, t.wCnt, t.wLen, t.st)) = some ([.command [0x20, 0x61, 0x5C, 0x62]], 2, 4, .sScan) := by
  decide +kernel
/-- V-FSM-13: the 33rd escaped byte does not fit. -/
theorem test_frameC_overflow :
    look (exec (.frameC (List.replicate 33 [0x5C, 0x61]).flatten) State.reset) (fun t => (t.events, t.drops, t.st)) =
      some ([], [.tokenOverflow], .sScan) := by decide +kernel
/-- S5; and V-FSM-16, where TAB, CR, LF and NUL delimit and an escaped space does not. -/
theorem test_frameD :
    look (exec (.frameD [0x20, 0x63, 0x66, 0x67, 0x2D, 0x6E, 0x61, 0x6D, 0x65, 0x20, 0x36, 0x37, 0x36, 0x38, 0x36, 0x39, 0x36,
      0x61, 0x0A]) State.reset) State.events =
      some [.config [0x63, 0x66, 0x67, 0x2D, 0x6E, 0x61, 0x6D, 0x65] [0x67, 0x68, 0x69, 0x6A]] ∧
    look (exec (.frameD [0x09, 0x09, 0x61, 0x62, 0x0D, 0x0A, 0x34, 0x31, 0x5C, 0x20, 0x34, 0x32, 0x00]) State.reset)
      (fun t => (t.events, t.wCnt, t.wLen)) = some ([.config [0x61, 0x62] [0x41, 0x42]], 4, 5) := by decide +kernel
/-- V-FSM-21 with upper-case digits refused; V-FSM-18, an odd number of digits. -/
theorem test_frameD_badHex :
    look (exec (.frameD [0x20, 0x6E, 0x20, 0x31, 0x41, 0x32, 0x62, 0x09])
      { State.reset with cfg := { Config.default with hexUpper := false } }) State.drops = some [.badHex] ∧
    look (exec (.frameD [0x20, 0x6E, 0x20, 0x31, 0x32, 0x33, 0x20]) State.reset) State.drops = some [.badHex] := by
  decide +kernel
/-- V-FSM-26, with the window off. -/
theorem test_frameR :
    look (exec (.frameR (bytesA.drop 2)) State.reset) (fun t => (t.events, t.lastSeq, t.st)) =
      some ([.pktArrived (packetOf bytesA)], 1, .sScan) := by decide +kernel
/-- V-FSM-27. -/
theorem test_frameR_badCrc :
    look (exec (.frameR (bytesA.drop 2 |>.set 30 0x58)) State.reset) (fun t => (t.events, t.lastSeq, t.drops)) =
      some ([], 0, [.badCrc]) := by decide +kernel
/-- V-FSM-11: 17 bytes, one of them escaped, and trailing noise. -/
theorem test_feed :
    look (exec (.feed ([0x2F, 0x63, 0x5C] ++ [0x31, 0x32, 0x33, 0x34, 0x35, 0x36, 0x37, 0x38, 0x39, 0x30] ++
      [0x31, 0x32, 0x33, 0x34, 0x35, 0x36, 0x37, 0x38, 0x39, 0x2D])) State.reset) State.events =
      some [.command [0x31, 0x32, 0x33, 0x34, 0x35, 0x36, 0x37, 0x38, 0x39, 0x30, 0x31, 0x32, 0x33, 0x34, 0x35, 0x36, 0x37]] := by
  decide +kernel
/-- V-FSM-28: the first 10 bytes of `pkt(7)`. -/
theorem test_feed_split :
    look (exec (.feed (pkt7.toList.take 10)) State.reset) (fun t => (t.st, t.rxCnt, t.events)) = some (.sPkt, 8, []) := by
  decide +kernel

/-! Reordering (spec/95 V-RO), one packet at a time; V-PKT-11. -/

/-- V-PKT-11: markers inside a body are not scanned. -/
theorem test_feedpkt_markers :
    look (exec (.feedpkt (packetOf bytesD)) State.reset) (fun t => (t.events, t.st)) =
      some ([.pktArrived (packetOf bytesD)], .sScan) := by decide +kernel
/-- V-RO-1: the rows for 8 (forced eviction) and 2 (late); V-RO-1's 100 of P3 (restart) and 2 again (stale). -/
theorem test_feedpkt_window :
    look (exec (.feedpkt pkt8) (reordering 4 5 [.empty, .full pkt5])) (fun t => (arrived t, t.lastSeq, ringSeqs t)) =
      some ([5], 8, [none, none, some 8]) ∧
    look (exec (.feedpkt pkt2) (reordering 4 3 [.empty, .full pkt3])) (fun t => (arrived t, t.lastSeq, ringSeqs t)) =
      some ([2, 3], 3, []) ∧
    look (exec (.feedpkt pkt100) (reordering 4 8 [])) (fun t => (arrived t, t.lastSeq, ringSeqs t)) =
      some ([100], 100, []) ∧
    look (exec (.feedpkt pkt2) (reordering 4 3 [])) (fun t => (arrived t, t.lastSeq, t.drops)) = some ([], 3, [.stale]) := by
  decide +kernel

/-! Transmit (spec/95 section 45). -/

/-- `BEGIN` 1 from reset: the record of the never finalised look-behind slot, the result, the fresh packet. -/
theorem test_begin :
    look (step (State.reset.present (.cmd 0x20000000)))
      (fun t => (t.seqTx, t.results, t.events, [0, 1, 2, 3, 4].map (pktByte (t.histAt 1)))) =
      some (1, [0x00000001], [.pktReady (packetOf (0x2F :: 0x52 :: zeros 31))], [0x2F, 0x52, 0x00, 0x01, 0x00]) := by
  decide +kernel
/-- The spec's illustrative tables of V-TX-4: `PERM_B1[j] = j`, `PERM_B2[j] = j xor 16`. -/
def illustrative : Config :=
  { Config.default with
    permB1 := .table (Vector.ofFn (fun j => BitVec.ofNat 6 j.val))
    permB2 := .table (Vector.ofFn (fun j => BitVec.ofNat 6 j.val ^^^ 16#6)) }

/-- V-TX-4 with the spec's illustrative tables: two records, in the order of the tables; V-PKT-12 for slot 0. -/
theorem test_begin_mode2 :
    look (exec .beginOp
      { State.reset with
        mode := .mode2
        seqTx := 31
        cfg := illustrative
        hist := ((Vector.replicate 64 (pktEmpty 0)).set 0 (pkt 0 0x880C)).set 16 (pkt 16 0) }) (fun t => t.events) =
      some [.pktReady (pkt 0 0x880C), .pktReady (pkt 16 0)] := by decide +kernel
/-- R89: channel 8 and channel 0 of the packet just begun. -/
theorem test_sample :
    look (exec (.sample #v[0x400000, 0xC00000, 2, 3, 4, 5, 6, 7, 0xFFFFF8]) State.reset)
      (fun t => (t.seqTx, smpGet (t.histAt 1) 0, smpGet (t.histAt 1) 1, smpGet (t.histAt 1) 8)) =
      some (1, 4194304, -4194304, -8) := by decide +kernel

/-! Control (spec/95 V-CTL). -/

/-- V-CTL-1, from the end of P3. -/
theorem test_reset :
    look (step ((reordering 4 100 [.empty, .full pkt3]).present (.cmd 0x00000000)))
      (fun t => (t.win, t.lastSeq, t.rb, t.events)) = some (0, 0, [], []) := by decide +kernel
/-- V-CTL-2; and what else it could have touched. -/
theorem test_setord :
    look (step (State.reset.present (.cmd 0x50000002))) (fun t => (t.mode, t.win, t.seqTx)) = some (.mode2, 0, 0) := by
  decide +kernel
/-- V-CTL-3. -/
theorem test_setord_refused :
    refusedWith (step (State.reset.present (.cmd 0x50000003))) = some .reservedOperand := by decide +kernel
/-- V-CTL-4. -/
theorem test_setwin :
    look (step ((reordering 8 5 [.empty, .full pkt3, .empty, .full pkt5]).present (.cmd 0x60000008)))
      (fun t => (arrived t, t.rb, t.win, t.lastSeq)) = some ([3, 5], [], 8, 5) := by decide +kernel
/-- V-CTL-9. -/
theorem test_setwin_refused :
    refusedWith (step (State.reset.present (.cmd 0x60000041))) = some .reservedOperand := by decide +kernel
/-- V-CTL-10, both words. -/
theorem test_reservedOp :
    refusedWith (step (State.reset.present (.cmd 0x80000000))) = some .reservedEncoding ∧
    refusedWith (step (State.reset.present (.cmd 0x20000001))) = some .reservedEncoding := by decide +kernel

/-! Witnesses: for every obligation with hypotheses, concrete inputs that meet them all, clause by clause, at the bounds
of their ranges. -/

/-! States. -/

/-- `s` waiting for the last body byte of `p`. -/
def awaiting (s : State) (p : Packet) : State := { s with st := .sPkt, rxCnt := 30, rxbuf := p }

/-- The last body byte of `p`. -/
def lastOf (p : Packet) : Byte := pktByte p 32

/-- Reset, inside a word. -/
def inWord (st : RxSt) (phase : WPhase) (cnt : BitVec 7) (len : Nat) (tok : List Byte) : State :=
  { State.reset with st := st, wPhase := phase, wCnt := cnt, wLen := len, tok := tok ++ zeros (129 - tok.length) }

/-- A transmitter after 63 `BEGIN`s: slots 0 to 62 finalised, slot 63 fresh. -/
def begun63 : State :=
  { State.reset with
    seqTx := 63
    hist := Vector.ofFn fun k =>
      if k.val = 63 then pktEmpty 63 else pktFinalize Config.default (pktEmpty (BitVec.ofNat 16 k.val)) }

theorem begun63_histOk : HistOk 63 begun63 := by
  intro a ha
  have hk : (slotOf (begun63.seqTx - BitVec.ofNat 16 a)).toNat = 63 - a := by
    have : ∀ a < 63, (slotOf (63#16 - BitVec.ofNat 16 a)).toNat = 63 - a := by decide +kernel
    exact this a ha
  have hs : BitVec.ofNat 16 (63 - a) = begun63.seqTx - BitVec.ofNat 16 a := by
    have : ∀ a < 63, BitVec.ofNat 16 (63 - a) = 63#16 - BitVec.ofNat 16 a := by decide +kernel
    exact this a ha
  have h : begun63.histAt (slotOf (begun63.seqTx - BitVec.ofNat 16 a)) =
      if 63 - a = 63 then pktEmpty 63 else pktFinalize Config.default (pktEmpty (BitVec.ofNat 16 (63 - a))) := by
    simp only [State.histAt, hk]
    simp [begun63]
  rw [h, ← hs]
  by_cases h0 : a = 0
  · subst h0; simp
  · have : 63 - a ≠ 63 := by omega
    rw [if_neg this]
    refine ⟨by simp, fun _ => ?_⟩
    simp [pktValid, pktCrcField_pktFinalize, begun63, State.reset, State.initial]

theorem HistOk_mono {m n : Nat} {s : State} (h : HistOk n s) (hm : m ≤ n) : HistOk m s := fun a ha => h a (by omega)

/-- A receiver with a window of 4, `[E, F3]` buffered, about to receive the last byte of `pkt(2)`, with a command word
still to be presented. -/
def busy : State :=
  awaiting { reordering 4 3 [.empty, .full pkt3] with input := [.cmd 0x20000000] } pkt2

theorem markers_reset (i : SlotIndex) : pktByte (State.reset.histAt i) 0 = markByte ∧ pktByte (State.reset.histAt i) 1 = typeR := by
  have : State.reset.histAt i = pktEmpty 0#16 := by simp [State.histAt, State.reset, State.initial]
  rw [this]; decide

theorem busy_inv : Inv busy := by
  refine ⟨by decide, by unfold StoresOk; decide +kernel, fun _ => Nat.le_refl 30, ?_, fun h => (by cases h), ⟨by unfold WindowOk; decide +kernel, rfl, ?_, ?_⟩,
    markers_reset, by unfold CurrentSlotOk; decide +kernel⟩
  · intro cap store h; cases h
  · exact fun _ => ⟨pkt3, rfl⟩
  · intro k q h
    match k with
    | 0 => cases h
    | 1 => cases h; decide +kernel
    | _ + 2 => cases h

/-- A receiver at the last byte of a configuration value: name `n`, one digit so far. -/
def inValue : State :=
  { inWord .sValue .copy 1 1 [0x31] with nameLen := 1, name := 0x6E :: zeros 32, input := [.cmd 0x10000020] }

theorem inValue_inv : Inv inValue := by
  refine ⟨by decide, by unfold StoresOk; decide +kernel, fun h => (by cases h), ?_, fun _ => by decide, ⟨by unfold WindowOk; decide +kernel, rfl, ?_, ?_⟩,
    markers_reset, by unfold CurrentSlotOk; decide +kernel⟩
  · intro cap store h h'; cases h; cases h'; decide
  · exact fun h => absurd rfl h
  · intro k q h; cases h

/-! Encoding and the step. -/

/-- Every encodable instruction, its operands at their bounds. -/
theorem witness_EncodedInputsDecodeBack :
    [Instr.reset, .rxb 0x00, .rxb 0xFF, .beginOp, .paywr 0xFF 0xFF, .smpwr 0xF 0xFFFFFF, .setord 3, .setwin 0xFFFF,
      .crcupd 0xFFFF 0xFF, .reservedOp 0x7FFFFFFF, .frameR (List.replicate 31 0xFF), .frameC [], .frameC [0x61, 0x20],
      .frameC (List.replicate 16 0x61), .frameD [0x6E, 0x20, 0x31, 0x32, 0x20],
      .frameD (List.replicate 16 0x61 ++ List.replicate 64 0x31), .frameOther 0x2F].all
      (fun i => frameShape Config.default i && (encode i).isSome) = true := by decide +kernel

theorem witness_DecodedInputsEncodeBack :
    decoded (decode Config.default (.cmd 0x60000004)) = some (.setwin 4) ∧
    decoded (decode Config.default (.wire [0x2F, 0x78])) = some (.frameOther 0x78) ∧
    decoded (decode Config.default (.wire [0xFF])) = some (.feed [0xFF]) ∧
    decoded (decode Config.default .resetPin) = some .reset := by decide

/-- One word for each clause of R84, then the neighbouring words that are not reserved. -/
theorem witness_CommandRefusedExactlyWhenReserved :
    (∀ w ∈ [0x80000000#32, 0x00000001#32, 0x20000001#32, 0x10000100#32, 0x30010000#32, 0x30001B00#32, 0x49000000#32,
      0x50000004#32, 0x50000003#32, 0x60010000#32, 0x60000041#32, 0x71000000#32], ReservedWord Config.default w) ∧
    (∀ w ∈ [0x00000000#32, 0x20000000#32, 0x100000FF#32, 0x30001AFF#32, 0x48FFFFFF#32, 0x50000002#32, 0x60000040#32,
      0x70FFFFFF#32], ¬ ReservedWord Config.default w) := by
  simp [ReservedWord, MustBeZeroSet, OperandOutOfRange, Config.default]

theorem witness_StepPerformsTheOldestInput :
    (State.reset.present (.cmd 0x20000000)).input = .cmd 0x20000000 :: [] ∧
    decode Config.default (.cmd 0x20000000) = .ok .beginOp ∧
    decode Config.default (.cmd 0x20000001) = .error .reservedEncoding ∧
    (State.reset.present (.early 0x20000000)).input = .early 0x20000000 :: [] ∧ State.reset.input = [] ∧
    tableInput 16 0x2F00 = some (.wire [0x2F, 0x00]) ∧
    decode State.reset.cfg (.wire [0x2F, 0x00]) = .ok (.frameOther 0x00) := ⟨rfl, rfl, rfl, rfl, rfl, rfl, rfl⟩

/-- All constructors but the reserved one, their operands at their bounds. -/
theorem witness_LegalOperationCompletes :
    ∀ i ∈ [Instr.reset, .rxb 0xFF, .beginOp, .paywr 26 0xFF, .smpwr 8 0xFFFFFF, .setord 2, .setwin 64, .crcupd 0xFFFF 0xFF,
      .frameR (zeros 31), .frameC [0x61, 0x20], .frameD [0x6E, 0x20, 0x31, 0x32, 0x20], .frameOther 0x2F, .feed [],
      .crcCompute [0x00], .sample (Vector.replicate 9 0xFFFFFF), .feedpkt pkt1], legalOperands State.reset.cfg i = true := by
  decide

theorem witness_LegalRunNeverStops :
    ∀ i ∈ [Instr.setwin 64, .beginOp, .paywr 26 0xFF, .feed [0x2F, 0x63], .reset], legalOperands State.reset.cfg i = true := by
  decide

/-- The first operand outside each range; the lowest must-be-zero bit of each row of R82; one word for each operand. -/
theorem witness_ReservedOperationsRefused :
    (26 < (27#8).toNat ∧ 8 < (9#4).toNat ∧ State.reset.cfg.wMax < (65#16).toNat) ∧
    8 ≤ ((0x80000000#32).extractLsb' 28 4).toNat ∧
    (∀ w ∈ [0x00000001#32, 0x10000100#32, 0x20000001#32, 0x30010000#32, 0x50000004#32, 0x60010000#32, 0x71000000#32],
      MustBeZeroSet w) ∧
    (∀ w ∈ [0x30001B00#32, 0x49000000#32, 0x50000003#32, 0x60000041#32],
      OperandOutOfRange State.reset.cfg w ∧ ¬ MustBeZeroSet w) := by
  simp [MustBeZeroSet, OperandOutOfRange, State.reset, State.initial, Config.default]

theorem witness_ResetLeavesTheTabulatedState : 0 < 33 ∧ 32 < 33 ∧ (0x00#8) ∈ State.reset.tok ∧ (0x00#8) ∈ State.reset.name := by
  decide

/-! Checksum and codec. -/

theorem witness_SingleByteChangeChangesChecksum :
    CrcInj (crcUpdate Config.default) ∧ 1 < [0x31#8, 0x32#8].length ∧ [0x31#8, 0x32#8][1]? ≠ some 0x33#8 :=
  ⟨crcInj_of_xmodem rfl, by decide, by decide⟩

theorem witness_DefaultChecksumHasZeroResidue : Config.default.crc = .xmodem := rfl

theorem witness_CrcComputeReturnsRunningValues :
    0 < (State.reset.putResult 7).results.length ∧ 0 < [0x31#8].length := by decide

theorem witness_EmptyPacketAndSequenceField : 32 < 33 ∧ (4 ≠ 2 ∧ 4 ≠ 3) ∧ (1 ≠ 2 ∧ 1 ≠ 3) := by decide

theorem witness_SampleWrittenIsSampleRead : 0 ≤ 8 ∧ 8 ≤ 8 ∧ 3 < 4 + 3 * 0 ∧ 6 + 3 * 8 < 31 := by decide

theorem witness_AnyByteChangeInvalidatesPacket :
    CrcInj (crcUpdate Config.default) ∧ pktValid Config.default pkt1 = true ∧ 32 < 33 ∧ 0x99#8 ≠ pktByte pkt1 32 ∧
    0x2E#8 ≠ pktByte pkt1 0 := ⟨crcInj_of_xmodem rfl, by decide +kernel, by decide, by decide, by decide⟩

theorem witness_FinalizedPacketIsValid : 0 < 31 ∧ 30 < 31 := by decide

theorem witness_SampleValuesAreExact :
    (-8388608 : Int) ≤ -8388608 ∧ (-8388608 : Int) ≤ 8388607 ∧ (8388607 : Int) ≤ 8388607 := by decide

theorem witness_PaywrWritesOnePayloadByte :
    (26#8).toNat ≤ 26 ∧ 26 < (27#8).toNat ∧ ¬ (Space.hist = .hist ∧ 0 = payloadAddr State.reset 26) ∧
    ¬ (Space.rxbuf = .hist ∧ 30 = payloadAddr State.reset 26) := by decide

theorem witness_SmpwrWritesThreePayloadBytes :
    (8#4).toNat ≤ 8 ∧ 8 < (9#4).toNat ∧
    ¬ (Space.hist = .hist ∧ payloadAddr State.reset 24 ≤ 31 ∧ 31 ≤ payloadAddr State.reset (24 + 2)) := by decide

/-! Transmit and control. -/

theorem witness_BeginEffect : (0#6).toNat < 64 ∧ (63#6).toNat < 64 := by decide

theorem witness_HistoryHoldsOnePacketPerNumber :
    (0 ≤ 63 ∧ HistOk 0 State.reset) ∧ (63 ≤ 63 ∧ HistOk 63 begun63) ∧
    (∃ t, HistOk 63 begun63 ∧ isPayloadWrite (.paywr 26 0xAA) = true ∧ exec (.paywr 26 0xAA) begun63 = .next t) ∧
    (∃ t, HistOk 63 begun63 ∧ isPayloadWrite (.smpwr 8 5) = true ∧ exec (.smpwr 8 5) begun63 = .next t) ∧
    (HistOk 32 begun63 ∧ begun63.mode = .mode0) :=
  ⟨⟨by decide, fun a ha => absurd ha (by omega)⟩, ⟨by decide, begun63_histOk⟩, ⟨_, begun63_histOk, rfl, rfl⟩,
    ⟨_, begun63_histOk, rfl, rfl⟩, HistOk_mono begun63_histOk (by decide), rfl⟩

theorem witness_PacketLeavesThirtyTwoBeginsLater :
    ∃ t u, (∀ i ∈ [Instr.smpwr 0 5], isPayloadWrite i = true) ∧
      (∀ w ∈ List.replicate 31 [Instr.paywr 26 0xAA], ∀ i ∈ w, isPayloadWrite i = true) ∧
      (List.replicate 31 [Instr.paywr 26 0xAA]).length = 31 ∧ State.reset.mode = .mode0 ∧
      execSeq (.beginOp :: [.smpwr 0 5]) State.reset = .next t ∧
      execSeq ((List.replicate 31 [Instr.paywr 26 0xAA]).flatMap (fun w => .beginOp :: w)) t = .next u :=
  ⟨_, _, by decide, by decide, rfl, rfl, rfl, rfl⟩

theorem witness_SampleFillsTheFreshPacket : (2#6) ≠ (beginSample State.reset).cur ∧ 8 < 9 := by decide

theorem witness_SetwinFlushesInOrder : (64#16).toNat ≤ State.reset.cfg.wMax ∧ State.reset.cfg.wMax < (65#16).toNat := by decide

/-! Framing. -/

theorem witness_ScanAndTypeDispatch :
    State.reset.st = .sScan ∧ (inWord .sType .skip 0 0 []).st = .sType ∧
    (0x2F#8 ≠ 0x52#8 ∧ 0x2F#8 ≠ 0x63#8 ∧ 0x2F#8 ≠ 0x64#8) := by decide

theorem witness_BodyBytesAreCounted :
    ({ awaiting State.reset pkt1 with rxCnt := 29 }.st = .sPkt ∧ { awaiting State.reset pkt1 with rxCnt := 29 }.rxCnt.toNat < 30) ∧
    ((awaiting State.reset pkt1).st = .sPkt ∧ (awaiting State.reset pkt1).rxCnt = 30#5) := by decide

theorem witness_InvalidPacketIsDiscarded :
    LastBodyByte (awaiting State.reset pkt1) ∧
    pktValid Config.default (assembled (awaiting State.reset pkt1) 0x99) = false := ⟨⟨rfl, rfl⟩, by decide +kernel⟩

theorem witness_WindowOffDeliversAtOnce :
    LastBodyByte (awaiting State.reset pkt1) ∧
    pktValid Config.default (assembled (awaiting State.reset pkt1) (lastOf pkt1)) = true ∧
    (awaiting State.reset pkt1).win = 0 := ⟨⟨rfl, rfl⟩, by decide +kernel, rfl⟩

/-- The hypotheses shared by the statements on the window: the last body byte of a valid packet `p`. -/
abbrev Arrives (s : State) (p : Packet) : Prop :=
  (s.st = .sPkt ∧ s.rxCnt = 30) ∧ p = assembled s (lastOf p) ∧ pktValid s.cfg p = true ∧ s.win ≠ 0

/-- `d = W - 1` with two evictions (V-RO-1, packet 8), and `d = 1` on an empty ring. -/
theorem witness_NewAheadPacketIsAppended :
    (Arrives (awaiting (reordering 4 5 [.empty, .full pkt5]) pkt8) pkt8 ∧
      (pktSeq pkt8 - 5).toInt = (3 : Nat) ∧ 0 < 3 ∧ 3 < (4#16).toNat ∧ 2 = min 2 (2 + 3 + 1 - (4#16).toNat)) ∧
    (Arrives (awaiting (reordering 4 0 []) pkt1) pkt1 ∧
      (pktSeq pkt1 - 0).toInt = (1 : Nat) ∧ 0 < 1 ∧ 1 < (4#16).toNat ∧ 0 = min 0 (0 + 1 + 1 - (4#16).toNat)) := by
  decide +kernel

/-- A duplicate, `d = 0`, and the oldest slot, `|d| = rb_len - 1`. -/
theorem witness_LatePacketFillsItsSlot :
    (Arrives (awaiting (reordering 4 3 [.empty, .full pkt3]) pkt3) pkt3 ∧ (pktSeq pkt3 - 3).toInt = 0 ∧ (0 : Int).natAbs < 2) ∧
    (Arrives (awaiting (reordering 4 3 [.empty, .full pkt3]) pkt2) pkt2 ∧ (pktSeq pkt2 - 3).toInt = -1 ∧
      (-1 : Int).natAbs < 2) := by decide +kernel

/-- `|d| = W` ahead and behind, and `d = -32768` (V-RO-6). -/
theorem witness_FarPacketRestartsWindow :
    (Arrives (awaiting (reordering 4 3 [.empty, .full pkt3]) pkt7) pkt7 ∧ 2 < (4#16).toNat ∧
      (pktSeq pkt7 - 3).toInt = 4 ∧ (4#16).toNat ≤ (4 : Int).natAbs) ∧
    (Arrives (awaiting (reordering 4 5 []) pkt1) pkt1 ∧ 0 < (4#16).toNat ∧
      (pktSeq pkt1 - 5).toInt = -4 ∧ (4#16).toNat ≤ (-4 : Int).natAbs) ∧
    (Arrives (awaiting (reordering 4 32769 []) pkt1) pkt1 ∧ (pktSeq pkt1 - 32769).toInt = -32768 ∧
      (4#16).toNat ≤ (-32768 : Int).natAbs) := by decide +kernel

/-- `d = 0` on an empty ring, and `|d| = W - 1` behind a ring of two. -/
theorem witness_StalePacketIsDropped :
    (Arrives (awaiting (reordering 4 1 []) pkt1) pkt1 ∧ frontFull [] = false ∧ (pktSeq pkt1 - 1).toInt = 0 ∧
      0 ≤ (0 : Int).natAbs ∧ (0 : Int).natAbs < (4#16).toNat) ∧
    (Arrives (awaiting (reordering 4 5 [.empty, .full pkt5]) pkt2) pkt2 ∧ frontFull [.empty, .full pkt5] = false ∧
      (pktSeq pkt2 - 5).toInt = -3 ∧ 2 ≤ (-3 : Int).natAbs ∧ (-3 : Int).natAbs < (4#16).toNat) := by decide +kernel

theorem witness_EventsPerOperationAreBounded : Inv busy ∧ (64#16).toNat ≤ busy.cfg.wMax :=
  ⟨busy_inv, by decide⟩

theorem witness_DeliveredInSequenceOrder :
    Inv busy ∧ busy.win ≠ 0 ∧ LastBodyByte busy ∧
    (pktSeq (assembled busy (lastOf pkt2)) - busy.lastSeq).toInt.natAbs < busy.win.toNat :=
  ⟨busy_inv, by decide, ⟨rfl, rfl⟩, by decide +kernel⟩

/-- The five delimiters and a byte that is none; one state per clause; the counters at their last value before the cap
and the store bound. -/
theorem witness_WordReaderTransitions :
    (∀ b ∈ [0x00#8, 0x20, 0x0D, 0x0A, 0x09], isDelim b = true) ∧ isDelim 0x0B = false ∧
    (capOf .sCmd = some 16 ∧ storeOf Config.default .sCmd = some 32) ∧
    (capOf .sName = some 16 ∧ storeOf Config.default .sName = some 32) ∧
    (capOf .sValue = some 64 ∧ storeOf Config.default .sValue = some 128) ∧
    ((inWord .sCmd .skip 0 0 []).wPhase = .skip ∧ isDelim 0x20 = true) ∧
    ((inWord .sCmd .copy 1 1 [0x61]).wPhase ≠ .esc ∧ (0x5C#8) = 0x5C#8) ∧
    ((inWord .sName .esc 0 31 []).wPhase = .esc ∧ (inWord .sName .esc 0 31 []).wLen ≠ 32) ∧
    ((inWord .sValue .copy 62 127 []).wPhase ≠ .esc ∧ isDelim 0x31 = false ∧ 0x31#8 ≠ 0x5C#8 ∧
      (inWord .sValue .copy 62 127 []).wLen ≠ 128 ∧ ((inWord .sValue .copy 62 127 []).wCnt + 1#7).toNat ≠ 64) ∧
    ((inWord .sCmd .esc 0 32 []).wPhase = .esc ∧ (inWord .sCmd .esc 0 32 []).wLen = 32) ∧
    (isDelim 0x61 = false ∧ 0x61#8 ≠ 0x5C#8 ∧ (inWord .sCmd .copy 15 32 []).wLen = 32) := by decide

/-- A word finished by a delimiter, and one finished by its cap, in each of the three states. -/
theorem witness_FinishedWordCompletesItsFrame :
    StoresOk (inWord .sCmd .copy 1 1 [0x61]) ∧
    (∃ u, WordFinishes 16 32 0x20 (inWord .sCmd .copy 1 1 [0x61]) u ∧ 1 ≤ u.wLen) ∧
    (∃ u, WordFinishes 16 32 0x61 (inWord .sCmd .copy 15 31 []) u ∧ 1 ≤ u.wLen) ∧
    (∃ u, WordFinishes 16 32 0x61 (inWord .sName .copy 15 31 []) u ∧ u.wLen ≤ 32 ∧
      u.wLen < (inWord .sName .copy 15 31 []).tok.length) ∧
    (∃ u, WordFinishes 64 128 0x32 { inWord .sValue .copy 63 127 [] with nameLen := 1 } u ∧ 1 ≤ u.wLen ∧
      u.wLen ≤ (inWord .sValue .copy 63 127 []).tok.length) ∧
    (∃ u, WordFinishes 64 128 0x00 { inWord .sValue .copy 2 2 [0x31, 0x32] with nameLen := 1 } u ∧ 1 ≤ u.wLen ∧
      hexText true (u.tok.take u.wLen) = some [0x12]) :=
  ⟨by unfold StoresOk; decide +kernel, ⟨_, .inl ⟨rfl, by decide, rfl⟩, by decide⟩,
    ⟨_, .inr ⟨by decide, by decide, by decide, by decide, by decide, rfl⟩, by decide +kernel⟩,
    ⟨_, .inr ⟨by decide, by decide, by decide, by decide, by decide, rfl⟩, by decide +kernel⟩,
    ⟨_, .inr ⟨by decide, by decide, by decide, by decide, by decide, rfl⟩, by decide +kernel⟩,
    ⟨_, .inl ⟨rfl, by decide, rfl⟩, by decide +kernel⟩⟩

/-- The bytes at both ends of each digit range and beside them; a token as long as the store that decodes, and one that
does not. -/
theorem witness_HexDecodeInPlaceIsExact :
    ((0x30#8).toNat = 0x30 ∧ (0x39#8).toNat = 0x39 ∧ (0x61#8).toNat = 0x61 ∧ (0x66#8).toNat = 0x66 ∧
      (0x41#8).toNat = 0x41 ∧ (0x46#8).toNat = 0x46) ∧
    ((0x2F#8).toNat < 0x30 ∧ (0x39 < (0x3A#8).toNat ∧ (0x40#8).toNat < 0x41) ∧
      (0x46 < (0x47#8).toNat ∧ (0x60#8).toNat < 0x61) ∧ 0x66 < (0x67#8).toNat) ∧
    ((inWord .sValue .copy 64 129 (List.replicate 128 0x30 ++ [0x20])).wLen ≤ 129 ∧
      hexText true (List.replicate 128 0x30 ++ [0x20]) = some (zeros 64)) ∧
    ((inWord .sValue .copy 1 1 [0x31]).wLen ≤ 129 ∧ hexText true [0x31] = none) := by decide +kernel

/-- `/c go` LF (V-FSM-6), and 16 digits (S7). -/
theorem witness_CommandFrameDeliversToken :
    State.reset.cfg.Legal ∧ StoresOk State.reset ∧ State.reset.st = .sScan ∧
    WordText 16 32 [0x20, 0x67, 0x6F, 0x0A] [0x67, 0x6F] ∧ WordText 16 32 (List.replicate 16 0x31) (List.replicate 16 0x31) :=
  ⟨by decide, by unfold StoresOk; decide +kernel, rfl,
    ⟨[0x20], [(false, 0x67), (false, 0x6F)], by decide, by unfold PlainOk; decide +kernel, by decide, by decide, rfl,
      .inl ⟨by decide, 0x0A, by decide, rfl⟩⟩,
    ⟨[], List.replicate 16 (false, 0x31), by decide, by unfold PlainOk; decide +kernel, by decide, by decide, rfl,
      .inr ⟨by decide, by decide, rfl⟩⟩⟩

/-- A value that decodes, one that does not, and one escaped space (V-FSM-22). -/
theorem witness_ConfigFrameDeliversNameAndValue :
    State.reset.cfg.Legal ∧ StoresOk State.reset ∧ State.reset.st = .sScan ∧ WordText 16 32 [0x20, 0x6E, 0x20] [0x6E] ∧
    (WordText 64 128 [0x31, 0x41, 0x20] [0x31, 0x41] ∧ hexText true [0x31, 0x41] = some [0x1A]) ∧
    (WordText 64 128 [0x31, 0x20] [0x31] ∧ hexText true [0x31] = none) ∧
    (WordText 64 128 [0x5C, 0x20, 0x20] [0x20] ∧ hexText true [0x20] = some []) :=
  ⟨by decide, by unfold StoresOk; decide +kernel, rfl,
    ⟨[0x20], [(false, 0x6E)], by decide, by unfold PlainOk; decide +kernel, by decide, by decide, rfl,
      .inl ⟨by decide, 0x20, by decide, rfl⟩⟩,
    ⟨⟨[], [(false, 0x31), (false, 0x41)], by decide, by unfold PlainOk; decide +kernel, by decide, by decide, rfl,
      .inl ⟨by decide, 0x20, by decide, rfl⟩⟩, by decide⟩,
    ⟨⟨[], [(false, 0x31)], by decide, by unfold PlainOk; decide +kernel, by decide, by decide, rfl,
      .inl ⟨by decide, 0x20, by decide, rfl⟩⟩, by decide⟩,
    ⟨⟨[], [(true, 0x20)], by decide, by unfold PlainOk; decide +kernel, by decide, by decide, rfl,
      .inl ⟨by decide, 0x20, by decide, rfl⟩⟩, by decide⟩⟩

/-- V-FSM-13 and V-FSM-14, and a value of 129 escaped bytes. -/
theorem witness_OverlongWordIsDropped :
    State.reset.cfg.Legal ∧ StoresOk State.reset ∧ State.reset.st = .sScan ∧
    OverlongText 16 32 (List.replicate 33 [0x5C, 0x61]).flatten ∧
    OverlongText 16 32 ((List.replicate 17 [0x5C, 0x61]).flatten ++ List.replicate 16 0x62) ∧
    WordText 16 32 [0x6E, 0x20] [0x6E] ∧ OverlongText 64 128 (List.replicate 129 [0x5C, 0x61]).flatten :=
  ⟨by decide, by unfold StoresOk; decide +kernel, rfl,
    ⟨[], List.replicate 32 (true, 0x61), (true, 0x61), by decide, by unfold PlainOk; decide +kernel, by decide +kernel, by decide +kernel, by decide +kernel⟩,
    ⟨[], List.replicate 17 (true, 0x61) ++ List.replicate 15 (false, 0x62), (false, 0x62), by decide,
      by unfold PlainOk; decide +kernel, by decide +kernel, by decide +kernel, by decide +kernel⟩,
    ⟨[], [(false, 0x6E)], by decide, by unfold PlainOk; decide +kernel, by decide, by decide, rfl,
      .inl ⟨by decide, 0x20, by decide, rfl⟩⟩,
    ⟨[], List.replicate 128 (true, 0x61), (true, 0x61), by decide, by unfold PlainOk; decide +kernel, by decide +kernel,
      by decide +kernel, by decide +kernel⟩⟩

theorem witness_PacketFrameReachesReorder :
    State.reset.st = .sScan ∧ (packetOf bytesA).toList = 0x2F :: 0x52 :: bytesA.drop 2 ∧
    pktValid State.reset.cfg (packetOf bytesA) = true ∧
    (pktSetByte (packetOf bytesA) 32 0x58).toList = 0x2F :: 0x52 :: (bytesA.drop 2).set 30 0x58 ∧
    pktValid State.reset.cfg (pktSetByte (packetOf bytesA) 32 0x58) = false := by decide +kernel

theorem witness_UnknownTypeByteIsDiscarded :
    State.reset.st = .sScan ∧ 0x2F#8 ≠ 0x52#8 ∧ 0x2F#8 ≠ 0x63#8 ∧ 0x2F#8 ≠ 0x64#8 := by decide

/-! The whole machine. -/

theorem witness_ChunkingIsInvisible :
    ∃ t, step { State.reset with input := .wire [0x2F, 0x63, 0x61, 0x20] :: [.cmd 0x20000000] } = .next t := ⟨_, rfl⟩

theorem witness_DroppedFrameLeavesNoTrace : Inv busy ∧ Inv inValue := ⟨busy_inv, inValue_inv⟩

theorem witness_EmittedRecordsAreWellFormed :
    (Inv busy ∧ legalOperands busy.cfg (.rxb (lastOf pkt2)) = true) ∧
    (Inv inValue ∧ legalOperands inValue.cfg (.setwin 64) = true ∧ legalOperands inValue.cfg .beginOp = true ∧
      legalOperands inValue.cfg (.paywr 26 0xFF) = true) := ⟨⟨busy_inv, rfl⟩, inValue_inv, rfl, rfl, rfl⟩

theorem witness_SidesShareNoState :
    (∃ t, exec (.feed [0x2F]) State.reset = .next t ∧ isReceive (.feed [0x2F]) = true) ∧
    (∃ t, exec (.setwin 64) State.reset = .next t ∧ isReceive (.setwin 64) = true) ∧
    (∃ t, exec .beginOp State.reset = .next t ∧ isTransmit .beginOp = true) ∧
    (∃ t, exec .reset State.reset = .next t) := ⟨⟨_, rfl, rfl⟩, ⟨_, rfl, rfl⟩, ⟨_, rfl, rfl⟩, ⟨_, rfl⟩⟩

theorem witness_ReceiveIgnoresTransmitSide :
    (∀ i ∈ [Instr.rxb 0xFF, .setwin 64, .frameR (zeros 31), .frameC [0x61, 0x20], .frameD [0x6E, 0x20, 0x31, 0x32, 0x20],
        .frameOther 0x2F, .feed [0x2F], .feedpkt pkt1],
      isReceive i = true ∧ legalOperands State.reset.cfg i = true) ∧
    State.reset.framing = begun63.framing ∧ State.reset.reorder = begun63.reorder ∧ State.reset.cfg = begun63.cfg ∧
    State.reset.seqTx ≠ begun63.seqTx := ⟨by decide, rfl, rfl, rfl, by decide⟩

theorem witness_StepKeepsInvariant :
    (∃ t, Inv busy ∧ step busy = .next t) ∧ (∃ t, Inv inValue ∧ step inValue = .next t) :=
  ⟨⟨_, busy_inv, rfl⟩, ⟨_, inValue_inv, rfl⟩⟩

/-- The first index outside and the last one inside, a full ring and one with room, capacity 0. -/
theorem witness_RingOperationsAsSpecified :
    1 < [Slot.empty, .full pkt1].length ∧ [Slot.empty, .full pkt1].length ≤ 2 ∧ [Slot.empty, .full pkt1].length < 3 ∧
    ([Slot.empty, .full pkt1] = .empty :: [.full pkt1] ∧ [Slot.empty, .full pkt1].length = 2) ∧
    2 ≤ [Slot.empty, .full pkt1].length ∧ [Slot.empty, .full pkt1].length < 3 ∧ [Slot.empty, .full pkt1].length + 2 ≤ 4 := by
  decide

/-- A full ring that wraps, and one with room. -/
theorem witness_PhysicalRingRefinesSequence :
    (PhysRing.Ok ⟨[.full pkt1, .empty, .full pkt3], 2, 3⟩ ∧ 3 ≤ 3 ∧ 2 < 3) ∧
    (PhysRing.Ok ⟨[.empty, .full pkt3], 1, 1⟩ ∧ 0 ≤ 1 ∧ 0 < 1) := by decide

end Sys2Proof.Tests
end

