-- ==== Sys2Proof/Proofs/Step.lean ====
section
/-! PROOFS. The step at the inputs (spec/00_scope.md R12, spec/60_exceptions.md R239, R246): what it does with an input that
is an operation, with one that is none, and with no input. -/

namespace Sys2Proof.Machine

variable {s : State} {x : Input} {rest : List Input} {i : Instr}

theorem step_of_decode_ok (hin : s.input = x :: rest) (hd : decode s.cfg x = .ok i) :
    step s = exec i { s with input := rest } := by
  simp [step, fetch, hin, hd]

theorem step_of_decode_error {r : Reject} (hin : s.input = x :: rest) (hd : decode s.cfg x = .error r) :
    step s = .refused (refusalOf r) := by
  simp [step, fetch, hin, hd]

/-- With nothing presented the block holds its state (R246). -/
theorem step_of_input_nil (hin : s.input = []) : step s = .next s := by
  simp [step, fetch, hin]

/-- An operation presented before all others runs next, on the state as it was before it was presented. -/
theorem step_present_of_decode_ok (hd : decode s.cfg x = .ok i) : step (s.present x) = exec i s :=
  step_of_decode_ok (present_input s x) hd

theorem withFetchWord_of_tableInput {nbits w : Nat} (h : tableInput nbits w = some x) :
    s.withFetchWord nbits w = s.present x := by
  simp [State.withFetchWord, placeTableWord, h]

/-- Settles O6: the fetch by what stands at the inputs; an early word is the input that decodes to `overlap`. -/
theorem stepPerformsTheOldestInput : Obligations.StepPerformsTheOldestInput := by
  refine ⟨fun s x rest i => step_of_decode_ok, fun s x rest r => step_of_decode_error, ?early,
    fun s => step_of_input_nil, ?placed⟩
  case early =>
    intro s w rest hin
    exact step_of_decode_error hin rfl
  case placed =>
    intro s nbits w x i hx hd
    rw [withFetchWord_of_tableInput hx, step_present_of_decode_ok hd]

end Sys2Proof.Machine
end

