-- ==== Sys2Proof/Proofs/WordReader.lean ====
section
/-! PROOFS. A byte received inside a word (spec/43_framing_fsm.md R150 to R159): one equation of the word reader per case in
which the word goes on or overflows, and what `RXB` makes of the reader's answer in all three word states. -/

namespace Sys2Proof.Machine

/-! The delimiters (R7). -/

theorem isDelim_iff (b : Byte) :
    isDelim b = true ↔ b = 0x00#8 ∨ b = 0x20#8 ∨ b = 0x0D#8 ∨ b = 0x0A#8 ∨ b = 0x09#8 := by
  simp [isDelim, delims]

/-- The escape is no delimiter. -/
theorem isDelim_escByte : isDelim escByte = false := by decide

/-! The word reader, case by case: `wordStep_cases` with the other cases excluded. -/

section
variable {cap store : Nat} {b : Byte} {s : State}

theorem wordStep_leadingDelim (hp : s.wPhase = .skip) (hb : isDelim b = true) :
    wordStep cap store b s = (.more, s) := by
  have hne : b ≠ escByte := by rintro rfl; simp [isDelim_escByte] at hb
  simpa [hp, hb, hne] using wordStep_cases cap store b s

theorem wordStep_escByte (hp : s.wPhase ≠ .esc) :
    wordStep cap store escByte s = (.more, { s with wPhase := .esc }) := by
  simpa [hp, isDelim_escByte] using wordStep_cases cap store escByte s

theorem wordStep_escaped (hp : s.wPhase = .esc) (hl : s.wLen ≠ store) :
    wordStep cap store b s = (.more, storeByte b s) := by
  simpa [hp, hl] using wordStep_cases cap store b s

theorem wordStep_counted (hp : s.wPhase ≠ .esc) (hb : isDelim b = false) (he : b ≠ escByte) (hl : s.wLen ≠ store)
    (hc : (s.wCnt + 1#7).toNat ≠ cap) :
    wordStep cap store b s = (.more, { storeByte b s with wCnt := s.wCnt + 1#7 }) := by
  simpa [hp, hb, he, hl, hc, -BitVec.toNat_add] using wordStep_cases cap store b s

theorem wordStep_full (h : s.wPhase = .esc ∨ (isDelim b = false ∧ b ≠ escByte)) (hl : s.wLen = store) :
    wordStep cap store b s = (.overflow, s) := by
  rcases h with hp | ⟨hb, he⟩
  · simpa [hp, hl] using wordStep_cases cap store b s
  · simpa [hb, he, hl] using wordStep_cases cap store b s

end

/-! The byte received. -/

/-- What a finished word does in each of the word states (R157 to R159); the other states have no word. -/
def wordDone (st : RxSt) : State → State :=
  match st with
  | .sCmd => cmdFin
  | .sName => nameDone
  | .sValue => cfgFin
  | .sScan => id
  | .sType => id
  | .sPkt => id

/-- What becomes of the word reader's answer (R157 to R159). -/
def afterWordStep (st : RxSt) (r : WordResult × State) : State :=
  match r.1 with
  | .more => r.2
  | .done => wordDone st r.2
  | .overflow => r.2.discard .tokenOverflow

section
variable {cap store : Nat} {b : Byte} {s t : State}

/-- The three word states differ in the cap, the store bound and what a finished word does, and in nothing else. -/
theorem exec_rxb_word (hcap : capOf s.st = some cap) (hstore : storeOf s.cfg s.st = some store) :
    exec (.rxb b) s = .next (afterWordStep s.st (wordStep cap store b s)) := by
  change ofExcept (rxByte b s) = _
  rw [rxByte]
  cases hst : s.st <;> rw [hst] at hcap hstore <;> cases hcap <;> cases hstore
  case sCmd => rw [onCmd]; rcases wordStep capCmd s.cfg.store16 b s with ⟨_ | _ | _, t⟩ <;> rfl
  case sName => rw [onName]; rcases wordStep capName s.cfg.store16 b s with ⟨_ | _ | _, t⟩ <;> rfl
  case sValue => rw [onValue]; rcases wordStep capValue s.cfg.store64 b s with ⟨_ | _ | _, t⟩ <;> rfl

theorem exec_rxb_of_more (hcap : capOf s.st = some cap) (hstore : storeOf s.cfg s.st = some store)
    (h : wordStep cap store b s = (.more, t)) : exec (.rxb b) s = .next t := by
  rw [exec_rxb_word hcap hstore, h]; rfl

theorem exec_rxb_of_overflow (hcap : capOf s.st = some cap) (hstore : storeOf s.cfg s.st = some store)
    (h : wordStep cap store b s = (.overflow, t)) : exec (.rxb b) s = .next (t.discard .tokenOverflow) := by
  rw [exec_rxb_word hcap hstore, h]; rfl

end

/-- Settles O42: each clause is one case of the word reader, read through what `RXB` makes of its answer. -/
theorem wordReaderTransitions : Obligations.WordReaderTransitions := by
  refine ⟨isDelim_iff, fun b s cap store hcap hstore => ⟨?lead, ?escape, ?escaped, ?counted, ?overflow⟩⟩
  case lead => exact fun hp hb => exec_rxb_of_more hcap hstore (wordStep_leadingDelim hp hb)
  case escape =>
    rintro hp rfl
    exact exec_rxb_of_more hcap hstore (wordStep_escByte hp)
  case escaped => exact fun hp hl => exec_rxb_of_more hcap hstore (wordStep_escaped hp hl)
  case counted => exact fun hp hb he hl hc => exec_rxb_of_more hcap hstore (wordStep_counted hp hb he hl hc)
  case overflow => exact fun h hl => exec_rxb_of_overflow hcap hstore (wordStep_full h hl)

end Sys2Proof.Machine
end

