-- ==== Sys2Proof/Proofs/ReorderInvariant.lean ====
section
/-! PROOFS. The reorder invariant (spec/44_reorder.md R190) is kept by an accepted packet: what the slots stand for
(R138), what each change of the ring keeps, the branch taken, the drain. -/

namespace Sys2Proof.Machine

/-! The numbers the slots stand for (R138). -/

/-- Taking slots off the front renumbers nothing. -/
theorem slotSeq_drop (l : U16) (n j k : Nat) : slotSeq l (n - j) k = slotSeq l n (j + k) := by
  rw [slotSeq, slotSeq, show n - j - 1 - k = n - 1 - (j + k) by omega]

/-- With `d` slots more at the back and the newest number `d` later, a slot keeps its number. -/
theorem slotSeq_advance (l : U16) (d : Nat) {n k : Nat} (h : k < n) :
    slotSeq (l + BitVec.ofNat 16 d) (n + d) k = slotSeq l n k := by
  rw [slotSeq, slotSeq, show n + d - 1 - k = n - 1 - k + d by omega, BitVec.ofNat_add]
  exact add_sub_add_right_eq_sub l _ _

/-- The slot at the back stands for the newest number. -/
theorem slotSeq_back (l : U16) (n : Nat) : slotSeq l (n + 1) n = l := by simp [slotSeq]

theorem eq_add_delta (q l : U16) : q = l + BitVec.ofInt 16 (delta q l) := by
  rw [delta, BitVec.ofInt_toInt]
  exact (add_sub_cancel l q).symm

theorem seq_of_ahead {q l : U16} (h : 0 < delta q l) : q = l + BitVec.ofNat 16 (delta q l).toNat := by
  rw [← BitVec.ofInt_natCast, Int.toNat_of_nonneg h.le]
  exact eq_add_delta q l

theorem seq_of_behind {q l : U16} (h : delta q l ≤ 0) : q = l - BitVec.ofNat 16 (delta q l).natAbs := by
  have hneg : delta q l = -((delta q l).natAbs : Int) := by omega
  conv_lhs => rw [eq_add_delta q l, hneg, BitVec.ofInt_neg, BitVec.ofInt_natCast]
  exact (sub_eq_add_neg l _).symm

/-! The ring: what each change of it keeps of R190 (b) and (c). -/

section
variable {c : Config} {l : U16} {rb : List Slot} {p : Packet}

theorem slotsOk_nil : SlotsOk c l [] := by intro k q h; simp at h

theorem backOk_nil : BackOk [] := fun h => absurd rfl h

theorem backOk_append_full : BackOk (rb ++ [.full p]) := fun _ => ⟨p, by simp⟩

theorem slotsOk_drop (h : SlotsOk c l rb) (j : Nat) : SlotsOk c l (rb.drop j) := by
  intro k q hk
  rw [List.getElem?_drop] at hk
  rw [List.length_drop, slotSeq_drop]
  exact h (j + k) q hk

theorem backOk_drop (h : BackOk rb) (j : Nat) : BackOk (rb.drop j) := by
  intro hne
  have hj : j < rb.length := by simpa using hne
  obtain ⟨q, hq⟩ := h (List.ne_nil_of_length_pos (by omega))
  refine ⟨q, ?_⟩
  rw [List.getElem?_drop, List.length_drop, show j + (rb.length - j - 1) = rb.length - 1 by omega, hq]

/-- New-ahead (R185): gaps, then the packet, whose number is as far ahead as the ring grows. -/
theorem slotsOk_append (h : SlotsOk c l rb) (hv : pktValid c p = true) {d : Nat}
    (hseq : pktSeq p = l + BitVec.ofNat 16 (d + 1)) :
    SlotsOk c (pktSeq p) (rb ++ List.replicate d .empty ++ [.full p]) := by
  intro k q hk
  have hlen : (rb ++ List.replicate d Slot.empty ++ [Slot.full p]).length = rb.length + (d + 1) := by simp
  rw [hlen]
  rcases Nat.lt_trichotomy k (rb.length + d) with hlt | rfl | hgt
  · rw [List.getElem?_append_left (by simpa using hlt)] at hk
    rcases Nat.lt_or_ge k rb.length with hold | hgap
    · rw [List.getElem?_append_left hold] at hk
      rw [hseq, slotSeq_advance l (d + 1) hold]
      exact h k q hk
    · rw [List.getElem?_append_right hgap, List.getElem?_replicate] at hk
      split at hk <;> cases hk
  · rw [List.getElem?_append_right (by simp)] at hk
    obtain rfl : p = q := by simpa using hk
    exact ⟨(slotSeq_back _ _).symm, hv⟩
  · rw [List.getElem?_eq_none (by rw [hlen]; omega)] at hk
    cases hk

/-- Late or duplicate (R186): the packet goes to the slot that stands for its number. -/
theorem slotsOk_set (h : SlotsOk c l rb) (hv : pktValid c p = true) {j : Nat}
    (hseq : pktSeq p = slotSeq l rb.length j) : SlotsOk c l (rb.set j (.full p)) := by
  intro k q hk
  rw [List.length_set]
  by_cases hj : j = k
  · subst hj
    have hlt : j < rb.length := by simpa using (List.getElem?_eq_some_iff.mp hk).1
    rw [List.getElem?_set_self hlt] at hk
    cases hk
    exact ⟨hseq, hv⟩
  · rw [List.getElem?_set_ne hj] at hk
    exact h k q hk

theorem backOk_set (h : BackOk rb) (j : Nat) : BackOk (rb.set j (.full p)) := by
  intro hne
  rw [List.length_set]
  by_cases hj : j = rb.length - 1
  · have hpos : 0 < rb.length := by simpa [List.length_pos_iff] using hne
    exact ⟨p, by rw [hj, List.getElem?_set_self (by omega)]⟩
  · rw [List.getElem?_set_ne hj]
    exact h (by simpa using hne)

end

/-- An empty ring meets R190 in every window that is not too large (R222, R46). -/
theorem reorderOk_of_empty {s : State} (hrb : s.rb = []) (hmax : s.win.toNat ≤ s.cfg.wMax) : ReorderOk s := by
  refine ⟨⟨hmax, fun _ => hrb, fun hw => by simpa [hrb] using win_pos hw⟩, ?_⟩
  rw [hrb]
  exact ⟨rfl, backOk_nil, slotsOk_nil⟩

/-! An accepted packet (R182 to R189). -/

/-- What holds between the branch taken and the drain: R190 but for (a) and the front, which the drain restores. -/
structure BranchOk (s t : State) : Prop where
  cfg : t.cfg = s.cfg
  win : t.win = s.win
  back : BackOk t.rb
  slots : SlotsOk t.cfg t.lastSeq t.rb
  room : (t.rb.dropWhile Slot.occupied).length < s.win.toNat

theorem length_drained_le (rb : List Slot) : (rb.dropWhile Slot.occupied).length ≤ rb.length :=
  (List.dropWhile_sublist _).length_le

theorem branchOk_of_room {s t : State} (hcfg : t.cfg = s.cfg) (hwin : t.win = s.win) (hb : BackOk t.rb)
    (hs : SlotsOk t.cfg t.lastSeq t.rb) (hlen : t.rb.length < s.win.toNat) : BranchOk s t :=
  ⟨hcfg, hwin, hb, hs, (length_drained_le t.rb).trans_lt hlen⟩

section
variable {p : Packet} {s t : State}

theorem newAhead_branchOk (hs : SlotsOk s.cfg s.lastSeq s.rb) (hv : pktValid s.cfg p = true)
    (hd : 0 < delta (pktSeq p) s.lastSeq) (hw : delta (pktSeq p) s.lastSeq < s.win.toNat)
    (h : newAhead p (delta (pktSeq p) s.lastSeq).toNat s = .ok t) : BranchOk s t := by
  have hseq := seq_of_ahead hd
  obtain ⟨d, hd'⟩ : ∃ d, (delta (pktSeq p) s.lastSeq).toNat = d + 1 := ⟨_, (Nat.succ_pred (by omega)).symm⟩
  rw [hd'] at h hseq
  rw [newAhead_eq p (Nat.succ_pos d) (by omega)] at h
  cases h
  refine branchOk_of_room rfl rfl backOk_append_full (slotsOk_append (slotsOk_drop hs _) hv hseq) ?_
  simp only [List.length_append, List.length_drop, List.length_replicate, List.length_singleton]
  omega

theorem late_branchOk (hb : BackOk s.rb) (hs : SlotsOk s.cfg s.lastSeq s.rb) (hlen : s.rb.length < s.win.toNat)
    (hv : pktValid s.cfg p = true) (hd : delta (pktSeq p) s.lastSeq ≤ 0)
    (hin : (delta (pktSeq p) s.lastSeq).natAbs < s.rb.length) :
    BranchOk s { s with rb := s.rb.set (s.rb.length - 1 - (delta (pktSeq p) s.lastSeq).natAbs) (.full p) } := by
  have hseq : pktSeq p = slotSeq s.lastSeq s.rb.length (s.rb.length - 1 - (delta (pktSeq p) s.lastSeq).natAbs) := by
    rw [slotSeq, Nat.sub_sub_self (by omega)]
    exact seq_of_behind hd
  exact branchOk_of_room rfl rfl (backOk_set hb _) (slotsOk_set hs hv hseq) (by simpa using hlen)

/-- The drain empties the ring of one packet a restart leaves, so it has room in a window of 1 too. -/
theorem restart_branchOk (hw : s.win ≠ 0#16) (hv : pktValid s.cfg p = true) {es : List Event} :
    BranchOk s { s with rb := [.full p], events := es, lastSeq := pktSeq p } :=
  ⟨rfl, rfl, backOk_append_full (rb := []),
    slotsOk_append (rb := []) (l := pktSeq p - BitVec.ofNat 16 1) (d := 0) slotsOk_nil hv (sub_add_cancel _ _).symm,
    win_pos hw⟩

theorem reorderBranch_branchOk (h : ReorderOk s) (hw : s.win ≠ 0#16) (hv : pktValid s.cfg p = true)
    (ht : reorderBranch p s = .ok t) : BranchOk s t := by
  obtain ⟨⟨-, -, hroom⟩, -, hb, hs⟩ := h
  obtain ⟨u, hu, hcase⟩ := reorderBranch_cases p hw
  cases hu.symm.trans ht
  rcases hcase with ⟨hd, hdw, hnew⟩ | ⟨hd, hin, rfl⟩ | ⟨-, -, rfl⟩ | ⟨-, -, -, rfl⟩
  · exact newAhead_branchOk hs hv hd hdw hnew
  · exact late_branchOk hb hs (hroom hw) hv hd hin
  · exact restart_branchOk hw hv
  · exact branchOk_of_room rfl rfl hb hs (hroom hw)

/-- R190 is kept by an accepted packet that is valid. -/
theorem reorderAccept_keeps_reorderOk (h : ReorderOk s) (hv : pktValid s.cfg p = true)
    (ht : reorderAccept p s = .ok t) : ReorderOk t := by
  by_cases hw : s.win = 0#16
  · obtain ⟨⟨hmax, hnil, -⟩, -, -, -⟩ := h
    rw [reorderAccept, if_pos hw] at ht
    cases ht
    exact reorderOk_of_empty (hnil hw) hmax
  · obtain ⟨u, hu, -⟩ := reorderBranch_cases p hw
    obtain ⟨hcfg, hwin, hb, hs, hroom⟩ := reorderBranch_branchOk h hw hv hu
    obtain ⟨⟨hmax, -, -⟩, -, -, -⟩ := h
    cases (reorderAccept_on hw hu).symm.trans ht
    refine ⟨⟨?_, fun h0 => absurd (hwin.symm.trans h0) hw, fun _ => ?_⟩, frontOk_dropWhile u.rb, ?_, ?_⟩
    · simpa [hcfg, hwin] using hmax
    · simpa [hwin] using hroom
    · rw [← length_takeWhile_drop]
      exact backOk_drop hb _
    · rw [← length_takeWhile_drop]
      exact slotsOk_drop hs _

end

end Sys2Proof.Machine
end

