-- ==== Sys2Proof/Proofs/FramingInvariant.lean ====
section
/-! PROOFS. The framing machine's part of the invariant (spec/10_state.md R47 items 1 to 3, R28) is kept by the word reader,
by a finished word and by the bytes that select a frame (spec/43_framing_fsm.md R143 to R162). -/

namespace Sys2Proof.Machine

/-! The resting states (R21). -/

/-- What R47 says of the framing machine. -/
def FramingOk (s : State) : Prop := StoresOk s ∧ PacketReaderOk s ∧ WordReaderOk s ∧ NameOk s

/-- The registers of the word reader within the bounds of one word (R24 to R26, R47 item 3). -/
structure WordBounds (cap store : Nat) (s : State) : Prop where
  cnt_lt : s.wCnt.toNat < cap
  cnt_le : s.wCnt.toNat ≤ s.wLen
  len_le : s.wLen ≤ store
  skip : s.wPhase = .skip → s.wLen = 0
  copy : s.wPhase = .copy → 1 ≤ s.wLen

/-- A finished word: at least one byte, as many as the store holds, the terminator behind them (R155). -/
def WordFinished (store : Nat) (s : State) : Prop :=
  1 ≤ s.wLen ∧ s.wLen ≤ store ∧ s.tok[s.wLen]? = some termByte

section
variable {s : State}

/-- Where no packet, word or value is being read, only the stores have to be right. -/
theorem framingOk_of_idle (hst : s.st = .sScan ∨ s.st = .sType) (hs : StoresOk s) : FramingOk s := by
  refine ⟨hs, fun h => ?_, fun cap store h => ?_, fun h => ?_⟩ <;> rcases hst with e | e <;> rw [e] at h <;> cases h

theorem framingOk_of_pkt (hst : s.st = .sPkt) (hs : StoresOk s) (hc : s.rxCnt.toNat ≤ 30) : FramingOk s := by
  refine ⟨hs, fun _ => hc, fun cap store h => ?_, fun h => ?_⟩ <;> rw [hst] at h <;> cases h

/-- In the three word states the reader has to be within the bounds of that state's word. -/
theorem framingOk_of_word {cap store : Nat} (hcap : capOf s.st = some cap) (hstore : storeOf s.cfg s.st = some store)
    (hs : StoresOk s) (hw : WordBounds cap store s) (hn : NameOk s) : FramingOk s := by
  refine ⟨hs, fun h => ?_, fun cap' store' hcap' hstore' => ?_, hn⟩
  · rw [h] at hcap
    cases hcap
  · cases hcap.symm.trans hcap'
    cases hstore.symm.trans hstore'
    exact ⟨hw.cnt_lt, hw.cnt_le, hw.len_le, hw.skip, hw.copy⟩

/-- A frame given up leaves the stores alone and goes back to scanning (R237). -/
theorem framingOk_discard (hs : StoresOk s) (c : DropCause) : FramingOk (s.discard c) :=
  framingOk_of_idle (.inl rfl) hs

/-- A word that has just been started (R151). -/
theorem wordBounds_of_started {cap store : Nat} (hcap : 0 < cap) (hp : s.wPhase = .skip) (hc : s.wCnt = 0#7)
    (hl : s.wLen = 0) : WordBounds cap store s := by
  constructor <;> simp [hp, hc, hl, hcap]

end

/-! The word reader (R150 to R156). -/

section
variable {cap store : Nat} {b : Byte} {s u : State}

theorem wordBounds_storeByte (h : WordBounds cap store s) (hl : s.wLen ≠ store) :
    WordBounds cap store (storeByte b s) := by
  refine ⟨h.cnt_lt, h.cnt_le.trans (Nat.le_succ _), Nat.lt_of_le_of_ne h.len_le hl, fun hp => ?_, fun _ => ?_⟩
  · cases hp
  · exact Nat.le_add_left 1 _

/-- While a word goes on its registers stay in their bounds; the 7-bit counter does not wrap below a cap of at most
64 (R25). -/
theorem wordBounds_of_more (hcap : cap ≤ 64) (h : WordBounds cap store s)
    (hr : wordStep cap store b s = (.more, u)) : WordBounds cap store u := by
  rcases wordStep_cases cap store b s with ⟨-, -, e⟩ | ⟨-, -, e⟩ | ⟨-, -, e⟩ | ⟨-, -, e⟩ | ⟨-, hl, e⟩ |
    ⟨-, -, -, hl, hc, e⟩ | ⟨-, -, -, -, -, e⟩ <;> cases e.symm.trans hr
  · exact h
  · exact ⟨h.cnt_lt, h.cnt_le, h.len_le, (fun hp => by cases hp), (fun hp => by cases hp)⟩
  · exact wordBounds_storeByte h hl
  · have hlt := h.cnt_lt
    have hsucc : (s.wCnt + 1#7).toNat = s.wCnt.toNat + 1 := toNat_succ s.wCnt (by omega)
    have hstored := wordBounds_storeByte (b := b) h hl
    refine ⟨?_, ?_, hstored.len_le, hstored.skip, hstored.copy⟩
    · exact Nat.lt_of_le_of_ne (hsucc ▸ hlt) hc
    · exact hsucc ▸ Nat.succ_le_succ h.cnt_le

theorem wordFinished_of_done (h : WordBounds cap store s) (hlen : store < s.tok.length)
    (hr : wordStep cap store b s = (.done, u)) : WordFinished store u := by
  have hls := h.len_le
  rcases wordStep_cases cap store b s with ⟨-, -, e⟩ | ⟨hp, -, e⟩ | ⟨-, -, e⟩ | ⟨-, -, e⟩ | ⟨-, -, e⟩ |
    ⟨-, -, -, -, -, e⟩ | ⟨-, -, -, hl, -, e⟩ <;> cases e.symm.trans hr
  · exact ⟨h.copy hp, hls, List.getElem?_set_self (by omega)⟩
  · exact ⟨Nat.le_add_left 1 _, Nat.lt_of_le_of_ne hls hl,
      List.getElem?_set_self (by rw [List.length_set]; omega)⟩

theorem length_tok_wordStep : (wordStep cap store b s).2.tok.length = s.tok.length := by
  rcases wordStep_cases cap store b s with ⟨-, -, e⟩ | ⟨-, -, e⟩ | ⟨-, -, e⟩ | ⟨-, -, e⟩ | ⟨-, -, e⟩ |
    ⟨-, -, -, -, -, e⟩ | ⟨-, -, -, -, -, e⟩ <;> simp [e, storeByte_eq]

theorem wordStep_st : (wordStep cap store b s).2.st = s.st := by rw [wordStep_frame]

theorem wordStep_cfg : (wordStep cap store b s).2.cfg = s.cfg := by rw [wordStep_frame]

theorem storesOk_wordStep (h : StoresOk s) : StoresOk (wordStep cap store b s).2 := by
  obtain ⟨htok, hname⟩ := h
  have hlen : (wordStep cap store b s).2.tok.length = s.cfg.store64 + 1 := length_tok_wordStep.trans htok
  rw [wordStep_frame] at hlen ⊢
  exact ⟨hlen, hname⟩

theorem nameOk_wordStep (h : NameOk s) : NameOk (wordStep cap store b s).2 := by
  rw [wordStep_frame]
  exact h

end

/-! The finished words (R157 to R162). -/

theorem length_hexLoop (upper : Bool) (todo : Nat) :
    ∀ k tok n hi, (hexLoop upper todo k tok n hi).1.length = tok.length := by
  induction todo with
  | zero => intro k tok n hi; rfl
  | succ todo ih =>
    intro k tok n hi
    by_cases hsp : tok.getD k 0#8 = spaceByte
    · rw [hexLoop_space hsp, ih]
    cases hv : hexVal upper (tok.getD k 0#8) with
    | none => rw [hexLoop_bad hsp hv]
    | some v =>
      cases hi with
      | none => rw [hexLoop_high hsp hv, ih]
      | some high => rw [hexLoop_low hsp hv, ih, List.length_set]

section
variable {s : State}

theorem storesOk_hexDecode (h : StoresOk s) : StoresOk (hexDecode s).1 :=
  ⟨(length_hexLoop _ _ _ _ _ _).trans h.1, h.2⟩

theorem cmdFin_framingOk (h : StoresOk s) : FramingOk (cmdFin s) := by
  unfold cmdFin
  split
  · exact framingOk_discard h _
  · exact framingOk_of_idle (.inl rfl) h

theorem cfgFin_framingOk (h : StoresOk s) : FramingOk (cfgFin s) := by
  unfold cfgFin
  split
  · exact framingOk_discard h _
  · dsimp only
    split
    · exact framingOk_discard (storesOk_hexDecode h) _
    · exact framingOk_of_idle (.inl rfl) (storesOk_hexDecode h)

/-- The finished name stands in its store with its terminator, and the value starts (R28, R158). -/
theorem nameDone_framingOk (h : StoresOk s) (hf : WordFinished s.cfg.store16 s) : FramingOk (nameDone s) := by
  obtain ⟨hpos, hle, hterm⟩ := hf
  obtain ⟨htok, hname⟩ := h
  obtain ⟨n, hn, hlen, hget⟩ := memWrite_name s (s.tok.take (s.wLen + 1)) 0
  have hin : s.wLen < s.tok.length := (List.getElem?_eq_some_iff.mp hterm).1
  have hat : n[s.wLen]? = some termByte := by
    rw [hget, if_pos (by rw [List.length_take]; omega), Nat.sub_zero, List.getElem?_take_of_lt (Nat.lt_succ_self _)]
    exact hterm
  rw [nameDone, hn]
  exact framingOk_of_word (cap := capValue) rfl rfl ⟨htok, hlen.trans hname⟩
    (wordBounds_of_started (by decide) rfl rfl rfl) fun _ => ⟨hpos, hle, hat⟩

/-- What a finished word leaves, in each of the three word states. -/
theorem wordDone_framingOk {store : Nat} (hstore : storeOf s.cfg s.st = some store) (h : StoresOk s)
    (hf : WordFinished store s) : FramingOk (wordDone s.st s) := by
  cases hst : s.st <;> rw [hst] at hstore <;> cases hstore
  case sCmd => exact cmdFin_framingOk h
  case sName => exact nameDone_framingOk h hf
  case sValue => exact cfgFin_framingOk h

end

/-! One received byte (R143 to R159). -/

theorem ofExcept_eq_next {r : Except Refusal State} {t : State} : ofExcept r = .next t ↔ r = .ok t := by
  cases r <;> simp [ofExcept]

section
variable {b : Byte} {s t : State}

theorem rxByte_word {cap store : Nat} (hcap : capOf s.st = some cap) (hstore : storeOf s.cfg s.st = some store) :
    rxByte b s = .ok (afterWordStep s.st (wordStep cap store b s)) :=
  ofExcept_eq_next.mp (exec_rxb_word hcap hstore)

theorem capOf_le {st : RxSt} {cap : Nat} (h : capOf st = some cap) : cap ≤ 64 := by
  cases st <;> cases h <;> decide

theorem storeOf_le {c : Config} {st : RxSt} {store : Nat} (hc : c.Legal) (h : storeOf c st = some store) :
    store ≤ c.store64 := by
  obtain ⟨-, -, -, -, hle⟩ := hc
  cases st <;> cases h
  case sCmd => exact hle
  case sName => exact hle
  case sValue => exact Nat.le_refl _

/-- A byte inside a word (R157 to R159). -/
theorem afterWordStep_framingOk {cap store : Nat} (hc : s.cfg.Legal) (h : FramingOk s) (hcap : capOf s.st = some cap)
    (hstore : storeOf s.cfg s.st = some store) : FramingOk (afterWordStep s.st (wordStep cap store b s)) := by
  obtain ⟨hs, -, hword, hname⟩ := h
  have hw : WordBounds cap store s := by
    obtain ⟨hlt, hcl, hls, hskip, hcopy⟩ := hword cap store hcap hstore
    exact ⟨hlt, hcl, hls, hskip, hcopy⟩
  have hlen : store < s.tok.length := by
    rw [hs.1]
    exact Nat.lt_succ_of_le (storeOf_le hc hstore)
  have hs' := storesOk_wordStep (cap := cap) (store := store) (b := b) hs
  have hn' := nameOk_wordStep (cap := cap) (store := store) (b := b) hname
  have hst := wordStep_st (cap := cap) (store := store) (b := b) (s := s)
  have hcfg := wordStep_cfg (cap := cap) (store := store) (b := b) (s := s)
  rcases hr : wordStep cap store b s with ⟨r, u⟩
  simp only [hr] at hs' hn' hst hcfg
  rw [← hst] at hcap
  rw [← hst, ← hcfg] at hstore
  rw [← hst]
  cases r with
  | more => exact framingOk_of_word hcap hstore hs' (wordBounds_of_more (capOf_le hcap) hw hr) hn'
  | done => exact wordDone_framingOk hstore hs' (wordFinished_of_done hw hlen hr)
  | overflow => exact framingOk_discard hs' _

theorem onScan_framingOk (hs : StoresOk s) : FramingOk (onScan b s) := by
  unfold onScan
  split
  · exact framingOk_of_idle (.inr rfl) hs
  · exact framingOk_of_idle (.inl rfl) hs

theorem onType_framingOk (hs : StoresOk s) : FramingOk (onType b s) := by
  unfold onType
  split
  · exact framingOk_of_pkt rfl hs (Nat.zero_le _)
  split
  · exact framingOk_of_word (cap := capCmd) rfl rfl hs (wordBounds_of_started (by decide) rfl rfl rfl)
      (fun h => by cases h)
  split
  · exact framingOk_of_word (cap := capName) rfl rfl hs (wordBounds_of_started (by decide) rfl rfl rfl)
      (fun h => by cases h)
  · exact framingOk_discard hs _

end

end Sys2Proof.Machine
end

