-- ==== Sys2Proof/Proofs/StateInvariant.lean ====
section
/-! PROOFS. The invariant of R47 (spec/10_state.md): it holds after reset, with the values of R46, and every step keeps it.
Its three parts speak of the framing machine, the reorder state and the transmit side; an operation is taken part by part. -/

namespace Sys2Proof.Machine

/-! The invariant by the three parts of the state it speaks of (R59 item 4). -/

/-- What R47 says of the transmit side. -/
def TransmitOk (s : State) : Prop := MarkersOk s ∧ CurrentSlotOk s

theorem inv_iff (s : State) : Inv s ↔ s.cfg.Legal ∧ FramingOk s ∧ ReorderOk s ∧ TransmitOk s := by
  simp only [Inv, FramingOk, TransmitOk, and_assoc]

section
variable {s t : State}

theorem framingOk_congr (hf : t.framing = s.framing) (hc : t.cfg = s.cfg) (h : FramingOk s) : FramingOk t := by
  simp only [State.framing, Prod.mk.injEq] at hf
  simpa only [FramingOk, StoresOk, PacketReaderOk, WordReaderOk, NameOk, hf, hc] using h

theorem reorderOk_congr (hr : t.reorder = s.reorder) (hc : t.cfg = s.cfg) (h : ReorderOk s) : ReorderOk t := by
  simp only [State.reorder, Prod.mk.injEq] at hr
  simpa only [ReorderOk, WindowOk, hr, hc] using h

theorem transmitOk_congr (htx : t.txSide = s.txSide) (h : TransmitOk s) : TransmitOk t := by
  simp only [State.txSide, Prod.mk.injEq] at htx
  simpa only [TransmitOk, MarkersOk, CurrentSlotOk, State.histAt, State.cur, htx] using h

theorem inv_of_receive (h : Inv s) (htx : t.txSide = s.txSide) (hc : t.cfg = s.cfg) (hf : FramingOk t)
    (hr : ReorderOk t) : Inv t := by
  obtain ⟨hlegal, -, -, ht⟩ := (inv_iff s).mp h
  exact (inv_iff t).mpr ⟨hc ▸ hlegal, hf, hr, transmitOk_congr htx ht⟩

theorem inv_of_transmit (h : Inv s) (hf : t.framing = s.framing) (hr : t.reorder = s.reorder) (hc : t.cfg = s.cfg)
    (htx : TransmitOk t) : Inv t := by
  obtain ⟨hlegal, hf', hr', -⟩ := (inv_iff s).mp h
  exact (inv_iff t).mpr ⟨hc ▸ hlegal, framingOk_congr hf hc hf', reorderOk_congr hr hc hr', htx⟩

end

/-! Reset (R46, R220). -/

theorem histAt_initial (c : Config) (i : SlotIndex) : (State.initial c).histAt i = pktEmpty 0#16 := by
  simp [State.histAt, State.initial]

theorem pktEmpty_marked (q : U16) : pktByte (pktEmpty q) 0 = markByte ∧ pktByte (pktEmpty q) 1 = typeR := by
  simp [pktByte_pktEmpty]

theorem transmitOk_initial (c : Config) : TransmitOk (State.initial c) := by
  refine ⟨fun i => ?_, ?_⟩
  · rw [histAt_initial]
    exact pktEmpty_marked _
  · rw [CurrentSlotOk, histAt_initial]
    exact pktSeq_pktEmpty _

theorem inv_initial {c : Config} (hc : c.Legal) : Inv (State.initial c) :=
  (inv_iff _).mpr ⟨hc, framingOk_of_idle (.inl rfl) ⟨List.length_replicate, List.length_replicate⟩,
    reorderOk_of_empty rfl (Nat.zero_le _), transmitOk_initial c⟩

/-- Settles O57: the default parameters are legal. -/
theorem resetMeetsInvariant : Obligations.ResetMeetsInvariant := inv_initial (by decide)

/-- Settles O10: the stores are replicas of 00, every history slot is `pkt_empty(0)` read byte by byte. -/
theorem resetLeavesTheTabulatedState : Obligations.ResetLeavesTheTabulatedState := by
  refine ⟨rfl, rfl, ?rxbuf, rfl, rfl, rfl, rfl, ⟨List.length_replicate, fun _ => List.eq_of_mem_replicate⟩,
    ⟨List.length_replicate, fun _ => List.eq_of_mem_replicate⟩, rfl, rfl, rfl, rfl, rfl, ?hist⟩
  case rxbuf =>
    intro k hk
    rw [pktByte_eq_getElem _ hk]
    exact Vector.getElem_replicate hk
  case hist =>
    intro i k _
    rw [State.reset, histAt_initial, pktByte_pktEmpty]
    simp [markByte, typeR, hiByte, loByte]

/-! The transmit side (R120, R121, R201). -/

/-- The bytes before the payload agree: the marker and the sequence number (R110). -/
def SameHeader (p q : Packet) : Prop := ∀ k, k < 4 → pktByte p k = pktByte q k

section
variable {p q : Packet} {s : State}

theorem SameHeader.marked (h : SameHeader p q) (hq : pktByte q 0 = markByte ∧ pktByte q 1 = typeR) :
    pktByte p 0 = markByte ∧ pktByte p 1 = typeR := by
  rwa [h 0 (by decide), h 1 (by decide)]

theorem SameHeader.seq_eq (h : SameHeader p q) : pktSeq p = pktSeq q := by
  rw [pktSeq, pktSeq, be16, be16, h 2 (by decide), h 3 (by decide)]

theorem sameHeader_pktSetByte (p : Packet) (off : Nat) (b : Byte) : SameHeader (pktSetByte p (4 + off) b) p :=
  fun _ hk => pktByte_pktSetByte_ne p b (by omega)

theorem sameHeader_smpPut (p : Packet) (ch : Nat) (raw : U24) : SameHeader (smpPut p ch raw) p :=
  fun k hk => pktByte_smpPut_other p ch raw k (.inl (by omega))

theorem sameHeader_finalSlot (s : State) (i : SlotIndex) : SameHeader (finalSlot s i) (s.histAt i) := by
  intro k hk
  rw [finalSlot]
  split
  · exact pktByte_pktFinalize_lt _ _ (by omega)
  · rfl

theorem inv_setHist_cur (h : Inv s) (hp : SameHeader p (s.histAt s.cur)) : Inv (s.setHist s.cur p) := by
  obtain ⟨-, -, -, hm, hcur⟩ := (inv_iff s).mp h
  refine inv_of_transmit h rfl rfl rfl ⟨fun i => ?_, ?_⟩
  · rw [histAt_setHist]
    split
    · exact hp.marked (hm s.cur)
    · exact hm i
  · rw [CurrentSlotOk, cur_setHist, histAt_setHist, if_pos rfl, hp.seq_eq]
    exact hcur

theorem putSample_keeps_inv (h : Inv s) (ch : Nat) (raw : U24) : Inv (putSample ch raw s) :=
  inv_setHist_cur h (sameHeader_smpPut _ ch raw)

theorem putSamples_keeps_inv (raws : List U24) : ∀ (ch : Nat) (s : State), Inv s → Inv (putSamples ch raws s) := by
  induction raws with
  | nil => exact fun _ _ h => h
  | cons raw raws ih => exact fun ch s h => ih (ch + 1) _ (putSample_keeps_inv h ch raw)

/-- The slot `BEGIN` opens is `pkt_empty` of the new number; no header of another slot changes (R202, R208). -/
theorem beginSample_keeps_inv (h : Inv s) : Inv (beginSample s) := by
  obtain ⟨-, -, -, hm, -⟩ := (inv_iff s).mp h
  have hseq : (beginSample s).seqTx = s.seqTx + 1#16 := by rw [beginSample_eq]
  refine inv_of_transmit h ?_ ?_ ?_ ⟨fun i => ?_, ?_⟩
  · rw [beginSample_eq]; rfl
  · rw [beginSample_eq]; rfl
  · rw [beginSample_eq]
  · rw [histAt_beginSample]
    split
    · exact pktEmpty_marked _
    · exact (sameHeader_finalSlot s i).marked (hm i)
  · rw [CurrentSlotOk, State.cur, hseq, histAt_beginSample, if_pos rfl, pktSeq_pktEmpty]

end

/-! The receive side (R142, R223). -/

section
variable {b : Byte} {s t : State}

theorem reorder_wordDone (st : RxSt) (s : State) : (wordDone st s).reorder = s.reorder := by
  cases st
  case sCmd => rw [wordDone, cmdFin]; split <;> rfl
  case sName =>
    obtain ⟨n, hn, -, -⟩ := memWrite_name s (s.tok.take (s.wLen + 1)) 0
    rw [wordDone, nameDone, hn]
    rfl
  case sValue =>
    rw [wordDone, cfgFin]
    split
    · rfl
    · dsimp only
      split <;> rfl
  case sScan => rfl
  case sType => rfl
  case sPkt => rfl

theorem reorder_afterWordStep (st : RxSt) (cap store : Nat) :
    (afterWordStep st (wordStep cap store b s)).reorder = s.reorder := by
  have hframe : (wordStep cap store b s).2.reorder = s.reorder := by rw [wordStep_frame]; rfl
  rw [afterWordStep]
  split
  · exact hframe
  · exact (reorder_wordDone st _).trans hframe
  · exact hframe

theorem reorder_onScan : (onScan b s).reorder = s.reorder := by
  unfold onScan
  split <;> rfl

theorem reorder_onType : (onType b s).reorder = s.reorder := by
  unfold onType
  split
  · rfl
  split
  · rfl
  split <;> rfl

/-- A finished packet goes to the reorder algorithm if its checksum holds, and back to scanning (R146). -/
theorem pktFin_keeps_receive (hs : StoresOk s) (hr : ReorderOk s) (ht : pktFin s = .ok t) :
    FramingOk t ∧ ReorderOk t := by
  rw [pktFin_eq] at ht
  split at ht
  case isTrue hv =>
    obtain ⟨u, hu⟩ := reorderAccept_ok (pktMark s.rxbuf) (marked s)
    rw [hu] at ht
    cases ht
    have hru : ReorderOk u := reorderAccept_keeps_reorderOk (s := marked s) hr hv hu
    refine ⟨framingOk_of_idle (.inl rfl) ?_, hru⟩
    rw [reorderAccept_frame hu]
    exact hs
  case isFalse =>
    cases ht
    exact ⟨framingOk_discard hs .badCrc, hr⟩

/-- A body byte: the 31st finishes the packet, before it the 5-bit counter stays at most 30 (R22, R145). -/
theorem onPkt_keeps_receive (hst : s.st = .sPkt) (hf : FramingOk s) (hr : ReorderOk s) (ht : onPkt b s = .ok t) :
    FramingOk t ∧ ReorderOk t := by
  obtain ⟨hs, hcnt, -, -⟩ := hf
  have h30 := hcnt hst
  have hsucc : (s.rxCnt + 1#5).toNat = s.rxCnt.toNat + 1 := toNat_succ s.rxCnt (by omega)
  rw [onPkt_eq, hsucc] at ht
  split at ht
  case isTrue => exact pktFin_keeps_receive (s := bodyStored b s) hs hr ht
  case isFalse hne =>
    cases ht
    refine ⟨framingOk_of_pkt hst hs ?_, hr⟩
    change (s.rxCnt + 1#5).toNat ≤ 30
    rw [hsucc]
    exact Nat.le_of_lt_succ (Nat.lt_of_le_of_ne (Nat.succ_le_succ h30) hne)

/-- By the state that takes the byte (R142); the three word states share one argument. -/
theorem rxByte_keeps_receive (hc : s.cfg.Legal) (hf : FramingOk s) (hr : ReorderOk s) (ht : rxByte b s = .ok t) :
    FramingOk t ∧ ReorderOk t := by
  obtain ⟨-, -, hout, -⟩ := rxByte_frame ht
  have hcfg : t.cfg = s.cfg := congrArg Prod.fst hout
  have word : ∀ {cap store}, capOf s.st = some cap → storeOf s.cfg s.st = some store →
      FramingOk t ∧ ReorderOk t := by
    intro cap store hcap hstore
    cases (rxByte_word hcap hstore).symm.trans ht
    exact ⟨afterWordStep_framingOk hc hf hcap hstore, reorderOk_congr (reorder_afterWordStep _ _ _) hcfg hr⟩
  cases hst : s.st
  case sScan =>
    simp only [rxByte, hst] at ht
    cases ht
    exact ⟨onScan_framingOk hf.1, reorderOk_congr reorder_onScan hcfg hr⟩
  case sType =>
    simp only [rxByte, hst] at ht
    cases ht
    exact ⟨onType_framingOk hf.1, reorderOk_congr reorder_onType hcfg hr⟩
  case sPkt =>
    simp only [rxByte, hst] at ht
    exact onPkt_keeps_receive hst hf hr ht
  case sCmd => exact word (congrArg capOf hst) (congrArg (storeOf s.cfg) hst)
  case sName => exact word (congrArg capOf hst) (congrArg (storeOf s.cfg) hst)
  case sValue => exact word (congrArg capOf hst) (congrArg (storeOf s.cfg) hst)

theorem rxByte_keeps_inv (h : Inv s) (ht : rxByte b s = .ok t) : Inv t := by
  obtain ⟨hc, hf, hr, -⟩ := (inv_iff s).mp h
  obtain ⟨htx, -, hout, -⟩ := rxByte_frame ht
  obtain ⟨hf', hr'⟩ := rxByte_keeps_receive hc hf hr ht
  exact inv_of_receive h htx (congrArg Prod.fst hout) hf' hr'

end

theorem rxBytes_keeps_inv (bs : List Byte) : ∀ {s t : State}, Inv s → rxBytes bs s = .ok t → Inv t := by
  induction bs with
  | nil =>
    intro s t h ht
    cases ht
    exact h
  | cons b bs ih =>
    intro s t h ht
    obtain ⟨u, hu⟩ := rxByte_ok b s
    rw [rxBytes_cons hu] at ht
    exact ih (rxByte_keeps_inv h hu) ht

section
variable {s t : State}

theorem ofExcept_rxBytes_keeps_inv {bs : List Byte} (h : Inv s) (ht : ofExcept (rxBytes bs s) = .next t) : Inv t :=
  rxBytes_keeps_inv bs h (ofExcept_eq_next.mp ht)

/-! The other operations. -/

theorem resetOp_keeps_inv (h : Inv s) : Inv (resetOp s) := inv_initial h.1

theorem crcChain_keeps_inv (bs : List Byte) : ∀ (crc : U16) (s : State), Inv s → Inv (crcChain crc bs s) := by
  induction bs with
  | nil => exact fun _ _ h => h
  | cons b bs ih => exact fun crc s h => ih _ (crcStepResult crc b s) h

theorem execPaywr_keeps_inv {off b : Byte} (h : Inv s) (ht : execPaywr off b s = .next t) : Inv t := by
  unfold execPaywr at ht
  split at ht
  case isTrue => cases ht
  case isFalse hoff =>
    cases ht
    rw [writeByte_payload s b (Nat.le_of_not_lt hoff)]
    exact inv_setHist_cur h (sameHeader_pktSetByte _ _ b)

theorem execSmpwr_keeps_inv {ch : BitVec 4} {raw : U24} (h : Inv s) (ht : execSmpwr ch raw s = .next t) : Inv t := by
  unfold execSmpwr at ht
  split at ht
  case isTrue => cases ht
  case isFalse =>
    cases ht
    exact putSample_keeps_inv h _ raw

theorem execSetord_keeps_inv {m : BitVec 2} (h : Inv s) (ht : execSetord m s = .next t) : Inv t := by
  unfold execSetord at ht
  split at ht <;> cases ht
  exact h

/-- `SETWIN` flushes the ring before it sets a window, which is at most `W_MAX` (R222). -/
theorem execSetwin_keeps_inv {size : U16} (h : Inv s) (ht : execSetwin size s = .next t) : Inv t := by
  obtain ⟨-, hf, -, -⟩ := (inv_iff s).mp h
  unfold execSetwin at ht
  split at ht
  case isTrue => cases ht
  case isFalse hmax =>
    rw [flush_eq] at ht
    cases ht
    exact inv_of_receive h rfl rfl hf (reorderOk_of_empty rfl (Nat.le_of_not_lt hmax))

theorem exec_keeps_inv {i : Instr} (h : Inv s) (ht : exec i s = .next t) : Inv t := by
  cases i
  case reset => cases ht; exact resetOp_keeps_inv h
  case rxb b => exact rxByte_keeps_inv h (ofExcept_eq_next.mp ht)
  case beginOp => cases ht; exact beginSample_keeps_inv h
  case paywr off b => exact execPaywr_keeps_inv h ht
  case smpwr ch raw => exact execSmpwr_keeps_inv h ht
  case setord m => exact execSetord_keeps_inv h ht
  case setwin size => exact execSetwin_keeps_inv h ht
  case crcupd crc b => cases ht; exact h
  case reservedOp low => cases ht
  case frameR body => exact ofExcept_rxBytes_keeps_inv h ht
  case frameC body => exact ofExcept_rxBytes_keeps_inv h ht
  case frameD body => exact ofExcept_rxBytes_keeps_inv h ht
  case frameOther type => exact ofExcept_rxBytes_keeps_inv h ht
  case feed bytes => exact ofExcept_rxBytes_keeps_inv h ht
  case crcCompute bytes => cases ht; exact crcChain_keeps_inv bytes _ s h
  case sample raws => cases ht; exact putSamples_keeps_inv raws.toList 0 _ (beginSample_keeps_inv h)
  case feedpkt p => exact ofExcept_rxBytes_keeps_inv h ht

end

/-- Settles O56: the invariant does not speak of the inputs, and every operation keeps it. -/
theorem stepKeepsInvariant : Obligations.StepKeepsInvariant := by
  intro s t h ht
  cases hin : s.input with
  | nil =>
    rw [step_of_input_nil hin] at ht
    cases ht
    exact h
  | cons x rest =>
    cases hd : decode s.cfg x with
    | ok i =>
      rw [step_of_decode_ok hin hd] at ht
      exact exec_keeps_inv (s := { s with input := rest }) h ht
    | error r =>
      rw [step_of_decode_error hin hd] at ht
      cases ht

end Sys2Proof.Machine
end

