-- ==== Sys2Proof/Proofs/TwoSides.lean ====
section
/-! PROOFS. The two sides of the block share no state (spec/20_memory.md R59 item 4, spec/45_transmit.md R200): what a
receive operation, a transmit operation and every other operation leaves alone. -/

namespace Sys2Proof.Machine

/-- A receive operation is `SETWIN` or the receipt of some bytes in order (R12, R222, R223). -/
theorem setwin_or_rxBytes_of_isReceive {i : Instr} (h : isReceive i = true) :
    (∃ size, i = .setwin size) ∨ ∃ bytes, ∀ s, exec i s = ofExcept (rxBytes bytes s) := by
  cases i <;> cases h
  case rxb b =>
    refine .inr ⟨[b], fun s => ?_⟩
    obtain ⟨t, ht⟩ := rxByte_ok b s
    rw [rxBytes_cons ht]
    exact congrArg ofExcept ht
  case setwin size => exact .inl ⟨size, rfl⟩
  case frameR body => exact .inr ⟨_, fun _ => rfl⟩
  case frameC body => exact .inr ⟨_, fun _ => rfl⟩
  case frameD body => exact .inr ⟨_, fun _ => rfl⟩
  case frameOther type => exact .inr ⟨_, fun _ => rfl⟩
  case feed bytes => exact .inr ⟨_, fun _ => rfl⟩
  case feedpkt p => exact .inr ⟨_, fun _ => rfl⟩

/-- `SETWIN` in closed form: the ring flushed, then the window set (R222). -/
theorem exec_setwin (size : U16) (s : State) :
    exec (.setwin size) s =
      if s.cfg.wMax < size.toNat then .refused .reservedOperand
      else .next { s with rb := [], events := s.events ++ arrivals s.rb, win := size } := by
  change execSetwin size s = _
  rw [execSetwin, flush_eq]
  rfl

/-- A chain of `CRCUPD` touches the result port only (R106). -/
theorem crcChain_frame (bs : List Byte) : ∀ crc s, ∃ rs, crcChain crc bs s = { s with results := rs } := by
  induction bs with
  | nil => exact fun _ s => ⟨s.results, rfl⟩
  | cons b bs ih => exact fun crc s => ih (crcUpdate s.cfg crc b) (crcStepResult crc b s)

section
variable {i : Instr} {s t : State}

theorem exec_receive_frame (hi : isReceive i = true) (ht : exec i s = .next t) :
    t.outside = s.outside ∧ t.txSide = s.txSide ∧ t.results = s.results := by
  rcases setwin_or_rxBytes_of_isReceive hi with ⟨size, rfl⟩ | ⟨bytes, hexec⟩
  · rw [exec_setwin] at ht
    split at ht <;> cases ht
    exact ⟨rfl, rfl, rfl⟩
  · obtain ⟨htx, -, hout, hres⟩ := rxBytes_frame (ofExcept_eq_next.mp ((hexec s).symm.trans ht))
    exact ⟨hout, htx, hres⟩

/-- What a transmit operation writes: the transmit side, the records and the results; the rest stays. -/
theorem exec_transmit_frame (hi : isTransmit i = true) (ht : exec i s = .next t) :
    t = { s with mode := t.mode, seqTx := t.seqTx, hist := t.hist, events := t.events, results := t.results } := by
  cases i <;> cases hi
  case beginOp =>
    cases ht
    rw [beginSample_eq]
  case paywr off b =>
    change execPaywr off b s = _ at ht
    unfold execPaywr at ht
    split at ht <;> cases ht
    rw [writeByte_payload s b (by omega)]
    rfl
  case smpwr ch raw =>
    change execSmpwr ch raw s = _ at ht
    unfold execSmpwr at ht
    split at ht <;> cases ht
    rfl
  case setord m =>
    change execSetord m s = _ at ht
    unfold execSetord at ht
    split at ht <;> cases ht
    rfl
  case sample raws =>
    cases ht
    obtain ⟨p, hp⟩ := putSamples_frame raws.toList 0 (beginSample s)
    rw [hp, beginSample_eq]
    rfl

/-- The operations of neither side are `RESET`, the checksum operations and the reserved codes (R105, R106, R220, R224). -/
theorem exec_neither_frame (hr : isReceive i = false) (htx : isTransmit i = false) (ht : exec i s = .next t) :
    t.outside = s.outside := by
  cases i <;> cases hr <;> cases htx
  case reset => cases ht; rfl
  case crcupd crc b => cases ht; rfl
  case reservedOp low => cases ht
  case crcCompute bytes =>
    cases ht
    obtain ⟨rs, hrs⟩ := crcChain_frame bytes 0#16 s
    rw [hrs]
    rfl

theorem exec_outside (ht : exec i s = .next t) : t.outside = s.outside := by
  cases hr : isReceive i with
  | true => exact (exec_receive_frame hr ht).1
  | false =>
    cases htx : isTransmit i with
    | true => rw [exec_transmit_frame htx ht]; rfl
    | false => exact exec_neither_frame hr htx ht

end

/-- Settles O54: what each family of operations leaves alone. -/
theorem sidesShareNoState : Obligations.SidesShareNoState := by
  intro i s t ht
  refine ⟨exec_outside ht, fun hi => (exec_receive_frame hi ht).2, fun hi => ?_⟩
  rw [exec_transmit_frame hi ht]
  exact ⟨rfl, rfl, rfl⟩

end Sys2Proof.Machine
end

