-- ==== Sys2Proof/Proofs/ReceiveNoninterference.lean ====
section
/-! PROOFS. What a receive operation does depends on nothing of the transmit side (spec/20_memory.md R59 item 4): it commutes
with exchanging all it may not read (`State.behind`), so states that differ in that alone are led where their common part
leads. -/

namespace Sys2Proof.Machine

/-- `s` with everything a receive operation may not read taken from `u`: the transmit side, the inputs, the results, and the
records and drops that left before those of `s`. -/
def State.behind (u s : State) : State :=
  { s with mode := u.mode, seqTx := u.seqTx, hist := u.hist, input := u.input, results := u.results,
           events := u.events ++ s.events, drops := u.drops ++ s.drops }

/-- `s` with no record on the event port and no drop in the trace. -/
def State.silent (s : State) : State := { s with events := [], drops := [] }

/-- A state is given by its receive side, heard from silence, and by all the rest. -/
theorem behind_silent {s u : State} (hf : s.framing = u.framing) (hr : s.reorder = u.reorder) (hc : s.cfg = u.cfg) :
    u.behind s.silent = u := by
  simp only [State.framing, Prod.mk.injEq] at hf
  simp only [State.reorder, Prod.mk.injEq] at hr
  simp [State.behind, State.silent, hf, hr, hc]

section
variable (u s : State) (b : Byte) (p : Packet)

@[simp] theorem behind_st : (u.behind s).st = s.st := rfl
@[simp] theorem behind_wPhase : (u.behind s).wPhase = s.wPhase := rfl
@[simp] theorem behind_cfg : (u.behind s).cfg = s.cfg := rfl

/-! The shared operations (R11, R183, R237). -/

theorem emit_behind (e : Event) : (u.behind s).emit e = u.behind (s.emit e) := by
  simp [State.behind, State.emit]

theorem dropped_behind (c : DropCause) : (u.behind s).dropped c = u.behind (s.dropped c) := by
  simp [State.behind, State.dropped]

theorem discard_behind (c : DropCause) : (u.behind s).discard c = u.behind (s.discard c) :=
  congrArg State.toScan (dropped_behind u s c)

theorem evict_behind (k : Nat) : (u.behind s).evict k = u.behind (s.evict k) := by
  simp [State.behind, State.evict]

theorem memWrite_name_behind (bs : List Byte) :
    ∀ a s, (u.behind s).memWrite .name a bs = u.behind (s.memWrite .name a bs) := by
  induction bs with
  | nil => exact fun _ _ => rfl
  | cons b bs ih => exact fun a s => ih (a + 1) (s.writeByte .name a b)

/-! A choice, and one operation after the other. -/

/-- What commutes on both branches of a choice commutes on the choice. -/
theorem ite_commutes {α β : Type} (f : α → β) {c : Prop} [Decidable c] {x y : α} {x' y' : β} (hx : x' = f x)
    (hy : y' = f y) : (if c then x' else y') = f (if c then x else y) := by
  rw [hx, hy, apply_ite f]

theorem bind_behind {f g : State → Except Refusal State} (hf : f (u.behind s) = (f s).map u.behind)
    (hg : ∀ t, g (u.behind t) = (g t).map u.behind) : (f (u.behind s) >>= g) = (f s >>= g).map u.behind := by
  rw [hf]
  cases f s with
  | error e => rfl
  | ok t => exact hg t

/-- A ring operation reads the ring alone, so only what follows it has to commute. -/
theorem ring_bind_behind (ring : Except Refusal (List Slot)) {f g : List Slot → Except Refusal State}
    (h : ∀ rb, f rb = (g rb).map u.behind) : (ring >>= f) = (ring >>= g).map u.behind := by
  cases ring with
  | error e => rfl
  | ok rb => exact h rb

/-! The reorder algorithm (R182 to R189). -/

theorem flush_behind : flush (u.behind s) = (flush s).map u.behind := by
  rw [flush, flush, evictWhile_eq _ _ _ le_rfl, evictWhile_eq _ _ _ le_rfl, evict_behind]
  rfl

theorem makeRoom_behind (d w : Nat) : makeRoom d w (u.behind s) = (makeRoom d w s).map u.behind := by
  rw [makeRoom_eq, makeRoom_eq, evict_behind]
  rfl

theorem drain_behind : drain (u.behind s) = (drain s).map u.behind := by
  rw [drain_eq, drain_eq, evict_behind]
  rfl

theorem newAhead_behind (d : Nat) : newAhead p d (u.behind s) = (newAhead p d s).map u.behind :=
  bind_behind u s (makeRoom_behind u s d s.win.toNat) fun t =>
    ring_bind_behind u (rbExtendEmpty t.win.toNat t.rb d) fun rb =>
      ring_bind_behind u (rbSet rb (rb.length - 1) (.full p)) fun _ => rfl

theorem late_behind (d : Int) : late p d (u.behind s) = (late p d s).map u.behind :=
  ring_bind_behind u (rbSet s.rb ((s.rb.length : Int) - 1 + d).toNat (.full p)) fun _ => rfl

theorem windowRestart_behind : windowRestart p (u.behind s) = (windowRestart p s).map u.behind :=
  bind_behind u s (flush_behind u s) fun t => ring_bind_behind u (rbAppend t.win.toNat t.rb (.full p)) fun _ => rfl

theorem reorderBranch_behind : reorderBranch p (u.behind s) = (reorderBranch p s).map u.behind :=
  ite_commutes (Except.map u.behind) (newAhead_behind u s p _) <|
    ite_commutes (Except.map u.behind) (late_behind u s p _) <|
      ite_commutes (Except.map u.behind) (windowRestart_behind u s p) (congrArg Except.ok (dropped_behind u s .stale))

theorem reorderAccept_behind : reorderAccept p (u.behind s) = (reorderAccept p s).map u.behind := by
  refine ite_commutes (Except.map u.behind) ?_ (bind_behind u s (reorderBranch_behind u s p) (drain_behind u))
  rw [emit_behind]
  rfl

/-! The framing machine (R143 to R162). -/

theorem pktFin_behind : pktFin (u.behind s) = (pktFin s).map u.behind := by
  rw [pktFin_eq, pktFin_eq]
  refine ite_commutes (Except.map u.behind) ?_ (congrArg Except.ok (discard_behind u (marked s) .badCrc))
  change (reorderAccept (pktMark s.rxbuf) (u.behind (marked s))).map State.toScan = _
  rw [reorderAccept_behind]
  cases reorderAccept (pktMark s.rxbuf) (marked s) <;> rfl

theorem onPkt_behind : onPkt b (u.behind s) = (onPkt b s).map u.behind := by
  rw [onPkt_eq, onPkt_eq]
  exact ite_commutes (Except.map u.behind) (pktFin_behind u (bodyStored b s)) rfl

theorem onScan_behind : onScan b (u.behind s) = u.behind (onScan b s) := ite_commutes u.behind rfl rfl

theorem onType_behind : onType b (u.behind s) = u.behind (onType b s) :=
  ite_commutes u.behind rfl (ite_commutes u.behind rfl (ite_commutes u.behind rfl (discard_behind u s .badType)))

theorem wordOther_behind (cap store : Nat) :
    wordStep.wordOther cap store b (u.behind s) = (wordStep.wordOther cap store b s).map id u.behind :=
  ite_commutes (Prod.map id u.behind) rfl <| ite_commutes (Prod.map id u.behind) rfl <|
    ite_commutes (Prod.map id u.behind) rfl rfl

theorem wordStep_behind (cap store : Nat) :
    wordStep cap store b (u.behind s) = (wordStep cap store b s).map id u.behind := by
  rw [wordStep, wordStep, behind_wPhase]
  cases s.wPhase
  case esc => exact ite_commutes (Prod.map id u.behind) rfl rfl
  case skip => exact ite_commutes (Prod.map id u.behind) rfl (wordOther_behind u s b cap store)
  case copy => exact ite_commutes (Prod.map id u.behind) rfl (wordOther_behind u s b cap store)

theorem cmdFin_behind : cmdFin (u.behind s) = u.behind (cmdFin s) :=
  ite_commutes u.behind (discard_behind u s .emptyToken) (congrArg State.toScan (emit_behind u s _))

theorem nameDone_behind : nameDone (u.behind s) = u.behind (nameDone s) := by
  rw [nameDone, memWrite_name_behind]
  rfl

theorem cfgFin_behind : cfgFin (u.behind s) = u.behind (cfgFin s) :=
  ite_commutes u.behind (discard_behind u s .emptyToken) <|
    ite_commutes u.behind (discard_behind u (hexDecode s).1 .badHex)
      (congrArg State.toScan (emit_behind u (hexDecode s).1 _))

theorem wordDone_behind (st : RxSt) : wordDone st (u.behind s) = u.behind (wordDone st s) := by
  cases st
  case sCmd => exact cmdFin_behind u s
  case sName => exact nameDone_behind u s
  case sValue => exact cfgFin_behind u s
  case sScan => rfl
  case sType => rfl
  case sPkt => rfl

theorem afterWordStep_behind (st : RxSt) (r : WordResult × State) :
    afterWordStep st (r.map id u.behind) = u.behind (afterWordStep st r) := by
  rcases r with ⟨_ | _ | _, t⟩
  case more => rfl
  case done => exact wordDone_behind u t st
  case overflow => exact discard_behind u t .tokenOverflow

/-- By the state that takes the byte (R142); the three word states share one argument. -/
theorem rxByte_behind : rxByte b (u.behind s) = (rxByte b s).map u.behind := by
  have word : ∀ {cap store}, capOf s.st = some cap → storeOf s.cfg s.st = some store →
      rxByte b (u.behind s) = (rxByte b s).map u.behind := by
    intro cap store hcap hstore
    rw [rxByte_word hcap hstore, rxByte_word (s := u.behind s) hcap hstore, wordStep_behind, afterWordStep_behind]
    rfl
  cases hst : s.st
  case sScan =>
    simp only [rxByte, behind_st, hst, onScan_behind]
    rfl
  case sType =>
    simp only [rxByte, behind_st, hst, onType_behind]
    rfl
  case sPkt =>
    simp only [rxByte, behind_st, hst]
    exact onPkt_behind u s b
  case sCmd => exact word (congrArg capOf hst) (congrArg (storeOf s.cfg) hst)
  case sName => exact word (congrArg capOf hst) (congrArg (storeOf s.cfg) hst)
  case sValue => exact word (congrArg capOf hst) (congrArg (storeOf s.cfg) hst)

end

theorem rxBytes_behind (u : State) (bs : List Byte) :
    ∀ s, rxBytes bs (u.behind s) = (rxBytes bs s).map u.behind := by
  induction bs with
  | nil => exact fun _ => rfl
  | cons b bs ih => exact fun s => bind_behind u s (rxByte_behind u s b) ih

/-- A receive operation with legal operands answers, and the exchange passes through its answer. -/
theorem exec_receive_behind {i : Instr} {s : State} (hi : isReceive i = true) (hl : legalOperands s.cfg i = true) :
    ∃ t, ∀ u : State, exec i (u.behind s) = .next (u.behind t) := by
  rcases setwin_or_rxBytes_of_isReceive hi with ⟨size, rfl⟩ | ⟨bytes, hexec⟩
  · have hsize : ¬ s.cfg.wMax < size.toNat := by simpa [legalOperands] using hl
    refine ⟨{ s with rb := [], events := s.events ++ arrivals s.rb, win := size }, fun u => ?_⟩
    rw [exec_setwin, behind_cfg, if_neg hsize]
    simp [State.behind]
  · obtain ⟨t, ht⟩ := rxBytes_ok bytes s
    refine ⟨t, fun u => ?_⟩
    rw [hexec, rxBytes_behind, ht]
    rfl

/-- Settles O55: both states are exchanges of the first one's receive side, heard from silence. -/
theorem receiveIgnoresTransmitSide : Obligations.ReceiveIgnoresTransmitSide := by
  intro i s₁ s₂ hi hl hf hr hc
  obtain ⟨t, ht⟩ := exec_receive_behind (s := s₁.silent) hi hl
  have h₁ := ht s₁
  have h₂ := ht s₂
  rw [behind_silent rfl rfl rfl] at h₁
  rw [behind_silent hf hr hc] at h₂
  exact ⟨s₁.behind t, s₂.behind t, t.events, t.drops, h₁, h₂, rfl, rfl, rfl, rfl, rfl, rfl, rfl⟩

end Sys2Proof.Machine
end

