-- ==== Sys2Proof/Proofs/Encoding.lean ====
section
/-! PROOFS. The decoder and the encoder are inverse to each other (spec/30_encoding.md R71 to R74, R82, R84, R85): the rows of
R82 exclude one another, so a word that fits a row decodes by it; a word and its fields determine each other; a chunk that
is one frame bears that frame's name. -/

namespace Sys2Proof

/-! The rows of R82. -/

theorem CmdRow.fits_iff (r : CmdRow) (w : U32) : r.fits w = true ↔ w &&& r.mask = r.pattern := by
  simp [CmdRow.fits]

/-- Two rows disagree on a bit both of them select. -/
def RowsDisagree (a b : CmdRow) : Prop := a.mask &&& b.mask &&& (a.pattern ^^^ b.pattern) ≠ 0#32

theorem cmdTable_pairwise : cmdTable.Pairwise RowsDisagree := by
  unfold RowsDisagree
  decide

/-- Of two rows that disagree, one does not fit. -/
theorem length_le_one_of_fits {rows : List CmdRow} {w : U32} (hpair : rows.Pairwise RowsDisagree)
    (hfits : ∀ r ∈ rows, r.fits w = true) : rows.length ≤ 1 := by
  match rows with
  | [] => exact Nat.zero_le 1
  | [_] => exact Nat.le_refl 1
  | a :: b :: rest =>
    have hab : RowsDisagree a b := List.rel_of_pairwise_cons hpair List.mem_cons_self
    exact (rows_exclude hab (hfits a (by simp)) (hfits b (by simp))).elim

/-- Settles O4: the rows of the table disagree pairwise, and so do those a word fits. -/
theorem commandRowsNeverOverlap : Obligations.CommandRowsNeverOverlap :=
  fun _ => length_le_one_of_fits (cmdTable_pairwise.filter _) fun _ hr => (List.mem_filter.mp hr).2

/-- The row a word fits is the row it is decoded by. -/
theorem decodeCmd_of_fits {r : CmdRow} {w : U32} (hr : r ∈ cmdTable) (hw : r.fits w = true) :
    decodeCmd w = .ok (r.operands w) := by
  obtain ⟨a, ha⟩ : ∃ a, cmdTable.filter (fun r => r.fits w) = [a] := by
    refine List.length_eq_one_iff.mp (Nat.le_antisymm (commandRowsNeverOverlap w) ?_)
    exact List.length_pos_of_mem (List.mem_filter.mpr ⟨hr, hw⟩)
  obtain rfl : r = a := by
    have hmem : r ∈ cmdTable.filter (fun r => r.fits w) := List.mem_filter.mpr ⟨hr, hw⟩
    simpa [ha] using hmem
  have hfind : cmdTable.find? (fun r => r.fits w) = some r := by rw [← List.head?_filter, ha]; rfl
  rw [decodeCmd, hfind]

theorem exists_row_of_decodeCmd {w : U32} {i : Instr} (h : decodeCmd w = .ok i) :
    ∃ r ∈ cmdTable, r.fits w = true ∧ r.operands w = i := by
  unfold decodeCmd at h
  split at h <;> cases h
  case h_1 r hfind =>
    exact ⟨r, List.mem_of_find?_eq_some hfind, List.find?_some (p := fun r : CmdRow => r.fits w) hfind, rfl⟩

/-! Words and their fields (R82, R85). -/

theorem field_eq_of_toNat {w : U32} {a n : Nat} {x : BitVec n} (h : w.toNat / 2 ^ a % 2 ^ n = x.toNat) :
    w.extractLsb' a n = x := by
  apply BitVec.eq_of_toNat_eq
  rw [field_toNat, h]

/-- The word of a command fits its row, and the row reads the operands it was made of. -/
theorem exists_row_of_encode {w : U32} {i : Instr} (h : encode i = some (.cmd w)) :
    ∃ r ∈ cmdTable, r.fits w = true ∧ r.operands w = i := by
  cases i <;> cases h
  case reset => exact ⟨cmdTable[0], List.getElem_mem _, by decide, rfl⟩
  case rxb b =>
    refine ⟨cmdTable[1], List.getElem_mem _, (CmdRow.fits_iff _ _).mpr ((fits_rxb _).mpr ?_),
      congrArg Instr.rxb (field_eq_of_toNat ?_)⟩ <;> rw [word_rxb] <;> omega
  case beginOp => exact ⟨cmdTable[2], List.getElem_mem _, by decide, rfl⟩
  case paywr off b =>
    refine ⟨cmdTable[3], List.getElem_mem _, (CmdRow.fits_iff _ _).mpr ((fits_paywr _).mpr ?_),
      congrArg₂ Instr.paywr (field_eq_of_toNat ?_) (field_eq_of_toNat ?_)⟩ <;> rw [word_paywr] <;> omega
  case smpwr ch raw =>
    refine ⟨cmdTable[4], List.getElem_mem _, (CmdRow.fits_iff _ _).mpr ((fits_smpwr _).mpr ?_),
      congrArg₂ Instr.smpwr (field_eq_of_toNat ?_) (field_eq_of_toNat ?_)⟩ <;> rw [word_smpwr] <;> omega
  case setord m =>
    refine ⟨cmdTable[5], List.getElem_mem _, (CmdRow.fits_iff _ _).mpr ((fits_setord _).mpr ?_),
      congrArg Instr.setord (field_eq_of_toNat ?_)⟩ <;> rw [word_setord] <;> omega
  case setwin size =>
    refine ⟨cmdTable[6], List.getElem_mem _, (CmdRow.fits_iff _ _).mpr ((fits_setwin _).mpr ?_),
      congrArg Instr.setwin (field_eq_of_toNat ?_)⟩ <;> rw [word_setwin] <;> omega
  case crcupd crc b =>
    refine ⟨cmdTable[7], List.getElem_mem _, (CmdRow.fits_iff _ _).mpr ((fits_crcupd _).mpr ?_),
      congrArg₂ Instr.crcupd (field_eq_of_toNat ?_) (field_eq_of_toNat ?_)⟩ <;> rw [word_crcupd] <;> omega
  case reservedOp low =>
    refine ⟨cmdTable[8], List.getElem_mem _, (CmdRow.fits_iff _ _).mpr ((fits_reserved _).mpr ?_),
      congrArg Instr.reservedOp (field_eq_of_toNat ?_)⟩ <;> rw [word_reserved] <;> omega

theorem cmd_eq_of_toNat {v w : U32} (h : v.toNat = w.toNat) : some (Input.cmd v) = some (.cmd w) := by
  rw [BitVec.eq_of_toNat_eq h]

/-- The operands a row reads from a word that fits it, put together again, are that word. -/
theorem encode_operands {r : CmdRow} {w : U32} (hr : r ∈ cmdTable) (hw : r.fits w = true) :
    encode (r.operands w) = some (.cmd w) := by
  rw [CmdRow.fits_iff] at hw
  simp only [cmdTable, List.mem_cons, List.not_mem_nil, or_false] at hr
  rcases hr with rfl | rfl | rfl | rfl | rfl | rfl | rfl | rfl | rfl
  · exact cmd_eq_of_toNat ((fits_reset w).mp hw).symm
  · rw [fits_rxb] at hw
    exact cmd_eq_of_toNat (by rw [word_rxb, field_toNat]; omega)
  · exact cmd_eq_of_toNat ((fits_begin w).mp hw).symm
  · rw [fits_paywr] at hw
    exact cmd_eq_of_toNat (by rw [word_paywr, field_toNat, field_toNat]; omega)
  · rw [fits_smpwr] at hw
    exact cmd_eq_of_toNat (by rw [word_smpwr, field_toNat, field_toNat]; omega)
  · rw [fits_setord] at hw
    exact cmd_eq_of_toNat (by rw [word_setord, field_toNat]; omega)
  · rw [fits_setwin] at hw
    exact cmd_eq_of_toNat (by rw [word_setwin, field_toNat]; omega)
  · rw [fits_crcupd] at hw
    exact cmd_eq_of_toNat (by rw [word_crcupd, field_toNat, field_toNat]; omega)
  · rw [fits_reserved] at hw
    exact cmd_eq_of_toNat (by rw [word_reserved, field_toNat]; omega)

theorem decodeCmd_of_encode {w : U32} {i : Instr} (h : encode i = some (.cmd w)) : decodeCmd w = .ok i := by
  obtain ⟨r, hr, hfits, rfl⟩ := exists_row_of_encode h
  exact decodeCmd_of_fits hr hfits

theorem encode_of_decodeCmd {w : U32} {i : Instr} (h : decodeCmd w = .ok i) : encode i = some (.cmd w) := by
  obtain ⟨r, hr, hfits, rfl⟩ := exists_row_of_decodeCmd h
  exact encode_operands hr hfits

/-- An instruction that is a command word has no frame bytes that could be wrong. -/
theorem frameShape_of_encode_cmd {c : Config} {w : U32} {i : Instr} (h : encode i = some (.cmd w)) :
    frameShape c i = true := by
  cases i <;> cases h <;> rfl

/-! Chunks (R71 to R74). -/

theorem decodeWire_of_encode {c : Config} {bytes : List Byte} {i : Instr} (hshape : frameShape c i = true)
    (h : encode i = some (.wire bytes)) : decodeWire c bytes = i := by
  have hcr : typeC ≠ typeR := by decide
  have hdr : typeD ≠ typeR := by decide
  have hdc : typeD ≠ typeC := by decide
  cases i <;> cases h
  case frameR body =>
    have hlen : body.length = pktBody := by simpa [frameShape] using hshape
    simp [decodeWire, hlen]
  case frameC body =>
    have hword : isOneWord c body = true := hshape
    simp [decodeWire, hcr, hword]
  case frameD body =>
    have hwords : isTwoWords c body = true := hshape
    simp [decodeWire, hdr, hdc, hwords]
  case frameOther t =>
    obtain ⟨hr, hc, hd⟩ : t ≠ typeR ∧ t ≠ typeC ∧ t ≠ typeD := by simpa [frameShape] using hshape
    simp [decodeWire, hr, hc, hd]

/-- A chunk is named after the frame it is, or it is the chunk of a `FEED`. -/
theorem decodeWire_cases (c : Config) (bytes : List Byte) :
    (frameShape c (decodeWire c bytes) = true ∧ encode (decodeWire c bytes) = some (.wire bytes)) ∨
      decodeWire c bytes = .feed bytes := by
  unfold decodeWire
  split
  case h_2 => exact .inr rfl
  case h_1 m t body =>
    by_cases hm : m = markByte
    swap
    · exact .inr (if_neg hm)
    rw [if_pos hm, hm]
    by_cases hr : t = typeR
    · rw [if_pos hr, hr]
      by_cases hlen : body.length = pktBody
      · rw [if_pos hlen]
        exact .inl ⟨by simpa [frameShape] using hlen, rfl⟩
      · exact .inr (if_neg hlen)
    rw [if_neg hr]
    by_cases hc : t = typeC
    · rw [if_pos hc, hc]
      by_cases hword : isOneWord c body = true
      · rw [if_pos hword]
        exact .inl ⟨hword, rfl⟩
      · exact .inr (if_neg hword)
    rw [if_neg hc]
    by_cases hd : t = typeD
    · rw [if_pos hd, hd]
      by_cases hwords : isTwoWords c body = true
      · rw [if_pos hwords]
        exact .inl ⟨hwords, rfl⟩
      · exact .inr (if_neg hwords)
    rw [if_neg hd]
    by_cases hbody : body.isEmpty = true
    · rw [if_pos hbody, List.isEmpty_iff.mp hbody]
      exact .inl ⟨by simp [frameShape, hr, hc, hd], rfl⟩
    · exact .inr (if_neg hbody)

/-! Inputs. -/

/-- Settles O2: a command word by its row, a frame by its marker, its type byte and the shape of its body. -/
theorem encodedInputsDecodeBack : Obligations.EncodedInputsDecodeBack := by
  intro c i x hshape henc
  cases x with
  | cmd w => exact decodeCmd_of_encode henc
  | wire bytes => exact congrArg Except.ok (decodeWire_of_encode hshape henc)
  | resetPin => cases i <;> cases henc
  | early w => cases i <;> cases henc

/-- Settles O3: a command word is the word of the fields read from it, a chunk is its frame's bytes or is fed whole. -/
theorem decodedInputsEncodeBack : Obligations.DecodedInputsEncodeBack := by
  intro c x i hdec
  cases x with
  | cmd w =>
    have henc := encode_of_decodeCmd hdec
    exact ⟨frameShape_of_encode_cmd henc, .inl henc⟩
  | wire bytes =>
    cases hdec
    rcases decodeWire_cases c bytes with ⟨hshape, henc⟩ | hfeed
    · exact ⟨hshape, .inl henc⟩
    · rw [hfeed]
      exact ⟨rfl, .inr (.inl ⟨bytes, rfl, rfl⟩)⟩
  | resetPin =>
    cases hdec
    exact ⟨rfl, .inr (.inr ⟨rfl, rfl⟩)⟩
  | early w => cases hdec

/-- Settles O1: every operation and every frame by its encoding; the word with a must-be-zero bit set fits no row. -/
theorem wordsFromTheTablesDecode : Obligations.WordsFromTheTablesDecode :=
  ⟨decodeCmd_of_encode rfl, decodeCmd_of_encode rfl, decodeCmd_of_encode rfl, decodeCmd_of_encode rfl,
    decodeCmd_of_encode rfl, decodeCmd_of_encode rfl, decodeCmd_of_encode rfl, decodeCmd_of_encode rfl,
    decodeCmd_of_encode rfl, rfl, decodeWire_of_encode rfl rfl, decodeWire_of_encode rfl rfl,
    decodeWire_of_encode rfl rfl, decodeWire_of_encode rfl rfl⟩

end Sys2Proof
end

