-- ==== Sys2Proof/Proofs/CommandRefusal.lean ====
section
/-! PROOFS. Which command words are refused (spec/30_encoding.md R84, spec/60_exceptions.md R230): an operation answers a next
state exactly when its operands are legal, and a word is a reserved encoding exactly when it decodes to no operation with
legal operands. -/

namespace Sys2Proof.Machine

/-! Operations. -/

section
variable {i : Instr} {s : State}

theorem ofExcept_rxBytes_next (bs : List Byte) (s : State) : ∃ t, ofExcept (rxBytes bs s) = .next t := by
  obtain ⟨t, ht⟩ := rxBytes_ok bs s
  exact ⟨t, ofExcept_eq_next.mpr ht⟩

/-- A mode operand other than 3 selects a mode (R221). -/
theorem modeOf_isSome {m : BitVec 2} (h : m ≠ 3#2) : ∃ mode, modeOf m = some mode := by
  revert m
  simp only [← Option.isSome_iff_exists]
  decide

/-- An operation with legal operands answers a next state, from every state (R230). -/
theorem exec_next_of_legal (h : legalOperands s.cfg i = true) : ∃ t, exec i s = .next t := by
  cases i
  case reset => exact ⟨_, rfl⟩
  case rxb b =>
    obtain ⟨t, ht⟩ := rxByte_ok b s
    exact ⟨t, ofExcept_eq_next.mpr ht⟩
  case beginOp => exact ⟨_, rfl⟩
  case paywr off b =>
    have hoff : off.toNat ≤ 26 := by simpa [legalOperands] using h
    exact ⟨_, if_neg (Nat.not_lt.mpr hoff)⟩
  case smpwr ch raw =>
    have hch : ch.toNat ≤ 8 := by simpa [legalOperands] using h
    exact ⟨_, if_neg (Nat.not_lt.mpr hch)⟩
  case setord m =>
    obtain ⟨mode, hmode⟩ := modeOf_isSome (m := m) (by simpa [legalOperands] using h)
    exact ⟨{ s with mode := mode }, by rw [exec, execSetord, hmode]⟩
  case setwin size =>
    have hsize : size.toNat ≤ s.cfg.wMax := by simpa [legalOperands] using h
    exact ⟨_, (exec_setwin size s).trans (if_neg (Nat.not_lt.mpr hsize))⟩
  case crcupd crc b => exact ⟨_, rfl⟩
  case reservedOp low => cases h
  case frameR body => exact ofExcept_rxBytes_next _ s
  case frameC body => exact ofExcept_rxBytes_next _ s
  case frameD body => exact ofExcept_rxBytes_next _ s
  case frameOther t => exact ofExcept_rxBytes_next _ s
  case feed bytes => exact ofExcept_rxBytes_next _ s
  case crcCompute bytes => exact ⟨_, rfl⟩
  case sample raws => exact ⟨_, rfl⟩
  case feedpkt p => exact ofExcept_rxBytes_next _ s

/-- An operation with an operand out of its range, or with a reserved code, is refused (R84, R224). -/
theorem exec_refused_of_not_legal (h : legalOperands s.cfg i = false) :
    exec i s = .refused .reservedEncoding ∨ exec i s = .refused .reservedOperand := by
  cases i
  case paywr off b =>
    have hoff : 26 < off.toNat := by simpa [legalOperands] using h
    exact .inr (if_pos hoff)
  case smpwr ch raw =>
    have hch : 8 < ch.toNat := by simpa [legalOperands] using h
    exact .inr (if_pos hch)
  case setord m =>
    obtain rfl : m = 3#2 := by simpa [legalOperands] using h
    exact .inr rfl
  case setwin size =>
    have hsize : s.cfg.wMax < size.toNat := by simpa [legalOperands] using h
    exact .inr (if_pos hsize)
  case reservedOp low => exact .inl rfl
  all_goals cases h

end

/-! Command words. -/

section
variable {c : Config} {w : U32} {i : Instr}

/-- The reserved encodings of R84, as numbers. -/
theorem reservedWord_iff (c : Config) (w : U32) : ReservedWord c w ↔
    8 ≤ w.toNat / 2 ^ 28 ∨ MustBeZeroSet w ∨ OperandOutOfRange c w := by
  have hop : w.toNat / 2 ^ 28 % 2 ^ 4 = w.toNat / 2 ^ 28 := by omega
  rw [ReservedWord, field_toNat, hop]

/-- The word of an operation is reserved exactly when an operand is outside its range, or the operation code is. -/
theorem reservedWord_iff_not_legal (h : decodeCmd w = .ok i) : ReservedWord c w ↔ legalOperands c i = false := by
  have henc := encode_of_decodeCmd h
  rw [reservedWord_iff, mustBeZeroSet_iff, operandOutOfRange_iff]
  cases i <;> cases henc
  case reset => simp [legalOperands]
  case rxb b => rw [word_rxb]; simp only [legalOperands, reduceCtorEq, iff_false]; omega
  case beginOp => simp [legalOperands]
  case paywr off b => rw [word_paywr]; simp only [legalOperands, decide_eq_false_iff_not]; omega
  case smpwr ch raw => rw [word_smpwr]; simp only [legalOperands, decide_eq_false_iff_not]; omega
  case setord m =>
    rw [word_setord]
    simp only [legalOperands, decide_eq_false_iff_not, ne_eq, not_not, ← BitVec.toNat_inj, BitVec.toNat_ofNat]
    omega
  case setwin size => rw [word_setwin]; simp only [legalOperands, decide_eq_false_iff_not]; omega
  case crcupd crc b => rw [word_crcupd]; simp only [legalOperands, reduceCtorEq, iff_false]; omega
  case reservedOp low => rw [word_reserved]; simp only [legalOperands, iff_true]; omega

/-- A word that is no operation has a must-be-zero bit set. -/
theorem reserved_of_decodeCmd_error {r : Reject} (h : decodeCmd w = .error r) :
    r = .reservedEncoding ∧ ReservedWord c w := by
  rw [reservedWord_iff, mustBeZeroSet_iff]
  rw [decodeCmd_eq] at h
  split_ifs at h
  cases h
  exact ⟨rfl, by omega⟩

end

/-- Settles O5: a reserved word decodes to no operation or to one with an illegal operand, every other word to one with
legal operands. -/
theorem commandRefusedExactlyWhenReserved : Obligations.CommandRefusedExactlyWhenReserved := by
  intro s w
  cases hdec : decodeCmd w with
  | error r =>
    obtain ⟨rfl, hres⟩ := reserved_of_decodeCmd_error (c := s.cfg) hdec
    have hstep : step (s.present (.cmd w)) = .refused .reservedEncoding :=
      step_of_decode_error (present_input s (.cmd w)) hdec
    exact ⟨fun _ => .inl hstep, fun hnot => absurd hres hnot⟩
  | ok i =>
    rw [step_present_of_decode_ok (x := .cmd w) hdec, reservedWord_iff_not_legal hdec]
    exact ⟨exec_refused_of_not_legal, fun hlegal => exec_next_of_legal (Bool.eq_true_of_not_eq_false hlegal)⟩

end Sys2Proof.Machine
end

