-- ==== Sys2Proof/Proofs/Expansion.lean ====
section
/-! PROOFS. Every pseudo-operation and every frame has the effect of its expansion into operations of R82
(spec/30_encoding.md R89, spec/43_framing_fsm.md R142, spec/46_control_ops.md R223): one equation per kind of expansion. -/

namespace Sys2Proof.Machine

theorem execSeq_cons_of_next {i : Instr} {is : List Instr} {s t : State} (h : exec i s = .next t) :
    execSeq (i :: is) s = execSeq is t := by
  rw [execSeq, h]

theorem execSeq_singleton (i : Instr) (s : State) : execSeq [i] s = exec i s := by
  rw [execSeq]
  cases exec i s <;> rfl

/-- The `RXB` operations of a byte sequence are its receipt, byte by byte (R223). -/
theorem execSeq_rxbOps (bs : List Byte) : ∀ s, execSeq (rxbOps bs) s = ofExcept (rxBytes bs s) := by
  induction bs with
  | nil => exact fun _ => rfl
  | cons b bs ih =>
    intro s
    obtain ⟨t, ht⟩ := rxByte_ok b s
    have hexec : exec (.rxb b) s = .next t := ofExcept_eq_next.mpr ht
    rw [rxBytes_cons ht, ← ih t]
    exact execSeq_cons_of_next hexec

/-- The `CRCUPD` operations of a chain; none of them changes the parameters the host computes with (R106). -/
theorem execSeq_crcOps (bs : List Byte) : ∀ crc s, execSeq (crcOps s.cfg crc bs) s = .next (crcChain crc bs s) := by
  induction bs with
  | nil => exact fun _ _ => rfl
  | cons b bs ih =>
    intro crc s
    exact (execSeq_cons_of_next rfl).trans (ih (crcUpdate s.cfg crc b) (crcStepResult crc b s))

/-- `SMPWR` of successive channels, all of them in range (R121). -/
theorem execSeq_smpwrOps (rs : List U24) :
    ∀ ch s, ch + rs.length ≤ 9 → execSeq (smpwrOps ch rs) s = .next (putSamples ch rs s) := by
  induction rs with
  | nil => exact fun _ _ _ => rfl
  | cons r rs ih =>
    intro ch s hlen
    rw [List.length_cons] at hlen
    have hch : (BitVec.ofNat 4 ch).toNat = ch := by rw [BitVec.toNat_ofNat]; omega
    have hexec : exec (.smpwr (BitVec.ofNat 4 ch) r) s = .next (putSample ch r s) := by
      rw [exec, execSmpwr, hch, if_neg (by omega)]
    rw [smpwrOps, execSeq_cons_of_next hexec]
    exact ih (ch + 1) (putSample ch r s) (by omega)

/-- Settles O50: a command word is its own expansion, every other operation expands to one of the chains above. -/
theorem pseudoOperationsAreTheirExpansions : Obligations.PseudoOperationsAreTheirExpansions := by
  intro i s
  cases i
  case reset => exact (execSeq_singleton _ s).symm
  case rxb b => exact (execSeq_singleton _ s).symm
  case beginOp => exact (execSeq_singleton _ s).symm
  case paywr off b => exact (execSeq_singleton _ s).symm
  case smpwr ch raw => exact (execSeq_singleton _ s).symm
  case setord m => exact (execSeq_singleton _ s).symm
  case setwin size => exact (execSeq_singleton _ s).symm
  case crcupd crc b => exact (execSeq_singleton _ s).symm
  case reservedOp low => exact (execSeq_singleton _ s).symm
  case frameR body => exact (execSeq_rxbOps _ s).symm
  case frameC body => exact (execSeq_rxbOps _ s).symm
  case frameD body => exact (execSeq_rxbOps _ s).symm
  case frameOther t => exact (execSeq_rxbOps _ s).symm
  case feed bytes => exact (execSeq_rxbOps _ s).symm
  case crcCompute bytes => exact (execSeq_crcOps bytes 0#16 s).symm
  case sample raws =>
    have hbegin : exec .beginOp s = .next (beginSample s) := rfl
    rw [expand, execSeq_cons_of_next hbegin, execSeq_smpwrOps _ _ _ (by simp)]
    rfl
  case feedpkt p => exact (execSeq_rxbOps _ s).symm

end Sys2Proof.Machine
end

