-- ==== Sys2Proof/Proofs/Sample.lean ====
section
/-! PROOFS. The nine sample writes of `SAMPLE` (spec/30_encoding.md R89, spec/41_packet_codec.md R121): what a chain of them
leaves in each channel of the current slot. -/

namespace Sys2Proof.Machine

section
variable {s : State}

@[simp] theorem cur_putSample (ch : Nat) (r : U24) : (putSample ch r s).cur = s.cur := rfl

@[simp] theorem histAt_putSample_cur (ch : Nat) (r : U24) :
    (putSample ch r s).histAt s.cur = smpPut (s.histAt s.cur) ch r := by
  simp [putSample]

end

/-- A chain of sample writes does not touch the sequence number. -/
theorem pktSeq_putSamples (rs : List U24) :
    ∀ ch s, pktSeq ((putSamples ch rs s).histAt s.cur) = pktSeq (s.histAt s.cur) := by
  induction rs with
  | nil => exact fun _ _ => rfl
  | cons r rs ih => exact fun ch s => (ih (ch + 1) (putSample ch r s)).trans (by simp)

/-- A chain of sample writes does not touch the channels below its first. -/
theorem smpRaw_putSamples_of_lt (rs : List U24) :
    ∀ ch s c, c < ch → smpRaw ((putSamples ch rs s).histAt s.cur) c = smpRaw (s.histAt s.cur) c := by
  induction rs with
  | nil => exact fun _ _ _ _ => rfl
  | cons r rs ih =>
    intro ch s c hc
    calc smpRaw ((putSamples (ch + 1) rs (putSample ch r s)).histAt s.cur) c
      _ = smpRaw ((putSample ch r s).histAt s.cur) c := ih (ch + 1) (putSample ch r s) c (Nat.lt_succ_of_lt hc)
      _ = smpRaw (s.histAt s.cur) c := by rw [histAt_putSample_cur, smpRaw_smpPut_other _ _ _ _ hc.ne']

/-- A chain of sample writes leaves its `k`-th sample in its `k`-th channel: no later write touches it. -/
theorem smpRaw_putSamples (rs : List U24) :
    ∀ ch s k (h : k < rs.length), ch + k ≤ 8 → smpRaw ((putSamples ch rs s).histAt s.cur) (ch + k) = rs[k] := by
  induction rs with
  | nil => intro ch s k h; cases h
  | cons r rs ih =>
    intro ch s k h hch
    cases k with
    | zero =>
      calc smpRaw ((putSamples (ch + 1) rs (putSample ch r s)).histAt s.cur) ch
        _ = smpRaw ((putSample ch r s).histAt s.cur) ch :=
          smpRaw_putSamples_of_lt rs (ch + 1) (putSample ch r s) ch (Nat.lt_succ_self ch)
        _ = r := by rw [histAt_putSample_cur, smpRaw_smpPut_same _ ch _ hch]
    | succ k =>
      have hk := ih (ch + 1) (putSample ch r s) k (Nat.lt_of_succ_lt_succ h) (by omega)
      rwa [Nat.add_right_comm] at hk

/-- Settles O29: the sample writes go to the slot that `BEGIN` has just opened. -/
theorem sampleFillsTheFreshPacket : Obligations.SampleFillsTheFreshPacket := by
  intro raws s
  obtain ⟨p, hp⟩ := putSamples_frame raws.toList 0 (beginSample s)
  have hcur : (putSamples 0 raws.toList (beginSample s)).cur = (beginSample s).cur := by rw [hp, cur_setHist]
  refine ⟨_, _, rfl, rfl, ?frame, ?other, ?seq, ?channel⟩
  case frame => rw [hp]; rfl
  case other =>
    intro k hk
    rw [hp, histAt_setHist, if_neg hk.symm]
  case seq =>
    have hfresh : (beginSample s).histAt (beginSample s).cur = pktEmpty (s.seqTx + 1#16) := by
      rw [histAt_beginSample, if_pos (by rw [beginSample_eq]; rfl)]
    rw [hcur, pktSeq_putSamples, hfresh, pktSeq_pktEmpty]
  case channel =>
    intro c hc
    have hraw := smpRaw_putSamples raws.toList 0 (beginSample s) c (by simpa using hc) (by omega)
    rw [Nat.zero_add, Vector.getElem_toList] at hraw
    rw [hcur, smpGet, hraw]

end Sys2Proof.Machine
end

