-- ==== Sys2Proof/Proofs/PacketFrame.lean ====
section
/-! PROOFS. Frames met while scanning whose length does not depend on their bytes (spec/30_encoding.md R71, R72,
spec/43_framing_fsm.md R144 to R146): the packet frame, read whole, and the unrecognised type byte. -/

namespace Sys2Proof.Machine

/-- A body byte that is not the last (R145). -/
theorem rxByte_body {s : State} {n : Nat} (b : Byte) (hst : s.st = .sPkt) (hcnt : s.rxCnt = BitVec.ofNat 5 n)
    (hn : n < 30) :
    rxByte b s = .ok { s with rxbuf := pktSetByte s.rxbuf (2 + n) b, rxCnt := BitVec.ofNat 5 (n + 1) } := by
  have hval : s.rxCnt.toNat = n := by rw [hcnt, BitVec.toNat_ofNat]; omega
  have hsucc : s.rxCnt + 1#5 = BitVec.ofNat 5 (n + 1) := by rw [hcnt, BitVec.ofNat_add]
  have hnot : (BitVec.ofNat 5 (n + 1)).toNat ≠ pktBody := by rw [BitVec.toNat_ofNat, pktBody]; omega
  have hbyte : rxByte b s = onPkt b s := by simp only [rxByte, hst]
  rw [hbyte, onPkt_eq, hsucc, if_neg hnot, bodyStored, hval, hsucc]

section
variable {body : List Byte} {p : Packet}

/-- The body bytes of a packet frame are the packet's bytes from offset 2 on (R72). -/
theorem body_getElem {m t : Byte} (h : p.toList = m :: t :: body) (hlen : body.length = 31) {n : Nat} (hn : n < 31) :
    body[n] = pktByte p (2 + n) := by
  have hget := List.getElem_of_eq h (i := n + 2) (by simp; omega)
  rw [pktByte_eq_getElem p (by omega)]
  simpa [Nat.add_comm 2 n] using hget.symm

/-- The first `n` body bytes are in the receive buffer, behind its first two bytes, and are counted (R145). -/
theorem rxBytes_body {m t : Byte} {s : State} (h : p.toList = m :: t :: body) (hlen : body.length = 31)
    (hst : s.st = .sPkt) (hcnt : s.rxCnt = 0#5) (n : Nat) (hn : n ≤ 30) :
    ∃ q, rxBytes (body.take n) s = .ok { s with rxbuf := q, rxCnt := BitVec.ofNat 5 n } ∧
      ∀ k, 2 ≤ k → k < 2 + n → pktByte q k = pktByte p k := by
  induction n with
  | zero =>
    refine ⟨s.rxbuf, ?_, fun k h2 hk => by omega⟩
    rw [List.take_zero, rxBytes, ← hcnt]
  | succ n ih =>
    obtain ⟨q, hq, hget⟩ := ih (by omega)
    refine ⟨pktSetByte q (2 + n) body[n], ?_, fun k h2 hk => ?_⟩
    · have hbyte := rxByte_body (s := { s with rxbuf := q, rxCnt := BitVec.ofNat 5 n }) body[n] hst rfl (by omega)
      rw [List.take_succ_eq_append_getElem (by omega), rxBytes_append _ _ _ _ hq, rxBytes_cons hbyte, rxBytes]
    · rw [pktByte_pktSetByte]
      split
      case isTrue heq => rw [← heq.1, body_getElem h hlen (by omega)]
      case isFalse hne => exact hget k h2 (by omega)

/-- The receive buffer with its last body byte and the marker is the packet (R146). -/
theorem assembled_eq {s : State} (h : p.toList = markByte :: typeR :: body) (hlen : body.length = 31)
    (hcnt : s.rxCnt = 30#5) (hget : ∀ k, 2 ≤ k → k < 32 → pktByte s.rxbuf k = pktByte p k) :
    assembled s body[30] = p := by
  have hlast := body_getElem h hlen (n := 30) (by omega)
  have h0 : pktByte p 0 = markByte := by
    rw [pktByte_eq_getElem p (by omega)]
    simpa using List.getElem_of_eq h (i := 0) (by simp)
  have h1 : pktByte p 1 = typeR := by
    rw [pktByte_eq_getElem p (by omega)]
    simpa using List.getElem_of_eq h (i := 1) (by simp)
  apply pkt_ext
  intro k hk
  rw [assembled, hcnt, hlast, pktMark]
  simp only [pktByte_pktSetByte, hk, and_true]
  by_cases hk1 : 1 = k
  · rw [if_pos hk1, ← hk1, h1]
  rw [if_neg hk1]
  by_cases hk0 : 0 = k
  · rw [if_pos hk0, ← hk0, h0]
  rw [if_neg hk0]
  by_cases hk32 : 2 + (30#5).toNat = k
  · rw [if_pos hk32, ← hk32]
    rfl
  rw [if_neg hk32]
  exact hget k (by omega) (by change ¬ 32 = k at hk32; omega)

/-- A packet frame met while scanning, up to what becomes of the packet (R143 to R146). -/
theorem rxBytes_packetFrame {s : State} (hst : s.st = .sScan) (h : p.toList = markByte :: typeR :: body) :
    rxBytes p.toList s =
      if pktValid s.cfg p then
        (reorderAccept p { s with rxCnt := 31#5, rxbuf := p, st := .sPkt }).map State.toScan
      else .ok { s with rxCnt := 31#5, rxbuf := p, drops := s.drops ++ [.badCrc] } := by
  have hlen : body.length = 31 := by simpa using congrArg List.length h
  obtain ⟨q, hq, hget⟩ :=
    rxBytes_body (s := { s with rxCnt := 0#5, st := .sPkt }) h hlen rfl rfl 30 (Nat.le_refl 30)
  have hsplit : body = body.take 30 ++ [body[30]] := by
    rw [← List.take_succ_eq_append_getElem, List.take_of_length_le (by omega)]
  have hasm : assembled { s with rxCnt := 30#5, rxbuf := q, st := .sPkt } body[30] = p :=
    assembled_eq h hlen rfl hget
  have hlast := rxByte_lastBody (b := body[30]) (s := { s with rxCnt := 30#5, rxbuf := q, st := .sPkt }) ⟨rfl, rfl⟩
  rw [hasm, State.received, hasm] at hlast
  obtain ⟨t, ht⟩ := rxByte_ok body[30] { s with rxCnt := 30#5, rxbuf := q, st := .sPkt }
  have hrun : rxBytes body { s with rxCnt := 0#5, st := .sPkt } = .ok t := by
    rw [hsplit, rxBytes_append _ _ _ _ hq]
    exact rxBytes_cons ht
  rw [h, rxBytes_frameStart hst, onType, if_pos rfl]
  refine (hrun.trans (ht.symm.trans hlast)).trans ?_
  rw [← hst]

end

/-- Settles O48: `FEEDPKT` and `FRAME.R` receive the same bytes, which are those of the packet. -/
theorem packetFrameReachesReorder : Obligations.PacketFrameReachesReorder := by
  intro body p s hst h
  have hframe : exec (.frameR body) s = ofExcept (rxBytes p.toList s) := by rw [h]; rfl
  have hrun := rxBytes_packetFrame hst h
  rw [hframe]
  refine ⟨rfl, fun hv => ?_, fun hv => ?_⟩
  · obtain ⟨t, ht⟩ := reorderAccept_ok p { s with rxCnt := 31#5, rxbuf := p, st := .sPkt }
    refine ⟨t, ht, ?_⟩
    rw [hrun, if_pos hv, ht]
    rfl
  · rw [hrun, hv]
    rfl

theorem onType_other {t : Byte} (s : State) (hr : t ≠ typeR) (hc : t ≠ typeC) (hd : t ≠ typeD) :
    onType t s = s.discard .badType := by
  rw [onType, if_neg hr, if_neg hc, if_neg hd]

/-- Settles O49: the type byte selects nothing, so the frame is discarded where it began. -/
theorem unknownTypeByteIsDiscarded : Obligations.UnknownTypeByteIsDiscarded := by
  intro t s hst hr hc hd
  have hrun := rxBytes_frameStart hst t []
  rw [onType_other _ hr hc hd, rxBytes] at hrun
  refine (congrArg ofExcept hrun).trans ?_
  simp only [State.discard, State.dropped, State.toScan, ofExcept, ← hst]

end Sys2Proof.Machine
end

