-- ==== Sys2Proof/Proofs/HexDecoder.lean ====
section
/-! PROOFS. The hexadecimal decoder (spec/30_encoding.md R80, spec/43_framing_fsm.md R162): decoding in place gives the bytes the
text stands for, since a decoded byte is written over digits that have been read. -/

namespace Sys2Proof.Machine

/-- The byte just stored ends what has been stored so far. -/
theorem take_set_self {l : List Byte} {n : Nat} (b : Byte) (h : n < l.length) :
    (l.set n b).take (n + 1) = l.take n ++ [b] := by
  rw [List.take_succ_eq_append_getElem (by simpa using h), List.getElem_set_self, List.take_set_of_le (Nat.le_refl n)]

/-! Hexadecimal text after a pending high digit. -/

/-- The bytes of a text that follows the high digit `hi`, if one is pending: `hexText` with the decoder's register. -/
def hexFrom (upper : Bool) (hi : Option (BitVec 4)) (text : List Byte) : Option (List Byte) :=
  ((text.filter (· ≠ 0x20#8)).mapM (hexVal upper)).bind fun digits => pairDigits (hi.toList ++ digits)

theorem hexFrom_none (upper : Bool) (text : List Byte) : hexFrom upper none text = hexText upper text := rfl

section
variable {upper : Bool} {hi : Option (BitVec 4)} {b : Byte} {text : List Byte}

theorem hexFrom_nil : hexFrom upper hi [] = if hi.isSome then none else some [] := by
  cases hi <;> rfl

theorem hexFrom_space : hexFrom upper hi (spaceByte :: text) = hexFrom upper hi text := rfl

/-- A byte that is not ignored is one digit, or the text is none. -/
theorem hexFrom_cons (h : b ≠ spaceByte) : hexFrom upper hi (b :: text) =
    (hexVal upper b).bind fun v =>
      ((text.filter (· ≠ 0x20#8)).mapM (hexVal upper)).bind fun digits => pairDigits (hi.toList ++ v :: digits) := by
  have hkeep : (b :: text).filter (· ≠ 0x20#8) = b :: text.filter (· ≠ 0x20#8) :=
    List.filter_cons_of_pos (decide_eq_true h)
  rw [hexFrom, hkeep, List.mapM_cons]
  cases hexVal upper b with
  | none => rfl
  | some v => cases (text.filter (· ≠ 0x20#8)).mapM (hexVal upper) <;> rfl

theorem hexFrom_bad (h : b ≠ spaceByte) (hv : hexVal upper b = none) : hexFrom upper hi (b :: text) = none := by
  rw [hexFrom_cons h, hv]
  rfl

theorem hexFrom_high {v : BitVec 4} (h : b ≠ spaceByte) (hv : hexVal upper b = some v) :
    hexFrom upper none (b :: text) = hexFrom upper (some v) text := by
  rw [hexFrom_cons h, hv]
  rfl

theorem hexFrom_low {v high : BitVec 4} (h : b ≠ spaceByte) (hv : hexVal upper b = some v) :
    hexFrom upper (some high) (b :: text) = (hexFrom upper none text).map ((high ++ v) :: ·) := by
  rw [hexFrom_cons h, hv, hexFrom]
  cases (text.filter (· ≠ 0x20#8)).mapM (hexVal upper) <;> rfl

end

/-! The loop. -/

/-- A result of the decoder, the token store and a length, holds the bytes of `value` behind those of `pre`; it is of
length 0 when there is no value. -/
def DecodedAs (r : List Byte × Nat) (pre : List Byte) (value : Option (List Byte)) : Prop :=
  match value with
  | none => r.2 = 0
  | some v => r.2 = pre.length + v.length ∧ r.1.take r.2 = pre ++ v

theorem decodedAs_map_cons {r : List Byte × Nat} {pre : List Byte} {b : Byte} {value : Option (List Byte)}
    (h : DecodedAs r (pre ++ [b]) value) : DecodedAs r pre (value.map (b :: ·)) := by
  cases value with
  | none => exact h
  | some v =>
    obtain ⟨hlen, htake⟩ := h
    refine ⟨?_, ?_⟩
    · rw [hlen, List.length_append, List.length_singleton, List.length_cons]
      omega
    · rw [htake, List.append_assoc]
      rfl

/-- With `n` bytes decoded, from digits that all stand before index `k`, the loop decodes what follows them. -/
theorem hexLoop_decodedAs (upper : Bool) (todo : Nat) :
    ∀ k tok n hi, n + hi.toList.length ≤ k → k + todo ≤ tok.length →
      DecodedAs (hexLoop upper todo k tok n hi) (tok.take n) (hexFrom upper hi ((tok.drop k).take todo)) := by
  induction todo with
  | zero =>
    intro k tok n hi hn hk
    rw [hexLoop, List.take_zero, hexFrom_nil]
    cases hi with
    | some high => rfl
    | none =>
      have hn' : n ≤ k := hn
      have hpre : (tok.take n).length = n := by rw [List.length_take]; omega
      exact ⟨hpre.symm, (List.append_nil _).symm⟩
  | succ todo ih =>
    intro k tok n hi hn hk
    have hlt : k < tok.length := by omega
    have hgetD : tok.getD k 0#8 = tok[k] := (List.getElem_eq_getD 0#8).symm
    rw [List.drop_eq_getElem_cons hlt, List.take_succ_cons]
    by_cases hsp : tok[k] = spaceByte
    · rw [hexLoop_space (by rw [hgetD, hsp]), hsp, hexFrom_space]
      exact ih (k + 1) tok n hi (by omega) (by omega)
    cases hv : hexVal upper tok[k] with
    | none =>
      rw [hexLoop_bad (by rwa [hgetD]) (by rwa [hgetD]), hexFrom_bad hsp hv]
      rfl
    | some v =>
      cases hi with
      | none =>
        rw [hexLoop_high (by rwa [hgetD]) (by rwa [hgetD]), hexFrom_high hsp hv]
        exact ih (k + 1) tok n (some v) (Nat.succ_le_succ hn) (by omega)
      | some high =>
        have hn' : n + 1 ≤ k := hn
        rw [hexLoop_low (by rwa [hgetD]) (by rwa [hgetD]), hexFrom_low hsp hv]
        apply decodedAs_map_cons
        have hrec := ih (k + 1) (tok.set n (high ++ v)) (n + 1) none (Nat.le_succ_of_le hn')
          (by rw [List.length_set]; omega)
        rwa [take_set_self _ (by omega), List.drop_set_of_lt (by omega)] at hrec

section
variable {s : State}

/-- Decoding in place gives the bytes the token stands for (R162). -/
theorem hexDecode_of_hexText {value : List Byte} (hlen : s.wLen ≤ s.tok.length)
    (h : hexText s.cfg.hexUpper (s.tok.take s.wLen) = some value) :
    (hexDecode s).2 = value.length ∧ (hexDecode s).1.tok.take value.length = value := by
  have hdec := hexLoop_decodedAs s.cfg.hexUpper s.wLen 0 s.tok 0 none (Nat.le_refl 0) (by omega)
  rw [hexFrom_none, List.drop_zero, h] at hdec
  obtain ⟨hval, htake⟩ := hdec
  have hval' : (hexDecode s).2 = value.length := hval.trans (Nat.zero_add _)
  exact ⟨hval', hval' ▸ htake⟩

/-- A token that is no hexadecimal text is decoded to length 0 (R162). -/
theorem hexDecode_of_hexText_none (hlen : s.wLen ≤ s.tok.length)
    (h : hexText s.cfg.hexUpper (s.tok.take s.wLen) = none) : (hexDecode s).2 = 0 := by
  have hdec := hexLoop_decodedAs s.cfg.hexUpper s.wLen 0 s.tok 0 none (Nat.le_refl 0) (by omega)
  rw [hexFrom_none, List.drop_zero, h] at hdec
  exact hdec

end

/-- Every decoded byte takes two digits. -/
theorem hexLoop_length_le (upper : Bool) (todo : Nat) :
    ∀ k tok n hi, 2 * (hexLoop upper todo k tok n hi).2 ≤ 2 * n + hi.toList.length + todo := by
  induction todo with
  | zero =>
    intro k tok n hi
    cases hi with
    | none => exact Nat.le_refl _
    | some high => exact Nat.zero_le _
  | succ todo ih =>
    intro k tok n hi
    by_cases hsp : tok.getD k 0#8 = spaceByte
    · rw [hexLoop_space hsp]
      exact Nat.le_succ_of_le (ih _ _ _ _)
    cases hv : hexVal upper (tok.getD k 0#8) with
    | none =>
      rw [hexLoop_bad hsp hv]
      exact Nat.zero_le _
    | some v =>
      cases hi with
      | none =>
        have hrec := ih (k + 1) tok n (some v)
        rw [hexLoop_high hsp hv]
        simp only [Option.toList_some, Option.toList_none, List.length_singleton, List.length_nil] at hrec ⊢
        omega
      | some high =>
        have hrec := ih (k + 1) (tok.set n (high ++ v)) (n + 1) none
        rw [hexLoop_low hsp hv]
        simp only [Option.toList_some, Option.toList_none, List.length_singleton, List.length_nil] at hrec ⊢
        omega

theorem hexDecode_length_le (s : State) : 2 * (hexDecode s).2 ≤ s.wLen := by
  have h := hexLoop_length_le s.cfg.hexUpper s.wLen 0 s.tok 0 none
  rwa [Option.toList_none, List.length_nil, Nat.mul_zero, Nat.zero_add] at h

end Sys2Proof.Machine
end

