-- ==== Sys2Proof/Proofs/WordText.lean ====
section
/-! PROOFS. A word read from its text (spec/30_encoding.md R73, R79, spec/43_framing_fsm.md R150 to R155): the reader after some
of the token's bytes, then at the byte that ends the word. -/

namespace Sys2Proof.Machine

/-- A word has been started in a word state, and `tok` has room for it and its terminator (R151, R27). -/
structure WordStarted (cap store : Nat) (s : State) : Prop where
  cap_eq : capOf s.st = some cap
  store_eq : storeOf s.cfg s.st = some store
  phase : s.wPhase = .skip
  cnt : s.wCnt = 0#7
  len : s.wLen = 0
  room : store < s.tok.length

/-- `s` is `s₀` with the word reader's registers and `tok` moved on, and `tok` holds `token`. -/
structure HoldsToken (token : List Byte) (s₀ s : State) : Prop where
  frame : s = { s₀ with wPhase := s.wPhase, wCnt := s.wCnt, wLen := s.wLen, tok := s.tok }
  len : s.wLen = token.length
  tokLen : s.tok.length = s₀.tok.length
  token : s.tok.take token.length = token

/-- The reader after the text of `items`, between two bytes of the token (R152 to R154). -/
structure WordRead (items : List (Bool × Byte)) (s₀ s : State) : Prop extends HoldsToken (items.map Prod.snd) s₀ s where
  not_esc : s.wPhase ≠ .esc
  copy : items ≠ [] → s.wPhase = .copy
  cnt : s.wCnt.toNat = counted items

section
variable {cap store : Nat} {b : Byte} {token : List Byte} {s₀ s t : State}

theorem rxByte_of_more (hcap : capOf s.st = some cap) (hstore : storeOf s.cfg s.st = some store)
    (h : wordStep cap store b s = (.more, t)) : rxByte b s = .ok t :=
  ofExcept_eq_next.mp (exec_rxb_of_more hcap hstore h)

theorem wordStep_delim (hp : s.wPhase = .copy) (hb : isDelim b = true) :
    wordStep cap store b s = (.done, { s with tok := s.tok.set s.wLen termByte }) := by
  have hne : b ≠ escByte := by rintro rfl; simp [isDelim_escByte] at hb
  simpa [hp, hb, hne] using wordStep_cases cap store b s

theorem wordStep_atCap (hp : s.wPhase ≠ .esc) (hb : isDelim b = false) (he : b ≠ escByte) (hl : s.wLen ≠ store)
    (hc : (s.wCnt + 1#7).toNat = cap) :
    wordStep cap store b s =
      (.done, { storeByte b s with wCnt := s.wCnt + 1#7, tok := (s.tok.set s.wLen b).set (s.wLen + 1) termByte }) := by
  simpa [hp, hb, he, hl, hc, -BitVec.toNat_add] using wordStep_cases cap store b s

/-! What stands in `tok`. -/

theorem HoldsToken.st_eq (h : HoldsToken token s₀ s) : s.st = s₀.st := by rw [h.frame]

theorem HoldsToken.cfg_eq (h : HoldsToken token s₀ s) : s.cfg = s₀.cfg := by rw [h.frame]

/-- The byte that ends the word of `s₀` (R157 to R159). -/
theorem HoldsToken.rxByte_of_done (h : HoldsToken token s₀ s) (hstart : WordStarted cap store s₀)
    (hstep : wordStep cap store b s = (.done, t)) : rxByte b s = .ok (wordDone s₀.st t) := by
  have hcap : capOf s.st = some cap := h.st_eq ▸ hstart.cap_eq
  have hstore : storeOf s.cfg s.st = some store := h.cfg_eq ▸ h.st_eq ▸ hstart.store_eq
  rw [rxByte_word hcap hstore, hstep, h.st_eq]
  rfl

/-- One byte more is stored (R152 to R154); the other registers of the reader do not matter. -/
theorem HoldsToken.append_byte (h : HoldsToken token s₀ s) (hroom : token.length < s₀.tok.length) (b : Byte) (ph : WPhase)
    (n : BitVec 7) :
    HoldsToken (token ++ [b]) s₀
      { s with tok := s.tok.set s.wLen b, wLen := s.wLen + 1, wPhase := ph, wCnt := n } := by
  obtain ⟨hframe, hlen, htokLen, htoken⟩ := h
  refine ⟨?_, by simpa using hlen, by simpa using htokLen, ?_⟩
  · rw [hframe]
  · rw [List.length_append, List.length_singleton, hlen]
    exact (take_set_self b (by rwa [htokLen])).trans (congrArg (· ++ [b]) htoken)

/-- The terminator stands behind the token (R155). -/
theorem HoldsToken.terminate (h : HoldsToken token s₀ s) (b : Byte) :
    HoldsToken token s₀ { s with tok := s.tok.set s.wLen b } := by
  obtain ⟨hframe, hlen, htokLen, htoken⟩ := h
  refine ⟨?_, hlen, by simpa using htokLen, ?_⟩
  · rw [hframe]
  · exact (List.take_set_of_le (Nat.le_of_eq hlen.symm)).trans htoken

/-! The bytes of the token. -/

theorem wordRead_nil (h : WordStarted cap store s₀) : WordRead [] s₀ s₀ where
  frame := rfl
  len := h.len
  tokLen := rfl
  token := rfl
  not_esc := by rw [h.phase]; exact WPhase.noConfusion
  copy := fun hne => absurd rfl hne
  cnt := by rw [h.cnt]; rfl

/-- Leading delimiters are skipped (R152). -/
theorem rxBytes_lead (h : WordStarted cap store s₀) {lead : List Byte} (hlead : ∀ b ∈ lead, isDelim b = true) :
    rxBytes lead s₀ = .ok s₀ := by
  induction lead with
  | nil => rfl
  | cons b lead ih =>
    have hb := rxByte_of_more h.cap_eq h.store_eq (wordStep_leadingDelim h.phase (hlead b (by simp)))
    rw [rxBytes_cons hb]
    exact ih fun d hd => hlead d (by simp [hd])

/-- One byte of the token: a plain one is stored and counted, an escaped one is stored (R153, R154). -/
theorem rxBytes_spellItem (h : WordStarted cap store s₀) {items : List (Bool × Byte)} {x : Bool × Byte}
    (hr : WordRead items s₀ s) (hx : x.1 = false → isDelim x.2 = false ∧ x.2 ≠ escByte) (hlen : items.length < store)
    (hcnt : counted (items ++ [x]) < cap) :
    ∃ t, rxBytes (spellItem x) s = .ok t ∧ WordRead (items ++ [x]) s₀ t := by
  have hcap : capOf s.st = some cap := hr.st_eq ▸ h.cap_eq
  have hstore : storeOf s.cfg s.st = some store := hr.cfg_eq ▸ hr.st_eq ▸ h.store_eq
  have hroom := h.room
  have hl : s.wLen = items.length := by simpa using hr.len
  have hcap64 := capOf_le h.cap_eq
  have hstored : ∀ n, HoldsToken ((items ++ [x]).map Prod.snd) s₀
      { s with tok := s.tok.set s.wLen x.2, wLen := s.wLen + 1, wPhase := .copy, wCnt := n } := by
    intro n
    rw [List.map_append]
    exact hr.toHoldsToken.append_byte (by rw [List.length_map]; omega) x.2 .copy n
  obtain ⟨_ | _, b⟩ := x
  case false =>
    obtain ⟨hb, he⟩ := hx rfl
    have hc : (s.wCnt + 1#7).toNat = counted (items ++ [(false, b)]) := by
      have hlt : counted (items ++ [(false, b)]) = counted items + 1 := by simp [counted]
      rw [hlt] at hcnt ⊢
      rw [← hr.cnt]
      exact toNat_succ s.wCnt (by rw [hr.cnt]; omega)
    have hstep := wordStep_counted (cap := cap) (store := store) hr.not_esc hb he (by omega) (by omega)
    exact ⟨_, rxBytes_cons (rxByte_of_more hcap hstore hstep),
      ⟨hstored _, WPhase.noConfusion, fun _ => rfl, hc⟩⟩
  case true =>
    have hesc := rxByte_of_more hcap hstore (wordStep_escByte hr.not_esc)
    have hbyte : rxByte b { s with wPhase := .esc } = .ok (storeByte b { s with wPhase := .esc }) :=
      rxByte_of_more hcap hstore (wordStep_escaped rfl (by change s.wLen ≠ store; omega))
    have hc : counted (items ++ [(true, b)]) = counted items := by simp [counted]
    exact ⟨_, (rxBytes_cons hesc).trans (rxBytes_cons hbyte),
      ⟨hstored _, WPhase.noConfusion, fun _ => rfl, hr.cnt.trans hc.symm⟩⟩

/-- The bytes of the token before the one that ends the word. -/
theorem rxBytes_spell (h : WordStarted cap store s₀) (items : List (Bool × Byte)) :
    PlainOk items → items.length ≤ store → counted items < cap →
      ∃ s, rxBytes (spell items) s₀ = .ok s ∧ WordRead items s₀ s := by
  induction items using List.reverseRecOn with
  | nil => exact fun _ _ _ => ⟨s₀, rfl, wordRead_nil h⟩
  | append_singleton items x ih =>
    intro hplain hlen hcnt
    have hlen' : items.length < store := by simpa using hlen
    have hle : counted items ≤ counted (items ++ [x]) := (List.sublist_append_left items [x]).countP_le
    obtain ⟨s, hs, hr⟩ := ih (fun y hy => hplain y (by simp [hy])) hlen'.le (hle.trans_lt hcnt)
    obtain ⟨t, ht, hr'⟩ := rxBytes_spellItem h hr (hplain x (by simp)) hlen' hcnt
    refine ⟨t, ?_, hr'⟩
    have hspell : spell (items ++ [x]) = spell items ++ spellItem x := by simp [spell]
    rw [hspell, rxBytes_append _ _ _ _ hs, ht]

/-! The end of the word. -/

/-- A text that is one word is read whole; at its last byte the token stands in `tok` and the word is done (R155). -/
theorem rxBytes_wordText (h : WordStarted cap store s₀) {text : List Byte} (htext : WordText cap store text token) :
    ∃ u, rxBytes text s₀ = .ok (wordDone s₀.st u) ∧ HoldsToken token s₀ u := by
  obtain ⟨lead, items, hlead, hplain, hne, hlen, rfl, hend⟩ := htext
  have hskip := rxBytes_lead h hlead
  rcases hend with ⟨hcnt, d, hd, rfl⟩ | ⟨hcnt, hlast, rfl⟩
  · obtain ⟨s, hs, hr⟩ := rxBytes_spell h items hplain hlen hcnt
    have hdone := hr.toHoldsToken.rxByte_of_done h (wordStep_delim (hr.copy hne) hd)
    refine ⟨_, ?_, hr.toHoldsToken.terminate termByte⟩
    rw [List.append_assoc, rxBytes_append _ _ _ _ hskip, rxBytes_append _ _ _ _ hs, rxBytes_cons hdone]
    rfl
  · obtain ⟨items, ⟨esc, b⟩, rfl⟩ := (List.eq_nil_or_concat' items).resolve_left hne
    obtain rfl : esc = false := by simpa using hlast
    have hcnt' : counted items + 1 = cap := by simpa [counted] using hcnt
    have hlen' : items.length < store := by simpa using hlen
    have hcap64 := capOf_le h.cap_eq
    obtain ⟨s, hs, hr⟩ := rxBytes_spell h items (fun y hy => hplain y (by simp [hy])) hlen'.le (by omega)
    obtain ⟨hb, he⟩ := hplain (false, b) (by simp) rfl
    have hl : s.wLen = items.length := by simpa using hr.len
    have hcap : (s.wCnt + 1#7).toNat = cap := by
      rw [← hcnt', ← hr.cnt]
      exact toNat_succ s.wCnt (by rw [hr.cnt]; omega)
    have hdone := hr.toHoldsToken.rxByte_of_done h
      (wordStep_atCap hr.not_esc hb he (by omega) hcap)
    have hroom := h.room
    have hstored := hr.toHoldsToken.append_byte (by rw [List.length_map]; omega) b .copy (s.wCnt + 1#7)
    have hspell : spell (items ++ [(false, b)]) = spell items ++ [b] := by simp [spell, spellItem]
    rw [List.map_append]
    refine ⟨_, ?_, hstored.terminate termByte⟩
    rw [hspell, rxBytes_append _ _ _ _ hskip, rxBytes_append _ _ _ _ hs, rxBytes_cons hdone]
    rfl

end

end Sys2Proof.Machine
end

