-- ==== Sys2Proof/Proofs/TextFrames.lean ====
section
/-! PROOFS. The text frames met while scanning (spec/30_encoding.md R73, R74, spec/43_framing_fsm.md R157 to R162): one word for
a command, two for a configuration. -/

namespace Sys2Proof.Machine

section
variable {cap store : Nat} {text token name value : List Byte} {s s₀ u : State}

theorem WordText.length_pos (h : WordText cap store text token) : 0 < token.length := by
  obtain ⟨lead, items, -, -, hne, -, rfl, -⟩ := h
  rw [List.length_map]
  exact List.length_pos_iff.mpr hne

theorem WordText.length_le (h : WordText cap store text token) : token.length ≤ store := by
  obtain ⟨lead, items, -, -, -, hlen, rfl, -⟩ := h
  rwa [List.length_map]

/-- What reading a word leaves alone. -/
theorem HoldsToken.rest_eq (h : HoldsToken token s₀ u) : u.events = s₀.events ∧ u.drops = s₀.drops ∧
    u.reorder = s₀.reorder ∧ u.name = s₀.name ∧ u.nameLen = s₀.nameLen := by
  rw [h.frame]
  exact ⟨rfl, rfl, rfl, rfl, rfl⟩

/-! The start of a frame's word (R144, R151). -/

/-- The state in which the first byte of a text frame's first word is read. -/
def textStart (st : RxSt) (s : State) : State := { wordStart s with st := st }

theorem rxBytes_commandStart (hst : s.st = .sScan) :
    rxBytes (markByte :: typeC :: text) s = rxBytes text (textStart .sCmd s) := rxBytes_frameStart hst typeC text

theorem rxBytes_configStart (hst : s.st = .sScan) :
    rxBytes (markByte :: typeD :: text) s = rxBytes text (textStart .sName s) := rxBytes_frameStart hst typeD text

theorem wordStarted_textStart {st : RxSt} (hc : s.cfg.Legal) (hs : StoresOk s) (hcap : capOf st = some cap)
    (hstore : storeOf s.cfg st = some store) : WordStarted cap store (textStart st s) where
  cap_eq := hcap
  store_eq := hstore
  phase := rfl
  cnt := rfl
  len := rfl
  room := by
    change store < s.tok.length
    rw [hs.1]
    exact Nat.lt_succ_of_le (storeOf_le hc hstore)

/-! The finished words (R158, R160, R161). -/

theorem cmdFin_of_token (h : HoldsToken token s₀ u) (hpos : 0 < token.length) :
    cmdFin u = (u.emit (.command token)).toScan := by
  have hlen := h.len
  rw [cmdFin, if_neg (by omega), hlen, h.token]

/-- The name moves to its own store, and the value word starts (R158). -/
theorem nameDone_of_token (h : HoldsToken token s₀ u) (htok : token.length < u.tok.length)
    (hname : token.length < u.name.length) :
    ∃ n, nameDone u = { textStart .sValue u with name := n, nameLen := token.length } ∧ n.take token.length = token := by
  obtain ⟨n, hn, hnlen, hget⟩ := memWrite_name u (u.tok.take (u.wLen + 1)) 0
  refine ⟨n, by rw [nameDone, hn, h.len]; rfl, ?_⟩
  have htake : n.take token.length = u.tok.take token.length := by
    apply List.ext_getElem?
    intro k
    by_cases hk : k < token.length
    · rw [List.getElem?_take_of_lt hk, hget, h.len, List.length_take, if_pos (by omega),
        List.getElem?_take_of_lt (by omega), Nat.sub_zero, List.getElem?_take_of_lt hk]
    · rw [List.getElem?_take_eq_none (by omega), List.getElem?_take_eq_none (by omega)]
  rw [htake, h.token]

section
variable (hname : u.nameLen ≠ 0) (hpos : u.wLen ≠ 0) (hlen : u.wLen ≤ u.tok.length)
include hname hpos hlen

/-- A value that decodes to at least one byte leaves with the name (R161). -/
theorem cfgFin_of_hexText {bytes : List Byte} (hne : bytes ≠ [])
    (hhex : hexText u.cfg.hexUpper (u.tok.take u.wLen) = some bytes) :
    cfgFin u = ((hexDecode u).1.emit (.config (u.name.take u.nameLen) bytes)).toScan := by
  obtain ⟨hval, htake⟩ := hexDecode_of_hexText hlen hhex
  have hne' : bytes.length ≠ 0 := fun h0 => hne (List.length_eq_zero_iff.mp h0)
  rw [cfgFin, if_neg (by omega)]
  dsimp only
  rw [hval, if_neg hne', htake]

/-- A value that decodes to nothing discards its frame (R161). -/
theorem cfgFin_of_badHex
    (hhex : hexText u.cfg.hexUpper (u.tok.take u.wLen) = none ∨ hexText u.cfg.hexUpper (u.tok.take u.wLen) = some []) :
    cfgFin u = (hexDecode u).1.discard .badHex := by
  have hval : (hexDecode u).2 = 0 := by
    rcases hhex with hnone | hnil
    · exact hexDecode_of_hexText_none hlen hnone
    · exact (hexDecode_of_hexText hlen hnil).1
  rw [cfgFin, if_neg (by omega)]
  exact if_pos hval

end

/-! The frames. -/

/-- A finished configuration, whatever its value: back at scanning, and the reorder state as it was (R161). -/
theorem cfgFin_rest (u : State) : (cfgFin u).st = .sScan ∧ (cfgFin u).reorder = u.reorder := by
  refine ⟨?_, reorder_wordDone .sValue u⟩
  unfold cfgFin
  split
  · rfl
  · dsimp only
    split <;> rfl

/-- `u` is `s` with the two words of a configuration read: the name in its store, the value in `tok` (R158, R159). -/
structure ConfigRead (name value : List Byte) (s u : State) : Prop where
  events : u.events = s.events
  drops : u.drops = s.drops
  reorder : u.reorder = s.reorder
  cfg : u.cfg = s.cfg
  name_eq : u.name.take u.nameLen = name
  nameLen : u.nameLen = name.length
  wLen : u.wLen = value.length
  room : u.wLen ≤ u.tok.length
  value_eq : u.tok.take u.wLen = value

/-- A configuration frame's two words are read up to the end of the second, with the name in its store (R158, R159). -/
theorem rxBytes_configFrame {text1 text2 : List Byte} (hc : s.cfg.Legal) (hs : StoresOk s) (hst : s.st = .sScan)
    (h1 : WordText capName s.cfg.store16 text1 name) (h2 : WordText capValue s.cfg.store64 text2 value) :
    ∃ u, rxBytes (markByte :: typeD :: (text1 ++ text2)) s = .ok (cfgFin u) ∧ ConfigRead name value s u := by
  have hstart := wordStarted_textStart (st := .sName) (cap := capName) hc hs rfl rfl
  obtain ⟨u₁, hu₁, htok₁⟩ := rxBytes_wordText hstart h1
  obtain ⟨hev₁, hdr₁, hre₁, hnm₁, -⟩ := htok₁.rest_eq
  have hle₁ := h1.length_le
  have hle₂ := h2.length_le
  obtain ⟨htoklen, hnamelen⟩ := hs
  have hlen₁ : u₁.tok.length = s.cfg.store64 + 1 := htok₁.tokLen.trans htoklen
  have hname₁ : u₁.name.length = s.cfg.store16 + 1 := (congrArg List.length hnm₁).trans hnamelen
  have hroom : s.cfg.store16 ≤ s.cfg.store64 := storeOf_le (st := .sName) hc rfl
  obtain ⟨n, hdone, hn⟩ := nameDone_of_token htok₁ (by omega) (by omega)
  have hcfg₁ : u₁.cfg = s.cfg := htok₁.cfg_eq
  have hstart₂ : WordStarted capValue s.cfg.store64 (nameDone u₁) := by
    rw [hdone]
    exact ⟨rfl, congrArg (fun c : Config => some c.store64) hcfg₁, rfl, rfl, rfl, by
      change s.cfg.store64 < u₁.tok.length
      omega⟩
  obtain ⟨u₂, hu₂, htok₂⟩ := rxBytes_wordText hstart₂ h2
  obtain ⟨hev₂, hdr₂, hre₂, hnm₂, hnl₂⟩ := htok₂.rest_eq
  have hcfg₂ := htok₂.cfg_eq
  have hlen₂ := htok₂.tokLen
  rw [hdone] at hev₂ hdr₂ hre₂ hnm₂ hnl₂ hcfg₂ hlen₂
  refine ⟨u₂, ?_, hev₂.trans hev₁, hdr₂.trans hdr₁, hre₂.trans hre₁, hcfg₂.trans hcfg₁, ?_, hnl₂, htok₂.len, ?_, ?_⟩
  · rw [rxBytes_configStart hst, rxBytes_append _ _ _ _ hu₁]
    refine hu₂.trans ?_
    rw [hdone]
    rfl
  · rw [hnm₂, hnl₂]
    exact hn
  · rw [hlen₂, htok₂.len]
    change value.length ≤ u₁.tok.length
    omega
  · rw [htok₂.len, htok₂.token]

end

/-- Settles O45: the frame is one word, and a finished command leaves. -/
theorem commandFrameDeliversToken : Obligations.CommandFrameDeliversToken := by
  intro text token s hc hs hst htext
  obtain ⟨u, hu, htok⟩ := rxBytes_wordText (wordStarted_textStart (st := .sCmd) hc hs rfl rfl) htext
  obtain ⟨hev, hdr, hre, -, -⟩ := htok.rest_eq
  have hfin : wordDone (textStart .sCmd s).st u = (u.emit (.command token)).toScan :=
    cmdFin_of_token htok htext.length_pos
  have hrun : rxBytes (markByte :: typeC :: text) s = .ok (u.emit (.command token)).toScan := by
    rw [rxBytes_commandStart hst, hu, hfin]
  obtain ⟨htx, -, hout, hres⟩ := rxBytes_frame hrun
  exact ⟨_, ofExcept_eq_next.mpr hrun, rfl, congrArg (· ++ [Event.command token]) hev, hdr, hre, htx, hout, hres⟩

/-- Settles O46: the frame is two words, and a finished configuration leaves or is dropped by what its value decodes to. -/
theorem configFrameDeliversNameAndValue : Obligations.ConfigFrameDeliversNameAndValue := by
  intro text1 text2 name value s hc hs hst h1 h2
  obtain ⟨u, hrun, hread⟩ := rxBytes_configFrame hc hs hst h1 h2
  obtain ⟨htx, -, hout, hres⟩ := rxBytes_frame hrun
  obtain ⟨hscan, hre⟩ := cfgFin_rest u
  have hnl : u.nameLen ≠ 0 := by rw [hread.nameLen]; exact h1.length_pos.ne'
  have hwl : u.wLen ≠ 0 := by rw [hread.wLen]; exact h2.length_pos.ne'
  have hhex : hexText u.cfg.hexUpper (u.tok.take u.wLen) = hexText s.cfg.hexUpper value := by
    rw [hread.cfg, hread.value_eq]
  refine ⟨_, ofExcept_eq_next.mpr hrun, hscan, hre.trans hread.reorder, htx, hout, hres, fun bytes hbytes hne => ?_,
    fun hbad => ?_⟩
  · rw [cfgFin_of_hexText hnl hwl hread.room hne (hhex.trans hbytes), hread.name_eq, ← hread.events, ← hread.drops]
    exact ⟨rfl, rfl⟩
  · rw [cfgFin_of_badHex hnl hwl hread.room (hhex ▸ hbad), ← hread.events, ← hread.drops]
    exact ⟨rfl, rfl⟩

end Sys2Proof.Machine
end

