-- ==== Sys2Proof/Proofs/DeliveredRecords.lean ====
section
/-! PROOFS. What an accepted packet and `SETWIN` deliver (spec/30_encoding.md R90, R91, spec/44_reorder.md R182 to R190): packets
of the ring and the packet itself, no more of them than the window allows, since the ring's front is a gap. -/

namespace Sys2Proof.Machine

/-! The records of a ring. -/

section
variable {rb : List Slot} {e : Event} {q : Packet}

theorem mem_arrivals : e ∈ arrivals rb ↔ ∃ q, .full q ∈ rb ∧ e = .pktArrived q := by
  induction rb with
  | nil => simp
  | cons v rest ih => cases v <;> simp [ih]

theorem arrivals_mono {rb' : List Slot} (h : ∀ v ∈ rb', v ∈ rb) (he : e ∈ arrivals rb') : e ∈ arrivals rb := by
  obtain ⟨q, hq, rfl⟩ := mem_arrivals.mp he
  exact mem_arrivals.mpr ⟨q, h _ hq, rfl⟩

/-- The gap at the front is no record (R190 (b)). -/
theorem length_arrivals_of_frontOk (h : FrontOk rb) : (arrivals rb).length ≤ rb.length - 1 := by
  cases rb with
  | nil => exact Nat.le_refl 0
  | cons v rest =>
    cases v with
    | empty => exact arrivals_length_le rest
    | full q => cases h

theorem length_arrivals_takeWhile_le (rb : List Slot) :
    (arrivals (rb.takeWhile Slot.occupied)).length ≤ (arrivals rb).length :=
  ((List.takeWhile_sublist _).filterMap _).length_le

theorem arrivals_replicate_empty (n : Nat) : arrivals (List.replicate n .empty) = [] := by
  induction n with
  | zero => rfl
  | succ n ih => exact ih

end

/-- The records of packets that were valid (R90). -/
def AllArrived (c : Config) (es : List Event) : Prop := ∀ e ∈ es, e.Ok c ∧ e.kind = 0

theorem allArrived_arrivals {c : Config} {l : U16} {rb : List Slot} (h : SlotsOk c l rb) : AllArrived c (arrivals rb) := by
  intro e he
  obtain ⟨q, hq, rfl⟩ := mem_arrivals.mp he
  obtain ⟨k, hk⟩ := List.mem_iff_getElem?.mp hq
  exact ⟨(h k q hk).2, rfl⟩

theorem allArrived_append {c : Config} {es fs : List Event} (he : AllArrived c es) (hf : AllArrived c fs) :
    AllArrived c (es ++ fs) := by
  intro e h
  rcases List.mem_append.mp h with h | h
  · exact he e h
  · exact hf e h

/-! An accepted packet. -/

section
variable {p : Packet} {s t : State}

/-- What the branch taken delivers, with what it leaves full at the front for the drain: at most as many records as the
ring had slots, or one (R91). -/
theorem reorderBranch_delivers (h : ReorderOk s) (hw : s.win ≠ 0#16) (ht : reorderBranch p s = .ok t) :
    ∃ es, t.events = s.events ++ es ∧ AllArrived s.cfg es ∧
      es.length + (arrivals (t.rb.takeWhile Slot.occupied)).length ≤ max s.rb.length 1 := by
  obtain ⟨-, hfront, -, hslots⟩ := h
  have hgap := length_arrivals_of_frontOk hfront
  have hold := allArrived_arrivals hslots
  obtain ⟨u, hu, hcase⟩ := reorderBranch_cases p hw
  cases hu.symm.trans ht
  have hdrain := length_arrivals_takeWhile_le t.rb
  rcases hcase with ⟨hd, hdw, hnew⟩ | ⟨-, -, rfl⟩ | ⟨-, -, rfl⟩ | ⟨-, -, -, rfl⟩
  · rw [newAhead_eq p (by omega) (by omega)] at hnew
    cases hnew
    generalize min s.rb.length _ = k at hdrain ⊢
    refine ⟨arrivals (s.rb.take k), rfl, fun e he => hold e (arrivals_mono (fun v => List.mem_of_mem_take) he), ?_⟩
    have hsplit := congrArg List.length (arrivals_append (s.rb.take k) (s.rb.drop k))
    rw [List.take_append_drop, List.length_append] at hsplit
    simp only [arrivals_append, arrivals_replicate_empty, arrivals_cons_full, arrivals_nil, List.append_nil,
      List.length_append, List.length_singleton] at hdrain ⊢
    omega
  · refine ⟨[], (List.append_nil _).symm, fun e he => absurd he List.not_mem_nil, ?_⟩
    have hset := hdrain.trans (arrivals_length_le _)
    rw [List.length_set] at hset
    exact (Nat.zero_add _).trans_le (hset.trans (Nat.le_max_left _ _))
  · refine ⟨arrivals s.rb, rfl, hold, ?_⟩
    have hone := hdrain.trans (arrivals_length_le _)
    rw [List.length_singleton] at hone
    omega
  · refine ⟨[], (List.append_nil _).symm, fun e he => absurd he List.not_mem_nil, ?_⟩
    rw [dropped_rb] at hdrain ⊢
    rw [List.length_nil]
    omega

/-- What an accepted packet delivers (R91): with the window off itself, else what its branch and the drain deliver. -/
theorem reorderAccept_delivers (h : ReorderOk s) (hv : pktValid s.cfg p = true) (ht : reorderAccept p s = .ok t) :
    ∃ es, t.events = s.events ++ es ∧ AllArrived s.cfg es ∧ es.length ≤ max (s.win.toNat - 1) 1 := by
  by_cases hw : s.win = 0#16
  · rw [reorderAccept, if_pos hw] at ht
    cases ht
    refine ⟨[.pktArrived p], rfl, fun e he => ?_, Nat.le_max_right _ _⟩
    obtain rfl := List.mem_singleton.mp he
    exact ⟨hv, rfl⟩
  · obtain ⟨u, hu, -⟩ := reorderBranch_cases p hw
    obtain ⟨es, hes, hok, hlen⟩ := reorderBranch_delivers h hw hu
    obtain ⟨hcfg, -, -, hslots, -⟩ := reorderBranch_branchOk h hw hv hu
    obtain ⟨⟨-, -, hroom⟩, -, -, -⟩ := h
    have hlt := hroom hw
    have hdrained : AllArrived s.cfg (arrivals (u.rb.takeWhile Slot.occupied)) := fun e he =>
      allArrived_arrivals (hcfg ▸ hslots) e (arrivals_mono (fun _ hv => (List.takeWhile_sublist _).subset hv) he)
    cases (reorderAccept_on hw hu).symm.trans ht
    refine ⟨es ++ arrivals (u.rb.takeWhile Slot.occupied), ?_, allArrived_append hok hdrained, ?_⟩
    · rw [← List.append_assoc, ← hes]
    · rw [List.length_append]
      omega

end

/-- What `SETWIN` delivers (R91, R222): at most `W - 2` records, for the ring has at most `W - 1` slots, the front a gap. -/
theorem flush_delivers {s : State} (h : ReorderOk s) :
    AllArrived s.cfg (arrivals s.rb) ∧ (arrivals s.rb).length ≤ s.win.toNat - 2 := by
  obtain ⟨⟨-, hoff, hroom⟩, hfront, -, hslots⟩ := h
  refine ⟨allArrived_arrivals hslots, ?_⟩
  by_cases hw : s.win = 0#16
  · rw [hoff hw]
    exact Nat.zero_le _
  · have hlt := hroom hw
    have hgap := length_arrivals_of_frontOk hfront
    omega

end Sys2Proof.Machine
end

