-- ==== Sys2Proof/Proofs/EmittedRecords.lean ====
section
/-! PROOFS. The records of one operation (spec/30_encoding.md R90, R91, spec/43_framing_fsm.md R165): which kinds each operation
emits, that every record is well formed, and how many there are. -/

namespace Sys2Proof.Machine

/-! Records appended. -/

/-- `t` is `s` with records appended, and all of them have the property `P`. -/
def Emits (P : Event → Prop) (s t : State) : Prop := ∃ es, t.events = s.events ++ es ∧ ∀ e ∈ es, P e

section
variable {P : Event → Prop} {s t u : State}

theorem emits_of_events_eq (h : t.events = s.events) : Emits P s t :=
  ⟨[], by rw [h, List.append_nil], fun e he => absurd he List.not_mem_nil⟩

theorem Emits.trans (h : Emits P s t) (h' : Emits P t u) : Emits P s u := by
  obtain ⟨es, hes, hP⟩ := h
  obtain ⟨fs, hfs, hP'⟩ := h'
  exact ⟨es ++ fs, by rw [hfs, hes, List.append_assoc], fun e he => (List.mem_append.mp he).elim (hP e) (hP' e)⟩

end

/-! A received byte (R142). -/

/-- A record of a text frame (R90). -/
def IsTextRecord (c : Config) (e : Event) : Prop := e.Ok c ∧ (e.kind = 2 ∨ e.kind = 3)

/-- What a received byte appends: the packets an accepted packet delivers, within the bound of R91, or one text record. -/
def RxbRecords (s : State) (es : List Event) : Prop :=
  (AllArrived s.cfg es ∧ es.length ≤ max (s.win.toNat - 1) 1) ∨ ∃ e, es = [e] ∧ IsTextRecord s.cfg e

/-- `t` is `s` with the records of one received byte appended. -/
def EmitsRxb (s t : State) : Prop := ∃ es, t.events = s.events ++ es ∧ RxbRecords s es

theorem emitsRxb_of_events_eq {s t : State} (h : t.events = s.events) : EmitsRxb s t :=
  ⟨[], by rw [h, List.append_nil], .inl ⟨fun _ he => absurd he List.not_mem_nil, Nat.zero_le _⟩⟩

section
variable {s : State} {store : Nat}

theorem length_take_of_finished (hf : WordFinished store s) : (s.tok.take s.wLen).length = s.wLen := by
  obtain ⟨-, -, hterm⟩ := hf
  have hlt : s.wLen < s.tok.length := (List.getElem?_eq_some_iff.mp hterm).1
  rw [List.length_take]
  omega

/-- A finished command leaves as one record (R160). -/
theorem cmdFin_records (hf : WordFinished s.cfg.store16 s) :
    EmitsRxb s (cmdFin s) := by
  have hlen := length_take_of_finished hf
  obtain ⟨hpos, hle, -⟩ := hf
  rw [cmdFin, if_neg (by omega)]
  refine ⟨[.command (s.tok.take s.wLen)], rfl, .inr ⟨_, rfl, ?_, .inr rfl⟩⟩
  change 1 ≤ (s.tok.take s.wLen).length ∧ (s.tok.take s.wLen).length ≤ s.cfg.store16
  rw [hlen]
  exact ⟨hpos, hle⟩

theorem nameDone_events (s : State) : (nameDone s).events = s.events := by
  obtain ⟨n, hn, -, -⟩ := memWrite_name s (s.tok.take (s.wLen + 1)) 0
  rw [nameDone, hn]
  rfl

/-- A configuration leaves as one record, or is dropped; its value has one byte for two digits (R161, R162). -/
theorem cfgFin_records (hs : StoresOk s) (hst : s.st = .sValue) (hn : NameOk s) (hle : s.wLen ≤ s.cfg.store64) :
    EmitsRxb s (cfgFin s) := by
  obtain ⟨hnpos, hnle, -⟩ := hn hst
  have hvle := hexDecode_length_le s
  obtain ⟨htok, hname⟩ := storesOk_hexDecode hs
  have hcfg : (hexDecode s).1.cfg = s.cfg := rfl
  have hnm : (hexDecode s).1.name = s.name := rfl
  rw [hcfg] at htok hname
  rw [hnm] at hname
  unfold cfgFin
  split
  · exact emitsRxb_of_events_eq rfl
  dsimp only
  split
  · exact emitsRxb_of_events_eq rfl
  case isFalse hval =>
    refine ⟨[.config (s.name.take s.nameLen) ((hexDecode s).1.tok.take (hexDecode s).2)], rfl,
      .inr ⟨_, rfl, ?_, .inl rfl⟩⟩
    simp only [Event.Ok, List.length_take]
    omega

/-- What a finished word appends, in each of the three word states (R157 to R161). -/
theorem wordDone_records (hs : StoresOk s) (hn : NameOk s) (hstore : storeOf s.cfg s.st = some store)
    (hf : WordFinished store s) : EmitsRxb s (wordDone s.st s) := by
  cases hst : s.st <;> rw [hst] at hstore <;> cases hstore
  case sCmd => exact cmdFin_records hf
  case sName => exact emitsRxb_of_events_eq (nameDone_events s)
  case sValue =>
    obtain ⟨-, hle, -⟩ := hf
    exact cfgFin_records hs hst hn hle

end

section
variable {b : Byte} {s t : State}

/-- What a byte appends depends on the records before it, the parameters and the window only. -/
theorem emitsRxb_congr {u : State} (hev : u.events = s.events) (hc : u.cfg = s.cfg) (hw : u.win = s.win)
    (h : EmitsRxb u t) : EmitsRxb s t := by
  simpa only [EmitsRxb, RxbRecords, hev, hc, hw] using h

theorem wordBounds_of_framingOk {cap store : Nat} (h : FramingOk s) (hcap : capOf s.st = some cap)
    (hstore : storeOf s.cfg s.st = some store) : WordBounds cap store s := by
  obtain ⟨-, -, hword, -⟩ := h
  obtain ⟨hlt, hcl, hls, hskip, hcopy⟩ := hword cap store hcap hstore
  exact ⟨hlt, hcl, hls, hskip, hcopy⟩

/-- A byte inside a word (R157 to R159). -/
theorem afterWordStep_records {cap store : Nat} (hc : s.cfg.Legal) (h : FramingOk s) (hcap : capOf s.st = some cap)
    (hstore : storeOf s.cfg s.st = some store) :
    EmitsRxb s (afterWordStep s.st (wordStep cap store b s)) := by
  have hw := wordBounds_of_framingOk h hcap hstore
  obtain ⟨hs, -, -, hname⟩ := h
  have hroom : store < s.tok.length := by
    rw [hs.1]
    exact Nat.lt_succ_of_le (storeOf_le hc hstore)
  have hs' := storesOk_wordStep (cap := cap) (store := store) (b := b) hs
  have hn' := nameOk_wordStep (cap := cap) (store := store) (b := b) hname
  have hframe := wordStep_frame cap store b s
  rcases hr : wordStep cap store b s with ⟨r, u⟩
  simp only [hr] at hs' hn' hframe
  have hev : u.events = s.events := by rw [hframe]
  have hst : u.st = s.st := by rw [hframe]
  have hcfg : u.cfg = s.cfg := by rw [hframe]
  have hwin : u.win = s.win := by rw [hframe]
  rw [← hst]
  cases r with
  | more => exact emitsRxb_of_events_eq hev
  | overflow => exact emitsRxb_of_events_eq hev
  | done =>
    rw [← hst, ← hcfg] at hstore
    exact emitsRxb_congr hev hcfg hwin (wordDone_records hs' hn' hstore (wordFinished_of_done hw hroom hr))

theorem onScan_events : (onScan b s).events = s.events := by
  unfold onScan
  split <;> rfl

theorem onType_events : (onType b s).events = s.events := by
  unfold onType
  split
  · rfl
  split
  · rfl
  split <;> rfl

/-- A body byte: the 31st may complete a packet that is valid (R145, R146). -/
theorem onPkt_records (hr : ReorderOk s) (ht : onPkt b s = .ok t) : EmitsRxb s t := by
  rw [onPkt_eq] at ht
  split at ht
  case isFalse =>
    cases ht
    exact emitsRxb_of_events_eq rfl
  case isTrue =>
    rw [pktFin_eq] at ht
    split at ht
    case isFalse =>
      cases ht
      exact emitsRxb_of_events_eq rfl
    case isTrue hv =>
      obtain ⟨u, hu⟩ := reorderAccept_ok (pktMark (bodyStored b s).rxbuf) (marked (bodyStored b s))
      rw [hu] at ht
      cases ht
      obtain ⟨es, hes, hall, hlen⟩ := reorderAccept_delivers (s := marked (bodyStored b s)) hr hv hu
      exact ⟨es, hes, .inl ⟨hall, hlen⟩⟩

/-- What a received byte appends, by the state that takes it (R142). -/
theorem rxByte_records (h : Inv s) (ht : rxByte b s = .ok t) : EmitsRxb s t := by
  obtain ⟨hc, hf, hr, -⟩ := (inv_iff s).mp h
  have word : ∀ {cap store}, capOf s.st = some cap → storeOf s.cfg s.st = some store →
      EmitsRxb s t := by
    intro cap store hcap hstore
    cases (rxByte_word hcap hstore).symm.trans ht
    exact afterWordStep_records hc hf hcap hstore
  cases hst : s.st
  case sScan =>
    simp only [rxByte, hst] at ht
    cases ht
    exact emitsRxb_of_events_eq onScan_events
  case sType =>
    simp only [rxByte, hst] at ht
    cases ht
    exact emitsRxb_of_events_eq onType_events
  case sPkt =>
    simp only [rxByte, hst] at ht
    exact onPkt_records hr ht
  case sCmd => exact word (congrArg capOf hst) (congrArg (storeOf s.cfg) hst)
  case sName => exact word (congrArg capOf hst) (congrArg (storeOf s.cfg) hst)
  case sValue => exact word (congrArg capOf hst) (congrArg (storeOf s.cfg) hst)

end

/-! The operations. -/

/-- A well-formed record of one of the kinds of the receive side. -/
def IsReceiveRecord (c : Config) (e : Event) : Prop := e.Ok c ∧ (e.kind = 0 ∨ e.kind = 2 ∨ e.kind = 3)

/-- The kinds of records each operation may emit (R90). -/
def MayEmit (i : Instr) (kind : Nat) : Prop :=
  match i with
  | .reset => False
  | .rxb _ => kind = 0 ∨ kind = 2 ∨ kind = 3
  | .beginOp => kind = 1
  | .paywr _ _ => False
  | .smpwr _ _ => False
  | .setord _ => False
  | .setwin _ => kind = 0
  | .crcupd _ _ => False
  | .reservedOp _ => False
  | .frameR _ => kind = 0 ∨ kind = 2 ∨ kind = 3
  | .frameC _ => kind = 0 ∨ kind = 2 ∨ kind = 3
  | .frameD _ => kind = 0 ∨ kind = 2 ∨ kind = 3
  | .frameOther _ => kind = 0 ∨ kind = 2 ∨ kind = 3
  | .feed _ => kind = 0 ∨ kind = 2 ∨ kind = 3
  | .crcCompute _ => False
  | .sample _ => kind = 1
  | .feedpkt _ => kind = 0 ∨ kind = 2 ∨ kind = 3

section
variable {s t : State}

theorem rxByte_emits {b : Byte} (h : Inv s) (ht : rxByte b s = .ok t) : Emits (IsReceiveRecord s.cfg) s t := by
  obtain ⟨es, hes, hrec⟩ := rxByte_records h ht
  refine ⟨es, hes, fun e he => ?_⟩
  rcases hrec with ⟨hall, -⟩ | ⟨_, rfl, hok, hkind⟩
  · obtain ⟨hok, hkind⟩ := hall e he
    exact ⟨hok, .inl hkind⟩
  · obtain rfl := List.mem_singleton.mp he
    exact ⟨hok, .inr hkind⟩

theorem rxBytes_emits (bs : List Byte) :
    ∀ {s t : State}, Inv s → rxBytes bs s = .ok t → Emits (IsReceiveRecord s.cfg) s t := by
  induction bs with
  | nil =>
    intro s t h ht
    cases ht
    exact emits_of_events_eq rfl
  | cons b bs ih =>
    intro s t h ht
    obtain ⟨u, hu⟩ := rxByte_ok b s
    obtain ⟨-, -, hout, -⟩ := rxByte_frame hu
    have hcfg : u.cfg = s.cfg := congrArg Prod.fst hout
    rw [rxBytes_cons hu] at ht
    exact (rxByte_emits h hu).trans (hcfg ▸ ih (rxByte_keeps_inv h hu) ht)

theorem ofExcept_rxBytes_emits {bs : List Byte} (h : Inv s) (ht : ofExcept (rxBytes bs s) = .next t) :
    Emits (IsReceiveRecord s.cfg) s t := rxBytes_emits bs h (ofExcept_eq_next.mp ht)

/-- The records `BEGIN` emits, by the mode (R204 to R207). -/
theorem readyRecords_kind (s : State) (j : SlotIndex) : ∀ e ∈ readyRecords s j, e.Ok s.cfg ∧ e.kind = 1 := by
  intro e he
  unfold readyRecords at he
  split at he
  · obtain rfl := List.mem_singleton.mp he
    exact ⟨trivial, rfl⟩
  · obtain rfl := List.mem_singleton.mp he
    exact ⟨trivial, rfl⟩
  · rcases List.mem_pair.mp he with rfl | rfl <;> exact ⟨trivial, rfl⟩

theorem length_readyRecords (s : State) (j : SlotIndex) :
    (readyRecords s j).length = if s.mode = .mode2 then 2 else 1 := by
  unfold readyRecords
  cases s.mode <;> rfl

theorem beginSample_events (s : State) :
    (beginSample s).events = s.events ++ readyRecords s (slotOf (s.seqTx + 1#16) ^^^ lookBehind) := by
  rw [beginSample_eq]

theorem beginSample_emits (s : State) : Emits (fun e => e.Ok s.cfg ∧ e.kind = 1) s (beginSample s) :=
  ⟨_, beginSample_events s, readyRecords_kind s _⟩

theorem putSamples_events (ch : Nat) (rs : List U24) (s : State) : (putSamples ch rs s).events = s.events := by
  obtain ⟨p, hp⟩ := putSamples_frame rs ch s
  rw [hp, setHist_events]

/-- A payload write and `SETORD` emit nothing (R90). -/
theorem events_of_payloadWrite {i : Instr} (hi : isPayloadWrite i = true) (ht : exec i s = .next t) :
    t.events = s.events := by
  cases i <;> cases hi
  case paywr off b =>
    change execPaywr off b s = _ at ht
    unfold execPaywr at ht
    split at ht <;> cases ht
    rw [writeByte_payload s b (by omega), setHist_events]
  case smpwr ch raw =>
    change execSmpwr ch raw s = _ at ht
    unfold execSmpwr at ht
    split at ht <;> cases ht
    rfl

theorem events_of_setord {m : BitVec 2} (ht : execSetord m s = .next t) : t.events = s.events := by
  unfold execSetord at ht
  split at ht <;> cases ht
  rfl

/-- `SETWIN` delivers the ring (R222). -/
theorem events_of_setwin {size : U16} (ht : exec (.setwin size) s = .next t) : t.events = s.events ++ arrivals s.rb := by
  rw [exec_setwin] at ht
  split at ht <;> cases ht
  rfl

/-- Every operation appends well-formed records of its own kinds (R90). -/
theorem exec_emits {i : Instr} (h : Inv s) (ht : exec i s = .next t) :
    Emits (fun e => e.Ok s.cfg ∧ MayEmit i e.kind) s t := by
  cases i
  case reset => cases ht; exact emits_of_events_eq rfl
  case rxb b => exact rxByte_emits h (ofExcept_eq_next.mp ht)
  case beginOp => cases ht; exact beginSample_emits s
  case paywr off b => exact emits_of_events_eq (events_of_payloadWrite rfl ht)
  case smpwr ch raw => exact emits_of_events_eq (events_of_payloadWrite rfl ht)
  case setord m => exact emits_of_events_eq (events_of_setord ht)
  case setwin size =>
    obtain ⟨-, -, hr, -⟩ := (inv_iff s).mp h
    exact ⟨_, events_of_setwin ht, (flush_delivers hr).1⟩
  case crcupd crc b => cases ht; exact emits_of_events_eq rfl
  case reservedOp low => cases ht
  case frameR body => exact ofExcept_rxBytes_emits h ht
  case frameC body => exact ofExcept_rxBytes_emits h ht
  case frameD body => exact ofExcept_rxBytes_emits h ht
  case frameOther type => exact ofExcept_rxBytes_emits h ht
  case feed bytes => exact ofExcept_rxBytes_emits h ht
  case crcCompute bytes =>
    cases ht
    obtain ⟨rs, hrs⟩ := crcChain_frame bytes 0#16 s
    exact emits_of_events_eq (by rw [hrs])
  case sample raws =>
    cases ht
    exact (beginSample_emits s).trans (emits_of_events_eq (putSamples_events 0 raws.toList _))
  case feedpkt p => exact ofExcept_rxBytes_emits h ht

end

/-- Settles O53: every operation emits records of its own kinds, and those that have no kind emit none. -/
theorem emittedRecordsAreWellFormed : Obligations.EmittedRecordsAreWellFormed := by
  intro i s h hlegal
  obtain ⟨t, ht⟩ := exec_next_of_legal hlegal
  obtain ⟨es, hes, hrec⟩ := exec_emits h ht
  have hkind : ∀ e ∈ es, MayEmit i e.kind := fun e he => (hrec e he).2
  refine ⟨t, es, ht, hes, fun e he => (hrec e he).1, ?rxb, ?beginOp, ?setwin, ?silent⟩
  case rxb => rintro b rfl; exact hkind
  case beginOp => rintro rfl; exact hkind
  case setwin => rintro size rfl; exact hkind
  case silent =>
    intro hi
    have hnone : ∀ k, ¬ MayEmit i k := by
      rcases hi with rfl | ⟨m, rfl⟩ | ⟨crc, b, rfl⟩ | hpay
      · exact fun _ => id
      · exact fun _ => id
      · exact fun _ => id
      · cases i <;> cases hpay <;> exact fun _ => id
    exact List.eq_nil_iff_forall_not_mem.mpr fun e he => hnone _ (hkind e he)

/-- Settles O40: `RXB` by what one byte appends, `BEGIN` by the mode, `SETWIN` by what the ring holds. -/
theorem eventsPerOperationAreBounded : Obligations.EventsPerOperationAreBounded := by
  intro s h
  obtain ⟨-, -, hr, -⟩ := (inv_iff s).mp h
  refine ⟨fun b => ?rxb, ?beginOp, fun size hsize => ?setwin⟩
  case rxb =>
    obtain ⟨t, ht⟩ := rxByte_ok b s
    obtain ⟨es, hes, hrec⟩ := rxByte_records h ht
    refine ⟨t, es, ofExcept_eq_next.mpr ht, hes, ?_⟩
    rcases hrec with ⟨hall, hlen⟩ | ⟨e, rfl, -, hkind⟩
    · exact .inl ⟨hlen, fun e he => (hall e he).2⟩
    · exact .inr ⟨rfl, fun e' he => List.mem_singleton.mp he ▸ hkind⟩
  case beginOp =>
    exact ⟨_, _, rfl, beginSample_events s, fun e he => (readyRecords_kind s _ e he).2, length_readyRecords s _⟩
  case setwin =>
    obtain ⟨t, ht⟩ := exec_next_of_legal (i := .setwin size) (s := s) (decide_eq_true hsize)
    exact ⟨t, _, ht, events_of_setwin ht, arrivals_kind s.rb, (flush_delivers hr).2⟩

end Sys2Proof.Machine
end

