-- ==== Sys2Proof/Proofs/Checksum.lean ====
section
/-! PROOFS. The checksum (spec/40_checksum.md R101 to R107): a fold in steps, what one changed byte does to it, the
residue of the default `CRC_STEP`, and the running values on the result port. -/

namespace Sys2Proof.Machine

/-! The fold (R101). -/

section
variable (c : Config)

@[simp] theorem crcCompute_nil : crcCompute c [] = 0x0000#16 := rfl

theorem crcCompute_append (as bs : List Byte) : crcCompute c (as ++ bs) = bs.foldl (crcUpdate c) (crcCompute c as) :=
  List.foldl_append

theorem crcCompute_concat (as : List Byte) (b : Byte) :
    crcCompute c (as ++ [b]) = crcUpdate c (crcCompute c as) b :=
  crcCompute_append c as [b]

end

/-- Settles O12: a fold over an append is the fold over its second part from the value of the first. -/
theorem checksumIsIncrementalFold : Obligations.ChecksumIsIncrementalFold :=
  fun c => ⟨crcCompute_nil c, crcCompute_concat c, crcCompute_append c⟩

/-! One changed byte (R102). -/

section
variable {step : U16 → Byte → U16}

/-- Running values that differ stay different through every later byte. -/
theorem foldl_ne_of_crcInj (hinj : CrcInj step) (bytes : List Byte) :
    ∀ {crc crc' : U16}, crc ≠ crc' → bytes.foldl step crc ≠ bytes.foldl step crc' := by
  induction bytes with
  | nil => exact fun h => h
  | cons b bs ih => exact fun h => ih (hinj.2 _ _ b h)

/-- The running values differ after the changed byte, so they differ at the end. -/
theorem foldl_set_ne_of_crcInj (hinj : CrcInj step) {b : Byte} (bytes : List Byte) :
    ∀ {k : Nat} (crc : U16), k < bytes.length → bytes[k]? ≠ some b →
      (bytes.set k b).foldl step crc ≠ bytes.foldl step crc := by
  induction bytes with
  | nil => exact fun _ hk => absurd hk (Nat.not_lt_zero _)
  | cons a as ih =>
    intro k crc hk hb
    cases k with
    | zero =>
      have hba : b ≠ a := fun h => hb (h ▸ rfl)
      exact foldl_ne_of_crcInj hinj as (hinj.1 crc b a hba)
    | succ k => exact ih (step crc a) (Nat.lt_of_succ_lt_succ hk) hb

end

/-- Settles O13: the two clauses of `CRC_INJ`, at the changed byte and at every later one. -/
theorem singleByteChangeChangesChecksum : Obligations.SingleByteChangeChangesChecksum :=
  fun _ hinj bytes _ _ hk hb => foldl_set_ne_of_crcInj hinj bytes 0#16 hk hb

/-! The residue of the default `CRC_STEP` (R103, R107). -/

theorem crcRom_zero : crcRom 0#8 = 0#16 := by decide

/-- Index 0 of the table: a byte equal to the high byte of the running value is absorbed by a shift alone. -/
theorem xmodemStep_hiByte (crc : U16) : xmodemStep crc (hiByte crc) = crc <<< 8 := by
  rw [xmodemStep, BitVec.xor_self, crcRom_zero, BitVec.xor_zero]

/-- The two bytes of a running value, high byte first, shift all of it out. -/
theorem xmodemStep_own_bytes (crc : U16) : xmodemStep (xmodemStep crc (hiByte crc)) (loByte crc) = 0#16 := by
  rw [xmodemStep_hiByte, ← hiByte_shiftLeft, xmodemStep_hiByte, ← BitVec.shiftLeft_add]
  exact BitVec.shiftLeft_eq_zero (Nat.le_refl 16)

/-- Settles O14: the checksum's own bytes are folded in from the checksum itself, and each is index 0 of the table. -/
theorem defaultChecksumHasZeroResidue : Obligations.DefaultChecksumHasZeroResidue := by
  intro c m hc
  rw [crcCompute_append, crcUpdate_xmodem hc]
  exact xmodemStep_own_bytes (crcCompute c m)

/-! The result port (R105, R106). -/

theorem exec_crcupd (crc : U16) (b : Byte) (s : State) :
    exec (.crcupd crc b) s = .next { s with results := s.results ++ [(crcUpdate s.cfg crc b).setWidth 32] } := rfl

/-- Settles O15: two of the corner cases are index 0 of the table, the third is one entry of it. -/
theorem crcupdReturnsUpdatedValue : Obligations.CrcupdReturnsUpdatedValue :=
  ⟨exec_crcupd, xmodemStep_hiByte 0x0000#16, xmodemStep_hiByte 0xABCD#16, by decide⟩

/-- The running values of a chain of `CRCUPD` from `crc`, one after each byte (R106). -/
def crcRunning (c : Config) (crc : U16) (bytes : List Byte) : List U16 := (bytes.scanl (crcUpdate c) crc).tail

section
variable (c : Config) (crc : U16)

@[simp] theorem crcRunning_nil : crcRunning c crc [] = [] := rfl

@[simp] theorem crcRunning_cons (b : Byte) (bs : List Byte) :
    crcRunning c crc (b :: bs) = crcUpdate c crc b :: crcRunning c (crcUpdate c crc b) bs := by
  cases bs <;> simp [crcRunning]

@[simp] theorem length_crcRunning (bytes : List Byte) : (crcRunning c crc bytes).length = bytes.length := by
  simp [crcRunning]

theorem crcRunning_getElem? {bytes : List Byte} {k : Nat} (hk : k < bytes.length) :
    (crcRunning c crc bytes)[k]? = some ((bytes.take (k + 1)).foldl (crcUpdate c) crc) := by
  simp [crcRunning, hk]

end

/-- A chain of `CRCUPD` appends its running values to the result port, zero-extended, and does nothing else. -/
theorem crcChain_eq (bytes : List Byte) : ∀ crc s,
    crcChain crc bytes s = { s with results := s.results ++ (crcRunning s.cfg crc bytes).map (·.setWidth 32) } := by
  induction bytes with
  | nil => exact fun _ s => by simp [crcChain]
  | cons b bs ih =>
    intro crc s
    rw [crcChain, ih, crcRunning_cons]
    simp [crcStepResult, State.putResult]

theorem exec_crcCompute (bytes : List Byte) (s : State) :
    exec (.crcCompute bytes) s =
      .next { s with results := s.results ++ (crcRunning s.cfg 0#16 bytes).map (·.setWidth 32) } :=
  congrArg Host.Outcome.next (crcChain_eq bytes 0#16 s)

/-- Settles O16: the appended words by their index among the running values. -/
theorem crcComputeReturnsRunningValues : Obligations.CrcComputeReturnsRunningValues := by
  intro bytes s
  refine ⟨_, exec_crcCompute bytes s, rfl, ?length, ?earlier, ?running⟩
  case length => simp
  case earlier => exact fun k hk => List.getElem?_append_left hk
  case running =>
    intro k hk
    rw [List.getElem?_append_right (Nat.le_add_right _ k), Nat.add_sub_cancel_left, List.getElem?_map,
      crcRunning_getElem? s.cfg 0#16 hk]
    rfl

end Sys2Proof.Machine
end

