-- ==== Sys2Proof/Proofs/PacketCodec.lean ====
section
/-! PROOFS. The packet codec (spec/41_packet_codec.md R110 to R118): the header of a packet, the bytes of a sample, the
checksum field, and what one changed byte does to a valid packet. -/

namespace Sys2Proof.Machine

/-! The header (R111, R112). -/

theorem pktByte_pktSetSeq_other (p : Packet) (s : U16) {k : Nat} (h2 : k ≠ 2) (h3 : k ≠ 3) :
    pktByte (pktSetSeq p s) k = pktByte p k := by
  rw [pktSetSeq, pktByte_pktSetByte_ne _ _ h3.symm, pktByte_pktSetByte_ne _ _ h2.symm]

/-- The sequence field is big-endian (R50). -/
theorem pktSeq_toNat (p : Packet) : (pktSeq p).toNat = 256 * (pktByte p 2).toNat + (pktByte p 3).toNat := by
  rw [Nat.mul_comm]
  exact toNat_append_byte (pktByte p 2) (pktByte p 3)

/-- Settles O17: the sequence field is the concatenation of bytes 2 and 3, and only these are written. -/
theorem emptyPacketAndSequenceField : Obligations.EmptyPacketAndSequenceField :=
  ⟨fun s k _ => pktByte_pktEmpty s k,
    fun p s => ⟨pktSeq_pktSetSeq p s, fun _ => pktByte_pktSetSeq_other p s⟩, pktSeq_toNat⟩

/-! The bytes of a sample (R114). -/

section
variable (p : Packet) {c : Nat} (raw : U24)

theorem pktByte_smpPut_hi (h : c ≤ 8) : pktByte (smpPut p c raw) (4 + 3 * c) = rawHi raw := by
  rw [smpPut, pktByte_pktSetByte_ne _ _ (by omega), pktByte_pktSetByte_ne _ _ (by omega),
    pktByte_pktSetByte_same _ _ (by omega)]

theorem pktByte_smpPut_mid (h : c ≤ 8) : pktByte (smpPut p c raw) (5 + 3 * c) = rawMid raw := by
  rw [smpPut, pktByte_pktSetByte_ne _ _ (by omega), pktByte_pktSetByte_same _ _ (by omega)]

theorem pktByte_smpPut_lo (h : c ≤ 8) : pktByte (smpPut p c raw) (6 + 3 * c) = rawLo raw :=
  pktByte_pktSetByte_same _ _ (by omega)

end

/-- Sign extension does not change the signed value of a sample (R77). -/
theorem toInt_sext32 (raw : U24) : (sext32 raw).toInt = raw.toInt :=
  BitVec.toInt_signExtend_of_le (by decide)

/-- Settles O18: the pattern written is the pattern read; both readings are its signed value. -/
theorem sampleWrittenIsSampleRead : Obligations.SampleWrittenIsSampleRead := by
  intro p c raw hc
  have hraw : smpRaw (smpPut p c raw) c = raw := smpRaw_smpPut_same p c raw hc
  refine ⟨?signed, pktByte_smpPut_hi p raw hc, pktByte_smpPut_mid p raw hc, pktByte_smpPut_lo p raw hc,
    pktByte_smpPut_other p c raw, ?register⟩
  case signed => rw [smpGet, hraw]
  case register => rw [smpGet32, hraw, toInt_sext32]

/-! The checksum field (R117, R118). -/

section
variable (c : Config) (p : Packet)

theorem pktValid_iff : pktValid c p = true ↔ pktCrcField p = crcCompute c (pktCovered p) :=
  decide_eq_true_iff

theorem pktValid_pktFinalize : pktValid c (pktFinalize c p) = true := by
  rw [pktValid_iff, pktCrcField_pktFinalize, pktCovered_pktFinalize]

/-- The bytes of a finalised packet (R117). -/
theorem pktByte_pktFinalize (k : Nat) : pktByte (pktFinalize c p) k =
    if k = 31 then hiByte (crcCompute c (pktCovered p))
    else if k = 32 then loByte (crcCompute c (pktCovered p)) else pktByte p k := by
  simp only [pktFinalize, pktByte_pktSetByte]
  grind

/-- Finalising again writes the same two bytes. -/
theorem pktFinalize_pktFinalize : pktFinalize c (pktFinalize c p) = pktFinalize c p := by
  apply pkt_ext
  intro k _
  rw [pktByte_pktFinalize, pktByte_pktFinalize, pktCovered_pktFinalize]
  split_ifs <;> rfl

end

/-- Settles O19: finalising writes the checksum of bytes that it leaves alone. -/
theorem finalizedPacketIsValid : Obligations.FinalizedPacketIsValid :=
  fun c p => ⟨pktValid_pktFinalize c p, fun _ => pktByte_pktFinalize_lt c p, pktCrcField_pktFinalize c p,
    pktFinalize_pktFinalize c p⟩

/-! One changed byte (R118). -/

section
variable {p : Packet} {k : Nat} {b : Byte}

theorem pktCovered_pktSetByte : pktCovered (pktSetByte p k b) = (pktCovered p).set k b := by
  simp [pktCovered, pktSetByte, List.take_set]

theorem length_pktCovered : (pktCovered p).length = 31 := by
  simp [pktCovered]

theorem getElem?_pktCovered (hk : k < 31) : (pktCovered p)[k]? = some (pktByte p k) := by
  rw [pktByte_eq_getElem p (by omega), pktCovered, List.getElem?_take_of_lt hk]
  simp

/-- Changing a covered byte changes the checksum (R102). -/
theorem crcCompute_pktSetByte_ne {c : Config} (hinj : CrcInj (crcUpdate c)) (hk : k < 31) (hb : b ≠ pktByte p k) :
    crcCompute c (pktCovered (pktSetByte p k b)) ≠ crcCompute c (pktCovered p) := by
  rw [pktCovered_pktSetByte]
  refine foldl_set_ne_of_crcInj hinj (pktCovered p) 0#16 (by rwa [length_pktCovered]) ?_
  rw [getElem?_pktCovered hk]
  exact fun h => hb (Option.some.inj h).symm

theorem pktCovered_pktSetByte_of_le (hk : 31 ≤ k) : pktCovered (pktSetByte p k b) = pktCovered p :=
  pktCovered_congr fun _ hj => pktByte_pktSetByte_ne _ _ (by omega)

theorem pktCrcField_pktSetByte_of_lt (hk : k < 31) : pktCrcField (pktSetByte p k b) = pktCrcField p := by
  rw [pktCrcField, pktCrcField, be16, be16, pktByte_pktSetByte_ne _ _ (by omega), pktByte_pktSetByte_ne _ _ (by omega)]

/-- Changing a byte of the checksum field changes the field, of which that byte is one half. -/
theorem pktCrcField_pktSetByte_ne (h31 : 31 ≤ k) (hk : k < 33) (hb : b ≠ pktByte p k) :
    pktCrcField (pktSetByte p k b) ≠ pktCrcField p := by
  intro he
  have hhi := congrArg hiByte he
  have hlo := congrArg loByte he
  simp only [pktCrcField, be16, hiByte_append, loByte_append] at hhi hlo
  obtain rfl | rfl : k = 31 ∨ k = 32 := by omega
  · exact hb (by simpa using hhi)
  · exact hb (by simpa using hlo)

end

/-- Settles O20: of the field and the checksum, equal in a valid packet, the change of one byte changes exactly one. -/
theorem anyByteChangeInvalidatesPacket : Obligations.AnyByteChangeInvalidatesPacket := by
  refine ⟨pktValid_iff, fun c p k b hinj hp hk hb => ?changed⟩
  rw [pktValid_iff] at hp
  rw [← Bool.not_eq_true, pktValid_iff]
  by_cases hcov : k < 31
  · rw [pktCrcField_pktSetByte_of_lt hcov, hp]
    exact (crcCompute_pktSetByte_ne hinj hcov hb).symm
  · rw [pktCovered_pktSetByte_of_le (by omega), ← hp]
    exact pktCrcField_pktSetByte_ne (by omega) hk hb

end Sys2Proof.Machine
end

