-- ==== Sys2Proof/Proofs/SampleValues.lean ====
section
/-! PROOFS. The numbers samples stand for (spec/41_packet_codec.md R115, R116): multiples of `2^-23`, and the clamped
roundings onto them. -/

namespace Sys2Proof.Machine

/-! The values (R115). -/

theorem scale_eq : scale = 8388608 := by decide

theorem smpValue_eq (raw : Int) : smpValue raw = raw / 8388608 := by
  rw [smpValue, scale_eq]
  rfl

theorem toInt_sample_bounds (raw : U24) : -8388608 ≤ raw.toInt ∧ raw.toInt ≤ 8388607 := by
  have hlow := raw.le_toInt
  have hhigh := raw.toInt_lt
  omega

/-- Every integer of 24 bits is the signed value of a pattern. -/
theorem toInt_ofInt_sample {k : Int} (hlow : -8388608 ≤ k) (hhigh : k ≤ 8388607) :
    (BitVec.ofInt 24 k).toInt = k := by
  rw [BitVec.toInt_ofInt]
  exact Int.bmod_eq_of_le (by omega) (by omega)

/-- Settles O21: the signed values of the patterns are the integers of 24 bits. -/
theorem sampleValuesAreExact : Obligations.SampleValuesAreExact := by
  refine ⟨fun raw => ?bounds, fun k hlow hhigh => ⟨BitVec.ofInt 24 k, ?value⟩⟩
  case bounds =>
    obtain ⟨hlow, hhigh⟩ := toInt_sample_bounds raw
    have hlow' : (-8388608 : Rat) ≤ raw.toInt := by exact_mod_cast hlow
    have hhigh' : (raw.toInt : Rat) ≤ 8388607 := by exact_mod_cast hhigh
    rw [smpValue_eq]
    refine ⟨?_, ?_, ?_⟩ <;> linarith
  case value => rw [toInt_ofInt_sample hlow hhigh, smpValue_eq]

/-! The clamped roundings (R116). -/

/-- Clamping keeps an integer within one of a number that lies in the range of the samples. -/
theorem abs_clamp_sub_le {y : Rat} {n : Int} (hlow : -8388608 ≤ y) (hhigh : y < 8388608) (h : |(n : Rat) - y| ≤ 1) :
    |((max (-8388608) (min 8388607 n) : Int) : Rat) - y| ≤ 1 := by
  rw [abs_le] at h ⊢
  obtain ⟨h1, h2⟩ := h
  by_cases hbelow : n < -8388608
  · have hn : (n : Rat) + 1 ≤ -8388608 := by exact_mod_cast hbelow
    rw [max_eq_left (by omega)]
    push_cast
    constructor <;> linarith
  · by_cases habove : 8388607 < n
    · have hn : (8388608 : Rat) ≤ n := by exact_mod_cast habove
      rw [min_eq_left (by omega), max_eq_right (by omega)]
      push_cast
      constructor <;> linarith
    · rw [min_eq_right (by omega), max_eq_right (by omega)]
      exact ⟨h1, h2⟩

/-- A rounding of `x * 2^23` that is off by at most one meets the bound once it is clamped. -/
theorem quantOk_clamp {f : Rat → Int} (hf : ∀ x, |(f x : Rat) - x * 8388608| ≤ 1) :
    QuantOk (fun x => max (-8388608) (min 8388607 (f x))) := by
  simp only [QuantOk, scale_eq]
  refine ⟨fun x => ⟨le_max_left _ _, max_le (by decide) (min_le_left _ _)⟩, fun x hlow hhigh => ?within⟩
  have hclamp := abs_le.mp (abs_clamp_sub_le (by linarith) (by linarith) (hf x))
  rw [smpValue_eq, abs_le]
  push_cast at hclamp ⊢
  constructor <;> linarith

theorem abs_floor_sub_le (y : Rat) : |(⌊y⌋ : Rat) - y| ≤ 1 := by
  rw [abs_le]
  constructor <;> linarith [Int.floor_le y, Int.lt_floor_add_one y]

theorem abs_ceil_sub_le (y : Rat) : |(⌈y⌉ : Rat) - y| ≤ 1 := by
  rw [abs_le]
  constructor <;> linarith [Int.le_ceil y, Int.ceil_lt_add_one y]

/-- Settles O22: each rounding is off by at most one. -/
theorem clampedRoundingsMeetQuantBound : Obligations.ClampedRoundingsMeetQuantBound := by
  refine ⟨quantOk_clamp fun x => abs_floor_sub_le _, quantOk_clamp fun x => ?truncation,
    quantOk_clamp fun x => ?nearest⟩
  case truncation =>
    split
    · exact abs_floor_sub_le _
    · exact abs_ceil_sub_le _
  case nearest =>
    rw [abs_sub_comm]
    exact (abs_sub_round _).trans (by norm_num)

end Sys2Proof.Machine
end

