-- ==== Sys2Proof/Proofs/PayloadWrites.lean ====
section
/-! PROOFS. The payload writes (spec/41_packet_codec.md R120, R121): `PAYWR` is one byte write at the payload address,
`SMPWR` is three of them. -/

namespace Sys2Proof.Machine

/-! One byte (R120). -/

section
variable (s : State) (b : Byte)

theorem exec_paywr {off : Byte} (h : off.toNat ≤ 26) :
    exec (.paywr off b) s = .next (s.writeByte .hist (payloadAddr s off.toNat) b) := by
  rw [exec, execPaywr, if_neg (by omega)]

theorem exec_paywr_refused {off : Byte} (h : 26 < off.toNat) : exec (.paywr off b) s = .refused .reservedOperand := by
  rw [exec, execPaywr, if_pos h]

theorem readByte_writeByte_payload {off : Nat} (h : off ≤ 26) :
    (s.writeByte .hist (payloadAddr s off) b).readByte .hist (payloadAddr s off) = some b := by
  rw [readByte_writeByte, if_pos ⟨rfl, rfl, by rw [readByte_payload s (by omega)]; rfl⟩]

theorem readByte_writeByte_other {sp sp' : Space} {a a' : Nat} (h : ¬ (sp' = sp ∧ a' = a)) :
    (s.writeByte sp a b).readByte sp' a' = s.readByte sp' a' := by
  rw [readByte_writeByte, if_neg fun ⟨hsp, ha, _⟩ => h ⟨hsp.symm, ha.symm⟩]

end

/-- Settles O23: the byte written at the payload address, as a byte of the store and as a byte of the current slot. -/
theorem paywrWritesOnePayloadByte : Obligations.PaywrWritesOnePayloadByte := by
  refine fun off b s => ⟨fun hoff => ⟨_, exec_paywr s b hoff, ?frame, readByte_writeByte_payload s b hoff,
    fun _ _ => readByte_writeByte_other s b, ?slot⟩, exec_paywr_refused s b⟩
  case frame => rw [writeByte_payload s b hoff]; rfl
  case slot =>
    change pktByte (State.histAt _ s.cur) _ = b
    rw [writeByte_payload s b hoff, histAt_setHist, if_pos rfl, pktByte_pktSetByte_same _ _ (by omega)]

/-! One sample (R121). -/

theorem exec_smpwr {ch : BitVec 4} (raw : U24) (s : State) (h : ch.toNat ≤ 8) :
    exec (.smpwr ch raw) s = .next (putSample ch.toNat raw s) := by
  rw [exec, execSmpwr, if_neg (by omega)]

theorem exec_smpwr_refused {ch : BitVec 4} (raw : U24) (s : State) (h : 8 < ch.toNat) :
    exec (.smpwr ch raw) s = .refused .reservedOperand := by
  rw [exec, execSmpwr, if_pos h]

theorem payloadAddr_add (s : State) (off k : Nat) : payloadAddr s (off + k) = payloadAddr s off + k :=
  (Nat.add_assoc _ off k).symm

/-- No write to a store moves the current slot. -/
theorem payloadAddr_writeByte (s : State) (sp : Space) (a : Nat) (b : Byte) (off : Nat) :
    payloadAddr (s.writeByte sp a b) off = payloadAddr s off := by
  cases sp
  case hist =>
    rw [State.writeByte]
    split <;> rfl
  all_goals rfl

/-- `PAYWR` with its offset as a number. -/
theorem exec_paywr_ofNat (s : State) {off : Nat} (b : Byte) (h : off ≤ 26) :
    exec (.paywr (BitVec.ofNat 8 off) b) s = .next (s.writeByte .hist (payloadAddr s off) b) := by
  have hoff : (BitVec.ofNat 8 off).toNat = off := by rw [BitVec.toNat_ofNat]; omega
  rw [exec_paywr s b (by omega), hoff]

/-- A payload byte written after the current slot is set. -/
theorem writeByte_payload_setHist (s : State) (p : Packet) {off : Nat} (b : Byte) (h : off ≤ 26) :
    (s.setHist s.cur p).writeByte .hist (payloadAddr s off) b = s.setHist s.cur (pktSetByte p (4 + off) b) :=
  (writeByte_payload (s.setHist s.cur p) b h).trans
    (by rw [cur_setHist, histAt_setHist, if_pos rfl, setHist_setHist])

section
variable {ch : Nat} (raw : U24) (s : State)

/-- A sample write is three byte writes, the most significant byte first. -/
theorem putSample_eq_writeByte (h : ch ≤ 8) : putSample ch raw s =
    ((s.writeByte .hist (payloadAddr s (3 * ch)) (rawHi raw)).writeByte .hist (payloadAddr s (3 * ch + 1))
      (rawMid raw)).writeByte .hist (payloadAddr s (3 * ch + 2)) (rawLo raw) := by
  have hmid : 4 + (3 * ch + 1) = 5 + 3 * ch := by omega
  have hlo : 4 + (3 * ch + 2) = 6 + 3 * ch := by omega
  rw [writeByte_payload s _ (by omega), writeByte_payload_setHist s _ _ (by omega),
    writeByte_payload_setHist s _ _ (by omega), hmid, hlo]
  rfl

/-- A payload byte of the current slot after a sample write. -/
theorem readByte_putSample_payload {off : Nat} (h : off ≤ 26) :
    (putSample ch raw s).readByte .hist (payloadAddr s off) =
      some (pktByte (smpPut (s.histAt s.cur) ch raw) (4 + off)) := by
  rw [← histAt_putSample_cur]
  exact readByte_payload (putSample ch raw s) (by omega)

theorem readByte_putSample_other (h : ch ≤ 8) {sp : Space} {a : Nat}
    (ha : ¬ (sp = .hist ∧ payloadAddr s (3 * ch) ≤ a ∧ a ≤ payloadAddr s (3 * ch + 2))) :
    (putSample ch raw s).readByte sp a = s.readByte sp a := by
  rw [payloadAddr_add] at ha
  have hne : ∀ k, k ≤ 2 → ¬ (sp = .hist ∧ a = payloadAddr s (3 * ch) + k) :=
    fun k hk ⟨hsp, hak⟩ => ha ⟨hsp, by omega⟩
  rw [putSample_eq_writeByte raw s h, payloadAddr_add, payloadAddr_add,
    readByte_writeByte_other _ _ (hne 2 (by omega)), readByte_writeByte_other _ _ (hne 1 (by omega))]
  exact readByte_writeByte_other s _ (hne 0 (by omega))

/-- The three `PAYWR` of a sample: none of them moves the current slot. -/
theorem execSeq_paywr_sample (h : ch ≤ 8) :
    execSeq [.paywr (BitVec.ofNat 8 (3 * ch)) (rawHi raw), .paywr (BitVec.ofNat 8 (3 * ch + 1)) (rawMid raw),
      .paywr (BitVec.ofNat 8 (3 * ch + 2)) (rawLo raw)] s = .next (putSample ch raw s) := by
  rw [execSeq_cons_of_next (exec_paywr_ofNat s _ (by omega)), execSeq_cons_of_next (exec_paywr_ofNat _ _ (by omega)),
    execSeq_singleton, exec_paywr_ofNat _ _ (by omega), payloadAddr_writeByte, payloadAddr_writeByte,
    payloadAddr_writeByte, putSample_eq_writeByte raw s h]

end

/-- Settles O24: the three bytes through the sample just written, the rest through the three byte writes. -/
theorem smpwrWritesThreePayloadBytes : Obligations.SmpwrWritesThreePayloadBytes := by
  refine fun ch raw s => ⟨fun hch => ⟨_, exec_smpwr raw s hch, rfl, ?hi, ?mid, ?lo,
    fun _ _ => readByte_putSample_other raw s hch, execSeq_paywr_sample raw s hch⟩, exec_smpwr_refused raw s⟩
  case hi =>
    rw [readByte_putSample_payload raw s (by omega), pktByte_smpPut_hi _ raw hch]
    rfl
  case mid =>
    have hoff : 4 + (3 * ch.toNat + 1) = 5 + 3 * ch.toNat := by omega
    rw [readByte_putSample_payload raw s (by omega), hoff, pktByte_smpPut_mid _ raw hch]
    rfl
  case lo =>
    have hoff : 4 + (3 * ch.toNat + 2) = 6 + 3 * ch.toNat := by omega
    rw [readByte_putSample_payload raw s (by omega), hoff, pktByte_smpPut_lo _ raw hch]
    rfl

end Sys2Proof.Machine
end

