-- ==== Sys2Proof/Proofs/Ring.lean ====
section
/-! PROOFS. The ring (spec/42_ring_buffer.md): the operations on a full ring and outside their preconditions (R131,
R133, R134), and the physical form read cell by cell, then as the sequence it holds (R137). -/

namespace Sys2Proof.Machine

section
variable {rb : List Slot} {k n : Nat}

theorem rbGet_of_length_le (h : rb.length ≤ k) : rbGet rb k = .error .rbIndex := by simp [rbGet, h]

theorem rbSet_of_length_le (v : Slot) (h : rb.length ≤ k) : rbSet rb k v = .error .rbIndex := if_neg h.not_gt

/-- A full ring overwrites its oldest element (R133). -/
theorem rbAppend_of_full {cap : Nat} (v : Slot) (hpos : 0 < cap) (h : rb.length = cap) :
    rbAppend cap rb v = .ok (rb.drop 1 ++ [v]) := by
  simp [rbAppend, h, hpos.ne']

theorem rbRemovePrefix_of_le (h : n ≤ rb.length) : rbRemovePrefix rb n = .ok (rb.drop n) := if_pos h

theorem rbRemovePrefix_of_length_lt (h : rb.length < n) : rbRemovePrefix rb n = .error .rbIndex := if_neg h.not_ge

end

/-- Settles O58: one law of the ring for each operation, inside its precondition and outside. -/
theorem ringOperationsAsSpecified : Obligations.RingOperationsAsSpecified := by
  refine ⟨fun _ _ => rbGet_of_lt, fun _ _ => rbGet_of_length_le, fun _ _ v => rbSet_of_lt v,
    fun _ _ v => rbSet_of_length_le v, fun _ _ v => rbAppend_of_lt v, ?full, fun _ => rfl,
    fun _ _ => rbRemovePrefix_of_le, fun _ _ => rbRemovePrefix_of_length_lt,
    fun _ rb d => rbExtendEmpty_of_le d rb, rfl⟩
  case full =>
    rintro cap rb v front rest rfl hcap
    exact rbAppend_of_full v (hcap ▸ Nat.succ_pos _) hcap

/-! The physical ring, cell by cell. -/

/-- Modular indexing gives different cells to different indices below the number of cells. -/
theorem add_mod_eq_iff {b c j k : Nat} (hj : j < c) (hk : k < c) : (b + j) % c = (b + k) % c ↔ j = k :=
  ⟨fun h => (Nat.ModEq.add_left_cancel' b h).eq_of_lt_of_lt hj hk, fun h => h ▸ rfl⟩

section
variable (r : PhysRing) (v : Slot)

/-- Reading after writing the cell of index `j`; the size plays no part. -/
theorem physGet_write (size : Nat) {j k : Nat} (hj : j < r.slots.length) (hk : k < r.slots.length) :
    physGet ⟨r.slots.set ((r.start + j) % r.slots.length) v, r.start, size⟩ k =
      if j = k then v else physGet r k := by
  have hcell : (r.start + j) % r.slots.length < r.slots.length := Nat.mod_lt _ (Nat.zero_lt_of_lt hj)
  simp only [physGet, List.length_set, List.getD_eq_getElem?_getD, List.getElem?_set, add_mod_eq_iff hj hk,
    if_pos hcell]
  split <;> rfl

/-- Moving `begin` forward by `n` shifts every index by `n`. -/
theorem physGet_moveStart (size n k : Nat) :
    physGet ⟨r.slots, (r.start + n) % r.slots.length, size⟩ k = physGet r (n + k) := by
  simp only [physGet, Nat.mod_add_mod, Nat.add_assoc]

/-! The sequence a physical ring holds. -/

@[simp] theorem length_physView : (physView r).length = r.size := by simp [physView]

theorem getElem_physView {k : Nat} (h : k < (physView r).length) : (physView r)[k] = physGet r k := by
  simp [physView]

theorem physView_physRemovePrefix (n : Nat) : physView (physRemovePrefix r n) = (physView r).drop n := by
  refine List.ext_getElem (by simp [physRemovePrefix]) fun k _ _ => ?_
  rw [List.getElem_drop, getElem_physView, getElem_physView]
  exact physGet_moveStart r _ n k

end

section
variable {r : PhysRing} (v : Slot)

theorem physView_physAppend_of_lt (h : r.size < r.slots.length) : physView (physAppend r v) = physView r ++ [v] := by
  rw [physAppend, if_pos h, physView, List.range_succ, List.map_append, List.map_singleton,
    physGet_write r v _ h h, if_pos rfl]
  refine congrArg (· ++ [v]) (List.map_congr_left fun k hk => ?_)
  have hk : k < r.size := List.mem_range.mp hk
  rw [physGet_write r v _ h (hk.trans h), if_neg hk.ne']

/-- Taking the front off a full ring makes room. -/
theorem physRemovePrefix_one_size_lt (hpos : 0 < r.slots.length) (h : r.size = r.slots.length) :
    (physRemovePrefix r 1).size < (physRemovePrefix r 1).slots.length :=
  h ▸ Nat.sub_lt (h ▸ hpos) Nat.one_pos

/-- An append to a full ring frees the front cell first: the freed cell is the one behind the back. -/
theorem physAppend_of_full (hok : r.Ok) (h : r.size = r.slots.length) :
    physAppend r v = physAppend (physRemovePrefix r 1) v := by
  obtain ⟨hpos, hstart, -⟩ := hok
  have hcell : ((r.start + 1) % r.slots.length + (r.size - 1)) % r.slots.length = r.start := by
    rw [Nat.mod_add_mod, Nat.add_assoc, Nat.add_sub_cancel' (h ▸ hpos), h, Nat.add_mod_right, Nat.mod_eq_of_lt hstart]
  rw [physAppend, if_neg h.not_lt, physAppend, if_pos (physRemovePrefix_one_size_lt hpos h)]
  simp only [physRemovePrefix, hcell, Nat.sub_add_cancel (h ▸ hpos)]

/-! What R137 asks of a physical ring is kept. -/

theorem physRemovePrefix_ok (n : Nat) (hok : r.Ok) : (physRemovePrefix r n).Ok := by
  obtain ⟨hpos, -, hsize⟩ := hok
  exact ⟨hpos, Nat.mod_lt _ hpos, (Nat.sub_le _ _).trans hsize⟩

theorem physAppend_ok (hok : r.Ok) : (physAppend r v).Ok := by
  obtain ⟨hpos, hstart, hsize⟩ := hok
  rw [physAppend]
  split <;> simp only [PhysRing.Ok, List.length_set]
  case isTrue hroom => exact ⟨hpos, hstart, hroom⟩
  case isFalse => exact ⟨hpos, Nat.mod_lt _ hpos, hsize⟩

/-- Append on the physical ring is `rb_append` on the sequence, with room and on overflow. -/
theorem rbAppend_physView (hok : r.Ok) :
    rbAppend r.slots.length (physView r) v = .ok (physView (physAppend r v)) := by
  have ⟨hpos, _, hsize⟩ := hok
  rcases hsize.lt_or_eq with hroom | hfull
  · rw [physView_physAppend_of_lt v hroom, rbAppend_of_lt v (by rwa [length_physView])]
  · rw [rbAppend_of_full v hpos (by rwa [length_physView]), physAppend_of_full v hok hfull,
      physView_physAppend_of_lt v (physRemovePrefix_one_size_lt hpos hfull), physView_physRemovePrefix]

end

/-- Settles O59: each operation of the physical ring through the sequence it holds. -/
theorem physicalRingRefinesSequence : Obligations.PhysicalRingRefinesSequence := by
  refine fun r hok => ⟨length_physView r, fun v => ⟨physAppend_ok v hok, rbAppend_physView v hok⟩,
    fun n hn => ⟨physRemovePrefix_ok n hok, ?remove⟩, fun k hk => ?read⟩
  case remove => rw [physView_physRemovePrefix, rbRemovePrefix_of_le (by rwa [length_physView])]
  case read => rw [rbGet_of_lt (by rwa [length_physView]), getElem_physView]

end Sys2Proof.Machine
end

