-- ==== Sys2Proof/Proofs/FinishedWord.lean ====
section
/-! PROOFS. What a finished word does to its frame (spec/43_framing_fsm.md R155, R157 to R162), from whatever state the word is
finished in. -/

namespace Sys2Proof.Machine

section
variable {cap store : Nat} {b : Byte} {s u : State}

theorem exec_rxb_of_done (hcap : capOf s.st = some cap) (hstore : storeOf s.cfg s.st = some store)
    (h : wordStep cap store b s = (.done, u)) : exec (.rxb b) s = .next (wordDone s.st u) := by
  rw [exec_rxb_word hcap hstore, h]; rfl

/-! The word reader at the byte that finishes the word (R154, R155). -/

theorem WordFinishes.wordStep_eq (h : WordFinishes cap store b s u) : wordStep cap store b s = (.done, u) := by
  rcases h with ⟨hp, hb, rfl⟩ | ⟨hp, hb, he, hl, hc, rfl⟩
  · exact wordStep_delim hp hb
  · exact wordStep_atCap hp hb he hl hc

theorem WordFinishes.frame (h : WordFinishes cap store b s u) :
    u = { s with wPhase := u.wPhase, wCnt := u.wCnt, wLen := u.wLen, tok := u.tok } := by
  have hframe := wordStep_frame cap store b s
  rwa [h.wordStep_eq] at hframe

theorem WordFinishes.tok_length (h : WordFinishes cap store b s u) : u.tok.length = s.tok.length := by
  have hlen := length_tok_wordStep (cap := cap) (store := store) (b := b) (s := s)
  rwa [h.wordStep_eq] at hlen

/-! The finished name (R158). -/

/-- Bytes written to `name` from its start on, within the store. -/
theorem memWrite_name_zero {bs : List Byte} (h : bs.length ≤ s.name.length) :
    s.memWrite .name 0 bs = { s with name := bs ++ s.name.drop bs.length } := by
  obtain ⟨n, hn, -, hget⟩ := memWrite_name s bs 0
  have hname : n = bs ++ s.name.drop bs.length := by
    apply List.ext_getElem?
    intro k
    rw [hget, List.getElem?_append]
    by_cases hk : k < bs.length
    · rw [if_pos (by omega), if_pos hk, Nat.sub_zero]
    · rw [if_neg (by omega), if_neg hk, List.getElem?_drop, Nat.add_sub_cancel' (by omega)]
  rw [hn, hname]

/-- The name and its terminator replace the first bytes of the name store; the value word starts (R158). -/
theorem nameDone_eq (htok : u.wLen < u.tok.length) (hname : u.wLen < u.name.length) :
    nameDone u = { textStart .sValue u with
      name := u.tok.take (u.wLen + 1) ++ u.name.drop (u.wLen + 1), nameLen := u.wLen } := by
  have hlen : (u.tok.take (u.wLen + 1)).length = u.wLen + 1 := List.length_take_of_le htok
  rw [nameDone, memWrite_name_zero (by omega), hlen]
  rfl

/-! The finished value (R161). -/

/-- A finished configuration leaves with its decoded value, or its frame is dropped as `BAD_HEX` (R161). -/
theorem cfgFin_outcome (hname : u.nameLen ≠ 0) (hpos : u.wLen ≠ 0) (hlen : u.wLen ≤ u.tok.length) :
    cfgFin u = { u with
      st := .sScan, tok := (cfgFin u).tok, events := (cfgFin u).events, drops := (cfgFin u).drops } ∧
    ((∃ value, hexText u.cfg.hexUpper (u.tok.take u.wLen) = some value ∧ value ≠ [] ∧
        (cfgFin u).events = u.events ++ [.config (u.name.take u.nameLen) value] ∧ (cfgFin u).drops = u.drops) ∨
     ((hexText u.cfg.hexUpper (u.tok.take u.wLen) = none ∨ hexText u.cfg.hexUpper (u.tok.take u.wLen) = some []) ∧
        (cfgFin u).events = u.events ∧ (cfgFin u).drops = u.drops ++ [.badHex])) := by
  rcases hhex : hexText u.cfg.hexUpper (u.tok.take u.wLen) with _ | _ | ⟨v, vs⟩
  · rw [cfgFin_of_badHex hname hpos hlen (.inl hhex)]
    exact ⟨rfl, .inr ⟨.inl rfl, rfl, rfl⟩⟩
  · rw [cfgFin_of_badHex hname hpos hlen (.inr hhex)]
    exact ⟨rfl, .inr ⟨.inr rfl, rfl, rfl⟩⟩
  · have hne : v :: vs ≠ [] := List.cons_ne_nil v vs
    rw [cfgFin_of_hexText hname hpos hlen hne hhex]
    exact ⟨rfl, .inl ⟨v :: vs, rfl, hne, rfl, rfl⟩⟩

/-! The three places a word finishes in. -/

/-- A command token leaves (R160). -/
theorem exec_rxb_commandFinished (hst : s.st = .sCmd) (h : WordFinishes 16 s.cfg.store16 b s u) (hpos : 1 ≤ u.wLen) :
    exec (.rxb b) s = .next { u with st := .sScan, events := s.events ++ [.command (u.tok.take u.wLen)] } := by
  have hev : u.events = s.events := by rw [h.frame]
  rw [exec_rxb_of_done (congrArg capOf hst) (congrArg (storeOf s.cfg) hst) h.wordStep_eq, hst, ← hev, wordDone, cmdFin,
    if_neg (by omega)]
  rfl

/-- A name moves to its store (R158). -/
theorem exec_rxb_nameFinished (hs : StoresOk s) (hst : s.st = .sName) (h : WordFinishes 16 s.cfg.store16 b s u)
    (hle : u.wLen ≤ s.cfg.store16) (htok : u.wLen < s.tok.length) :
    exec (.rxb b) s = .next { textStart .sValue u with
      name := u.tok.take (u.wLen + 1) ++ s.name.drop (u.wLen + 1), nameLen := u.wLen } := by
  obtain ⟨-, hnlen⟩ := hs
  have hname : u.name = s.name := by rw [h.frame]
  rw [exec_rxb_of_done (congrArg capOf hst) (congrArg (storeOf s.cfg) hst) h.wordStep_eq, hst, wordDone,
    nameDone_eq (by rwa [h.tok_length]) (by rw [hname]; omega), hname]

/-- A value token is decoded (R161). -/
theorem exec_rxb_valueFinished (hst : s.st = .sValue) (h : WordFinishes 64 s.cfg.store64 b s u) :
    exec (.rxb b) s = .next (cfgFin u) := by
  rw [exec_rxb_of_done (congrArg capOf hst) (congrArg (storeOf s.cfg) hst) h.wordStep_eq, hst]
  rfl

end

/-- Settles O43: one lemma per place, and the outcome of a finished configuration. -/
theorem finishedWordCompletesItsFrame : Obligations.FinishedWordCompletesItsFrame := by
  intro b s u hs
  refine ⟨exec_rxb_commandFinished, fun hst h hle htok => ?name, fun hst h hname hpos hle => ?value⟩
  case name =>
    have hlen : (u.tok.take (u.wLen + 1)).length = u.wLen + 1 := List.length_take_of_le (by rwa [h.tok_length])
    refine ⟨_, exec_rxb_nameFinished hs hst h hle htok, rfl, ?_, List.take_left' hlen, List.drop_left' hlen⟩
    obtain ⟨-, hnlen⟩ := hs
    change (u.tok.take (u.wLen + 1) ++ s.name.drop (u.wLen + 1)).length = s.name.length
    rw [List.length_append, hlen, List.length_drop]
    omega
  case value =>
    have hfields : u.cfg = s.cfg ∧ u.name = s.name ∧ u.nameLen = s.nameLen ∧ u.events = s.events ∧ u.drops = s.drops := by
      rw [h.frame]
      exact ⟨rfl, rfl, rfl, rfl, rfl⟩
    obtain ⟨hcfg, hnm, hnl, hev, hdr⟩ := hfields
    rw [← hcfg, ← hnm, ← hnl, ← hev, ← hdr]
    rw [← hnl] at hname
    exact ⟨_, exec_rxb_valueFinished hst h, cfgFin_outcome (by omega) (by omega) (by rwa [h.tok_length])⟩

end Sys2Proof.Machine
end

