-- ==== Sys2Proof/Proofs/HexInPlace.lean ====
section
/-! PROOFS. The digits of hexadecimal text (spec/30_encoding.md R80) and what decoding in place leaves alone
(spec/43_framing_fsm.md R162). -/

namespace Sys2Proof.Machine

/-! The digits (R80). -/

section
variable {b : Byte}

theorem hexVal_of_decimal (upper : Bool) (h0 : 0x30 ≤ b.toNat) (h9 : b.toNat ≤ 0x39) :
    ∃ v, hexVal upper b = some v ∧ v.toNat = b.toNat - 0x30 := by
  refine ⟨(b - 0x30#8).setWidth 4, if_pos ⟨h0, h9⟩, ?_⟩
  rw [BitVec.toNat_setWidth, BitVec.toNat_sub_of_le h0]
  exact Nat.mod_eq_of_lt (by change b.toNat - 0x30 < 16; omega)

/-- The value of a letter digit: `first` is the letter of the digit 10. -/
theorem toNat_letterDigit {first : Byte} (ha : first.toNat ≤ b.toNat) (hf : b.toNat ≤ first.toNat + 5) :
    ((b - first + 10#8).setWidth 4).toNat = b.toNat - first.toNat + 10 := by
  have hten : (10#8).toNat = 10 := rfl
  rw [BitVec.toNat_setWidth, BitVec.toNat_add, BitVec.toNat_sub_of_le ha, hten]
  omega

theorem hexVal_of_lower (upper : Bool) (ha : 0x61 ≤ b.toNat) (hf : b.toNat ≤ 0x66) :
    ∃ v, hexVal upper b = some v ∧ v.toNat = b.toNat - 0x61 + 10 := by
  refine ⟨(b - 0x61#8 + 10#8).setWidth 4, ?_, toNat_letterDigit ha hf⟩
  simp only [hexVal, BitVec.le_def, BitVec.toNat_ofNat]
  rw [if_neg (by omega), if_pos (by omega)]

theorem hexVal_of_upper (ha : 0x41 ≤ b.toNat) (hf : b.toNat ≤ 0x46) :
    ∃ v, hexVal true b = some v ∧ v.toNat = b.toNat - 0x41 + 10 := by
  refine ⟨(b - 0x41#8 + 10#8).setWidth 4, ?_, toNat_letterDigit ha hf⟩
  simp only [hexVal, BitVec.le_def, BitVec.toNat_ofNat]
  rw [if_neg (by omega), if_neg (by omega), if_pos ⟨trivial, by omega⟩]

/-- A byte outside the ranges of the digits is none; the letters `A` to `F` are a range only by `HEX_UPPER` (D8). -/
theorem hexVal_eq_none {upper : Bool} (hd : b.toNat < 0x30 ∨ 0x39 < b.toNat) (hl : b.toNat < 0x61 ∨ 0x66 < b.toNat)
    (hu : upper = true → b.toNat < 0x41 ∨ 0x46 < b.toNat) : hexVal upper b = none := by
  simp only [hexVal, BitVec.le_def, BitVec.toNat_ofNat]
  rw [if_neg (by omega), if_neg (by omega), if_neg]
  rintro ⟨hup, ha, hf⟩
  have hu' := hu hup
  omega

end

/-! What the loop leaves alone. -/

/-- With `n` bytes decoded, from digits that all stand before index `k`, the loop writes below where it stops reading. -/
theorem hexLoop_drop (upper : Bool) (todo : Nat) : ∀ k tok n hi, n + hi.toList.length ≤ k →
    (hexLoop upper todo k tok n hi).1.drop (k + todo) = tok.drop (k + todo) := by
  induction todo with
  | zero => exact fun _ _ _ _ _ => rfl
  | succ todo ih =>
    intro k tok n hi hn
    have hk : k + (todo + 1) = k + 1 + todo := by omega
    rw [hk]
    by_cases hsp : tok.getD k 0#8 = spaceByte
    · rw [hexLoop_space hsp]
      exact ih (k + 1) tok n hi (Nat.le_succ_of_le hn)
    cases hv : hexVal upper (tok.getD k 0#8) with
    | none => rw [hexLoop_bad hsp hv]
    | some v =>
      cases hi with
      | none =>
        rw [hexLoop_high hsp hv]
        exact ih (k + 1) tok n (some v) (Nat.succ_le_succ hn)
      | some high =>
        have hn' : n + 1 ≤ k := hn
        rw [hexLoop_low hsp hv, ih (k + 1) _ (n + 1) none (Nat.le_succ_of_le hn'), List.drop_set_of_lt (by omega)]

theorem hexDecode_drop (s : State) : (hexDecode s).1.tok.drop s.wLen = s.tok.drop s.wLen := by
  have hdrop := hexLoop_drop s.cfg.hexUpper s.wLen 0 s.tok 0 none (Nat.le_refl 0)
  rwa [Nat.zero_add] at hdrop

/-- Settles O44: the digits range by range, then the decoder by what it answers and what it leaves alone. -/
theorem hexDecodeInPlaceIsExact : Obligations.HexDecodeInPlaceIsExact := by
  refine ⟨fun upper b => ⟨hexVal_of_decimal upper, hexVal_of_lower upper, ?upper, ?notUpper, ?none⟩, fun s hlen =>
    ⟨rfl, length_hexLoop _ _ _ _ _ _, hexDecode_drop s, fun _ => hexDecode_of_hexText hlen,
      hexDecode_of_hexText_none hlen⟩⟩
  case upper => rintro ha hf rfl; exact hexVal_of_upper ha hf
  case notUpper =>
    rintro ha hf rfl
    exact hexVal_eq_none (by omega) (by omega) Bool.noConfusion
  case none =>
    intro h
    exact hexVal_eq_none (by omega) (by omega) fun _ => by omega

end Sys2Proof.Machine
end

