-- ==== Sys2Proof/Proofs/OverlongWord.lean ====
section
/-! PROOFS. A word that outgrows its store discards its frame (spec/43_framing_fsm.md R156 to R159, the spec's decision D6): the
word is read until its store is full, and the byte that does not fit ends the frame. -/

namespace Sys2Proof.Machine

section
variable {cap store : Nat} {text token name : List Byte} {s s₀ u : State}

/-! The byte that does not fit (R156). -/

theorem rxByte_of_full (hcap : capOf s.st = some cap) (hstore : storeOf s.cfg s.st = some store) {b : Byte}
    (h : s.wPhase = .esc ∨ (isDelim b = false ∧ b ≠ escByte)) (hl : s.wLen = store) :
    rxByte b s = .ok (s.discard .tokenOverflow) :=
  ofExcept_eq_next.mp (exec_rxb_of_overflow hcap hstore (wordStep_full h hl))

/-- One byte of the token, plain or escaped, that finds the store full; the backslash before it is still read. -/
theorem rxBytes_spellItem_full (h : WordStarted cap store s₀) (hr : HoldsToken token s₀ s) (hp : s.wPhase ≠ .esc)
    (hfull : token.length = store) {x : Bool × Byte} (hx : x.1 = false → isDelim x.2 = false ∧ x.2 ≠ escByte) :
    ∃ u, rxBytes (spellItem x) s = .ok (u.discard .tokenOverflow) ∧ HoldsToken token s₀ u := by
  have hcap : capOf s.st = some cap := hr.st_eq ▸ h.cap_eq
  have hstore : storeOf s.cfg s.st = some store := hr.cfg_eq ▸ hr.st_eq ▸ h.store_eq
  have hl : s.wLen = store := hr.len.trans hfull
  obtain ⟨_ | _, b⟩ := x
  case false => exact ⟨s, rxBytes_cons (rxByte_of_full hcap hstore (.inr (hx rfl)) hl), hr⟩
  case true =>
    have hesc := rxByte_of_more hcap hstore (wordStep_escByte hp)
    have hbyte : rxByte b { s with wPhase := .esc } = .ok ({ s with wPhase := .esc }.discard .tokenOverflow) :=
      rxByte_of_full (s := { s with wPhase := .esc }) hcap hstore (.inl rfl) hl
    obtain ⟨hframe, hlen, htokLen, htoken⟩ := hr
    exact ⟨{ s with wPhase := .esc }, (rxBytes_cons hesc).trans (rxBytes_cons hbyte),
      ⟨by rw [hframe], hlen, htokLen, htoken⟩⟩

/-- A text that overflows its store is read whole; at its last byte the frame is discarded, with the store full. -/
theorem rxBytes_overlongText (h : WordStarted cap store s₀) (htext : OverlongText cap store text) :
    ∃ token u, rxBytes text s₀ = .ok (u.discard .tokenOverflow) ∧ HoldsToken token s₀ u := by
  obtain ⟨lead, items, x, hlead, hplain, hlen, hcnt, rfl⟩ := htext
  have hskip := rxBytes_lead h hlead
  obtain ⟨s, hs, hr⟩ := rxBytes_spell h items (fun y hy => hplain y (by simp [hy])) hlen.le hcnt
  obtain ⟨u, hu, htok⟩ := rxBytes_spellItem_full h hr.toHoldsToken hr.not_esc (by rw [List.length_map, hlen])
    (hplain x (by simp))
  refine ⟨_, u, ?_, htok⟩
  have hspell : spell (items ++ [x]) = spell items ++ spellItem x := by simp [spell]
  rw [hspell, rxBytes_append _ _ _ _ hskip, rxBytes_append _ _ _ _ hs, hu]

/-! The frames. -/

/-- Receiving `bytes` drops one frame for an overlong word and does no more: back at scanning, no event, the reorder state
and the transmit side as they were (R156, R237). -/
def DropsOverlongFrame (bytes : List Byte) (s : State) : Prop :=
  ∃ t, ofExcept (rxBytes bytes s) = .next t ∧ t.st = .sScan ∧ t.events = s.events ∧
    t.drops = s.drops ++ [.tokenOverflow] ∧ t.reorder = s.reorder ∧ t.txSide = s.txSide

theorem dropsOverlongFrame_of_discard {bytes : List Byte} (hrun : rxBytes bytes s = .ok (u.discard .tokenOverflow))
    (hev : u.events = s.events) (hdr : u.drops = s.drops) (hre : u.reorder = s.reorder) : DropsOverlongFrame bytes s :=
  ⟨_, ofExcept_eq_next.mpr hrun, rfl, hev, congrArg (· ++ [DropCause.tokenOverflow]) hdr, hre, (rxBytes_frame hrun).1⟩

/-- The first word of a text frame overflows (R157, R158). -/
theorem dropsOverlongFrame_firstWord {st : RxSt} {bytes : List Byte} (hc : s.cfg.Legal) (hs : StoresOk s)
    (hcap : capOf st = some cap) (hstore : storeOf s.cfg st = some store) (htext : OverlongText cap store text)
    (hstart : rxBytes bytes s = rxBytes text (textStart st s)) :
    DropsOverlongFrame bytes s := by
  obtain ⟨token, u, hu, htok⟩ := rxBytes_overlongText (wordStarted_textStart hc hs hcap hstore) htext
  obtain ⟨hev, hdr, hre, -, -⟩ := htok.rest_eq
  exact dropsOverlongFrame_of_discard (hstart.trans hu) hev hdr hre

/-- Up to the end of a configuration frame's name: the value word starts, with room for it, and nothing has left (R158). -/
theorem rxBytes_configName {text1 : List Byte} (hc : s.cfg.Legal) (hs : StoresOk s) (hst : s.st = .sScan)
    (h1 : WordText capName s.cfg.store16 text1 name) :
    ∃ v, rxBytes (markByte :: typeD :: text1) s = .ok v ∧ WordStarted capValue s.cfg.store64 v ∧
      v.events = s.events ∧ v.drops = s.drops ∧ v.reorder = s.reorder := by
  obtain ⟨u, hu, htok⟩ := rxBytes_wordText (wordStarted_textStart (st := .sName) (cap := capName) hc hs rfl rfl) h1
  obtain ⟨hev, hdr, hre, hnm, -⟩ := htok.rest_eq
  have hcfg : u.cfg = s.cfg := htok.cfg_eq
  have hle := h1.length_le
  have hroom : s.cfg.store16 ≤ s.cfg.store64 := storeOf_le (st := .sName) hc rfl
  obtain ⟨htoklen, hnamelen⟩ := hs
  have hlen : u.tok.length = s.cfg.store64 + 1 := htok.tokLen.trans htoklen
  have hname : u.name.length = s.cfg.store16 + 1 := (congrArg List.length hnm).trans hnamelen
  obtain ⟨n, hdone, -⟩ := nameDone_of_token htok (by omega) (by omega)
  refine ⟨nameDone u, (rxBytes_configStart hst).trans hu, ?_⟩
  rw [hdone]
  exact ⟨⟨rfl, congrArg (fun c : Config => some c.store64) hcfg, rfl, rfl, rfl, by
    change s.cfg.store64 < u.tok.length
    omega⟩, hev, hdr, hre⟩

/-- The value of a configuration overflows after its name (R159). -/
theorem dropsOverlongFrame_value {text1 : List Byte} (hc : s.cfg.Legal) (hs : StoresOk s) (hst : s.st = .sScan)
    (h1 : WordText capName s.cfg.store16 text1 name) (htext : OverlongText capValue s.cfg.store64 text) :
    DropsOverlongFrame (markByte :: typeD :: (text1 ++ text)) s := by
  obtain ⟨v, hv, hstart, hev, hdr, hre⟩ := rxBytes_configName hc hs hst h1
  obtain ⟨token, u, hu, htok⟩ := rxBytes_overlongText hstart htext
  obtain ⟨hev', hdr', hre', -, -⟩ := htok.rest_eq
  exact dropsOverlongFrame_of_discard ((rxBytes_append (markByte :: typeD :: text1) text s v hv).trans hu)
    (hev'.trans hev) (hdr'.trans hdr) (hre'.trans hre)

end

/-- Settles O47: the overlong word is the frame's first, or the value after a name. -/
theorem overlongWordIsDropped : Obligations.OverlongWordIsDropped := by
  intro text s hc hs hst
  refine ⟨fun htext => ⟨?command, ?name⟩, fun text1 name h1 htext => ?value⟩
  case command => exact dropsOverlongFrame_firstWord (st := .sCmd) hc hs rfl rfl htext (rxBytes_commandStart hst)
  case name => exact dropsOverlongFrame_firstWord (st := .sName) hc hs rfl rfl htext (rxBytes_configStart hst)
  case value => exact dropsOverlongFrame_value hc hs hst h1 htext

end Sys2Proof.Machine
end

