-- ==== Sys2Proof/Proofs/Chunking.lean ====
section
/-! PROOFS. Where the byte stream is cut does not matter (spec/43_framing_fsm.md R164): a chunk has the effect of its bytes one
after the other, in one operation or in as many steps. -/

namespace Sys2Proof.Machine

section
variable {b : Byte} {bytes : List Byte} {s t : State}

/-- The receipt of a byte reads nothing of what is still to be presented (R246). -/
theorem rxByte_setInput (ht : rxByte b s = .ok t) (more : List Input) :
    rxByte b { s with input := more } = .ok { t with input := more } := by
  obtain ⟨r, hr⟩ := rxByte_ok b s.silent
  have heard : ∀ u : State, s.framing = u.framing → s.reorder = u.reorder → s.cfg = u.cfg →
      rxByte b u = .ok (u.behind r) := by
    intro u hf hre hc
    have hu := rxByte_behind u s.silent b
    rwa [behind_silent hf hre hc, hr] at hu
  cases (heard s rfl rfl rfl).symm.trans ht
  exact heard { s with input := more } rfl rfl rfl

/-- An operation whose encoding is a chunk is the receipt of that chunk's bytes (R71 to R74, R142). -/
theorem exec_of_encode_wire {i : Instr} (h : encode i = some (.wire bytes)) (s : State) :
    exec i s = ofExcept (rxBytes bytes s) := by
  cases i <;> cases h
  case frameR body => rfl
  case frameC body => rfl
  case frameD body => rfl
  case frameOther type => rfl

/-- However a chunk is named, its effect is that of its bytes (R142, R223). -/
theorem exec_decodeWire (c : Config) (bytes : List Byte) (s : State) :
    exec (decodeWire c bytes) s = ofExcept (rxBytes bytes s) := by
  rcases decodeWire_cases c bytes with ⟨-, henc⟩ | hfeed
  · exact exec_of_encode_wire henc s
  · rw [hfeed]
    rfl

/-- The command word that presents one received byte (R82). -/
def rxbWord (b : Byte) : Input := .cmd (0x1#4 ++ 0#20 ++ b)

/-- One step on the `RXB` word of a byte is the receipt of the byte. -/
theorem step_rxbWord (ht : rxByte b s = .ok t) (more : List Input) :
    step { s with input := rxbWord b :: more } = .next { t with input := more } := by
  have hdec : decode s.cfg (rxbWord b) = .ok (.rxb b) := decodeCmd_of_encode rfl
  have hstep : step { s with input := rxbWord b :: more } = exec (.rxb b) { s with input := more } :=
    step_of_decode_ok (s := { s with input := rxbWord b :: more }) rfl hdec
  exact hstep.trans (ofExcept_eq_next.mpr (rxByte_setInput ht more))

/-- A machine's first step, when it answers a next state, then the rest of its run. -/
theorem run_succ_of_next (M : Host.Core) {k : Nat} {x y : M.State} (h : M.step x = .next y) :
    M.run (k + 1) x = M.run k y := by
  rw [Host.Core.run, h]

/-- As many steps on the `RXB` words of a byte sequence are the receipt of its bytes (R164). -/
theorem run_rxbWords (rest : List Input) (bytes : List Byte) : ∀ s t : State, rxBytes bytes s = .ok t →
    core.run bytes.length { s with input := bytes.map rxbWord ++ rest } = .next { t with input := rest } := by
  induction bytes with
  | nil =>
    intro s t ht
    cases ht
    rfl
  | cons b bs ih =>
    intro s t ht
    obtain ⟨u, hu⟩ := rxByte_ok b s
    rw [rxBytes_cons hu] at ht
    exact (run_succ_of_next core (step_rxbWord hu (bs.map rxbWord ++ rest))).trans (ih u t ht)

end

/-- Settles O51: the parts of a concatenation, the empty chunk, and the steps on a chunk's `RXB` words. -/
theorem chunkingIsInvisible : Obligations.ChunkingIsInvisible := by
  refine ⟨fun as bs s => ?parts, fun s => rfl, fun bytes rest s t ht => ?steps⟩
  case parts =>
    obtain ⟨t, ht⟩ := rxBytes_ok as s
    have hfirst : exec (.feed as) s = .next t := ofExcept_eq_next.mpr ht
    rw [execSeq_cons_of_next hfirst, execSeq_singleton]
    exact congrArg ofExcept (rxBytes_append as bs s t ht)
  case steps =>
    have hchunk : rxBytes bytes { s with input := rest } = .ok t := by
      rw [step_of_decode_ok rfl rfl, exec_decodeWire] at ht
      exact ofExcept_eq_next.mp ht
    obtain ⟨-, -, hout, -⟩ := rxBytes_frame hchunk
    have hinput : t.input = rest := congrArg Prod.snd hout
    have hrun := run_rxbWords rest bytes _ _ hchunk
    rw [← hinput] at hrun ⊢
    exact hrun

end Sys2Proof.Machine
end

