-- ==== Sys2Proof/Proofs/FrameBytes.lean ====
section
/-! PROOFS. A byte received outside a word (spec/43_framing_fsm.md R143 to R146): the scan for the marker, the type byte, and
the body bytes of a packet frame, the last of which leads to the packet or to its discard. -/

namespace Sys2Proof.Machine

section
variable {b : Byte} {s : State}

/-! The marker and the type byte (R143, R144). -/

theorem exec_rxb_of_scan (hst : s.st = .sScan) : exec (.rxb b) s = .next (onScan b s) := by
  refine ofExcept_eq_next.mpr ?_
  simp only [rxByte, hst]

theorem exec_rxb_of_type (hst : s.st = .sType) : exec (.rxb b) s = .next (onType b s) := by
  refine ofExcept_eq_next.mpr ?_
  simp only [rxByte, hst]

theorem onScan_eq (b : Byte) (s : State) : onScan b s = { s with st := if b = markByte then .sType else .sScan } := by
  unfold onScan
  split <;> rfl

/-- Settles O32: the scan in closed form, and the type byte by the four cases of R144. -/
theorem scanAndTypeDispatch : Obligations.ScanAndTypeDispatch := by
  refine fun b s => ⟨fun hst => ?scan, fun hst => ⟨?packet, ?command, ?config, ?bad⟩⟩
  case scan => rw [exec_rxb_of_scan hst, onScan_eq]; rfl
  case packet => rintro rfl; exact exec_rxb_of_type hst
  case command => rintro rfl; exact exec_rxb_of_type hst
  case config => rintro rfl; exact exec_rxb_of_type hst
  case bad =>
    intro hr hc hd
    rw [exec_rxb_of_type hst, onType_other s hr hc hd]
    rfl

/-! The body bytes of a packet frame (R145, R146). -/

/-- A body byte before the 31st, whatever the counter says below 30 (R145). -/
theorem exec_rxb_body (b : Byte) (hst : s.st = .sPkt) (hcnt : s.rxCnt.toNat < 30) :
    exec (.rxb b) s = .next (bodyStored b s) := by
  have hreg : s.rxCnt = BitVec.ofNat 5 s.rxCnt.toNat := by rw [BitVec.ofNat_toNat, BitVec.setWidth_eq]
  have hsucc : BitVec.ofNat 5 (s.rxCnt.toNat + 1) = s.rxCnt + 1#5 := by rw [BitVec.ofNat_add, ← hreg]
  have hbyte := rxByte_body b hst hreg hcnt
  rw [hsucc] at hbyte
  exact ofExcept_eq_next.mpr hbyte

/-- The last body byte of a valid packet: the reorder algorithm takes the packet, then the scan goes on (R146). -/
theorem exec_rxb_lastBody_of_valid (h : LastBodyByte s) (hv : pktValid s.cfg (assembled s b) = true) :
    ∃ t, reorderAccept (assembled s b) { s.received b with st := .sPkt } = .ok t ∧
      exec (.rxb b) s = .next t.toScan := by
  obtain ⟨t, ht⟩ := reorderAccept_ok (assembled s b) { s.received b with st := .sPkt }
  refine ⟨t, ht, ofExcept_eq_next.mpr ?_⟩
  rw [rxByte_lastBody h, if_pos hv, ht]
  rfl

/-- The last body byte of an invalid packet (R146, R237). -/
theorem exec_rxb_lastBody_of_invalid (h : LastBodyByte s) (hv : pktValid s.cfg (assembled s b) = false) :
    exec (.rxb b) s = .next { s.received b with drops := s.drops ++ [.badCrc] } := by
  refine ofExcept_eq_next.mpr ?_
  rw [rxByte_lastBody h, hv]
  rfl

end

/-- Settles O34: the invalid case of the last body byte. -/
theorem invalidPacketIsDiscarded : Obligations.InvalidPacketIsDiscarded :=
  fun _ _ => exec_rxb_lastBody_of_invalid

/-- Settles O33: a body byte before the last, and the last by whether the packet is valid; the reorder algorithm leaves the
receive buffer and its counter alone. -/
theorem bodyBytesAreCounted : Obligations.BodyBytesAreCounted := by
  refine fun b s hst => ⟨exec_rxb_body b hst, fun hcnt => ?_⟩
  cases hv : pktValid s.cfg (assembled s b) with
  | false => exact ⟨_, exec_rxb_lastBody_of_invalid ⟨hst, hcnt⟩ hv, rfl, rfl, rfl⟩
  | true =>
    obtain ⟨t, ht, hexec⟩ := exec_rxb_lastBody_of_valid ⟨hst, hcnt⟩ hv
    have hframe := reorderAccept_frame ht
    exact ⟨_, hexec, rfl, by rw [hframe]; rfl, by rw [hframe]; rfl⟩

end Sys2Proof.Machine
end

