-- ==== Sys2Proof/Proofs/ReorderBranches.lean ====
section
/-! PROOFS. What the last body byte of a valid packet does, by the branch of the reorder algorithm that takes the packet
(spec/44_reorder.md R180 to R189). -/

namespace Sys2Proof.Machine

/-! The branches, each under its own condition (R184 to R188). -/

section
variable {p : Packet} {s : State}

theorem reorderBranch_of_ahead {d : Nat} (hd : delta (pktSeq p) s.lastSeq = d) (hpos : 0 < d) (hlt : d < s.win.toNat) :
    reorderBranch p s =
      .ok { s.evict (min s.rb.length (s.rb.length + d + 1 - s.win.toNat)) with
            rb := s.rb.drop (min s.rb.length (s.rb.length + d + 1 - s.win.toNat))
                    ++ List.replicate (d - 1) .empty ++ [.full p],
            lastSeq := pktSeq p } := by
  have hnew : isNewAhead (delta (pktSeq p) s.lastSeq) s.win.toNat = true := by
    rw [hd]
    exact decide_eq_true ⟨by omega, by omega⟩
  rw [← newAhead_eq p hpos hlt, ← Int.toNat_natCast d, ← hd]
  exact if_pos hnew

theorem reorderBranch_of_late (hw : s.win ≠ 0#16) (hd : delta (pktSeq p) s.lastSeq ≤ 0)
    (hin : (delta (pktSeq p) s.lastSeq).natAbs < s.rb.length) :
    reorderBranch p s =
      .ok { s with rb := s.rb.set (s.rb.length - 1 - (delta (pktSeq p) s.lastSeq).natAbs) (.full p) } := by
  obtain ⟨t, ht, ⟨hahead, -⟩ | ⟨-, -, rfl⟩ | ⟨-, hnot, -⟩ | ⟨-, hout, -⟩⟩ := reorderBranch_cases p hw
  · omega
  · exact ht
  · exact absurd ⟨hd, hin⟩ hnot
  · omega

theorem reorderBranch_of_far (hw : s.win ≠ 0#16) (hroom : s.rb.length < s.win.toNat)
    (hfar : s.win.toNat ≤ (delta (pktSeq p) s.lastSeq).natAbs) :
    reorderBranch p s =
      .ok { s with rb := [.full p], events := s.events ++ arrivals s.rb, lastSeq := pktSeq p } := by
  obtain ⟨t, ht, ⟨hpos, hlt, -⟩ | ⟨-, hin, -⟩ | ⟨-, -, rfl⟩ | ⟨-, -, hnear, -⟩⟩ := reorderBranch_cases p hw
  · omega
  · omega
  · exact ht
  · omega

theorem reorderBranch_of_stale (hw : s.win ≠ 0#16) (hd : delta (pktSeq p) s.lastSeq ≤ 0)
    (hout : s.rb.length ≤ (delta (pktSeq p) s.lastSeq).natAbs)
    (hnear : (delta (pktSeq p) s.lastSeq).natAbs < s.win.toNat) :
    reorderBranch p s = .ok (s.dropped .stale) := by
  obtain ⟨t, ht, ⟨hahead, -⟩ | ⟨-, hin, -⟩ | ⟨hfar, -⟩ | ⟨-, -, -, rfl⟩⟩ := reorderBranch_cases p hw
  · omega
  · omega
  · omega
  · exact ht

end

/-- With the window off the packet is delivered at once (R182). -/
theorem reorderAccept_off {p : Packet} {s : State} (hw : s.win = 0#16) :
    reorderAccept p s = .ok { s.emit (.pktArrived p) with lastSeq := pktSeq p } := if_pos hw

/-! The last body byte of a valid packet (R146). -/

section
variable {b : Byte} {s t : State}

theorem exec_rxb_of_accepted (h : LastBodyByte s) (hv : pktValid s.cfg (assembled s b) = true)
    (ht : reorderAccept (assembled s b) { s.received b with st := .sPkt } = .ok t) :
    exec (.rxb b) s = .next t.toScan := by
  obtain ⟨u, hu, hexec⟩ := exec_rxb_lastBody_of_valid h hv
  cases hu.symm.trans ht
  exact hexec

/-- With a window that is on: the branch taken, the drain, then the scan goes on (R184, R189). -/
theorem exec_rxb_of_branch (h : LastBodyByte s) (hv : pktValid s.cfg (assembled s b) = true) (hw : s.win ≠ 0#16)
    (ht : reorderBranch (assembled s b) { s.received b with st := .sPkt } = .ok t) :
    exec (.rxb b) s =
      .next { t with st := .sScan, rb := t.rb.dropWhile Slot.occupied,
                     events := t.events ++ arrivals (t.rb.takeWhile Slot.occupied) } :=
  exec_rxb_of_accepted h hv (reorderAccept_on hw ht)

end

/-- Settles O35: with the window off the packet is accepted without a branch. -/
theorem windowOffDeliversAtOnce : Obligations.WindowOffDeliversAtOnce :=
  fun _ _ h hv hw => exec_rxb_of_accepted h hv (reorderAccept_off hw)

/-- Settles O36: the new-ahead branch. -/
theorem newAheadPacketIsAppended : Obligations.NewAheadPacketIsAppended := by
  rintro b s _ d _ _ h rfl hv hw hd hpos hlt rfl rfl
  exact exec_rxb_of_branch h hv hw (reorderBranch_of_ahead hd hpos hlt)

/-- Settles O37: the late branch. -/
theorem latePacketFillsItsSlot : Obligations.LatePacketFillsItsSlot := by
  rintro b s _ _ _ h rfl hv hw rfl hd hin rfl
  exact exec_rxb_of_branch h hv hw (reorderBranch_of_late hw hd hin)

/-- Settles O38: the restart, whose one packet the drain delivers at once. -/
theorem farPacketRestartsWindow : Obligations.FarPacketRestartsWindow := by
  rintro b s _ _ h rfl hv hw hroom rfl hfar
  exact exec_rxb_of_branch h hv hw (reorderBranch_of_far hw hroom hfar)

/-- Settles O39: none of the branches, and the gap at the front keeps the drain from delivering anything. -/
theorem stalePacketIsDropped : Obligations.StalePacketIsDropped := by
  rintro b s _ _ h rfl hv hw hfront rfl hd hout hnear
  obtain ⟨hdrop, htake⟩ := drained_of_frontOk hfront
  rw [exec_rxb_of_branch h hv hw (reorderBranch_of_stale hw hd hout hnear)]
  simp only [dropped_rb, State.received, hdrop, htake, arrivals_nil, List.append_nil]
  rfl

end Sys2Proof.Machine
end

