-- ==== Sys2Proof/Proofs/DeliveryOrder.lean ====
section
/-! PROOFS. The packets one received byte delivers are in the order of their numbers (spec/44_reorder.md R190, R192,
spec/60_exceptions.md R236): they leave in ring order, and a ring that fits the window numbers its slots in order. -/

namespace Sys2Proof.Machine

/-! The numbers of a ring's packets (R138, R190 (c)). -/

/-- Slots stand for numbers as far apart as the slots. -/
theorem slotSeq_sub (l : U16) {n j k : Nat} (hjk : j ≤ k) (hk : k < n) :
    slotSeq l n k - slotSeq l n j = BitVec.ofNat 16 (k - j) := by
  rw [slotSeq, slotSeq, show n - 1 - j = n - 1 - k + (k - j) by omega, BitVec.ofNat_add]
  exact (sub_sub_sub_cancel_left _ _ l).trans (add_sub_cancel_left _ _)

/-- Less than half the numbers apart, the later slot has the greater number in signed 16-bit difference (R181). -/
theorem slotSeq_increasing (l : U16) {n j k : Nat} (hjk : j < k) (hk : k < n) (hn : n ≤ 32768) :
    0 < (slotSeq l n k - slotSeq l n j).toInt := by
  have hnat : (BitVec.ofNat 16 (k - j)).toNat = k - j := Nat.mod_eq_of_lt (by omega)
  rw [slotSeq_sub l hjk.le hk, BitVec.toInt_eq_toNat_of_lt (by omega)]
  omega

/-- The sequence numbers of the packets among the records are strictly increasing (R192). -/
def InSequence (es : List Event) : Prop :=
  (es.filterMap Event.arrivedSeq).Pairwise (fun q r => 0 < (r - q).toInt)

section
variable {c : Config} {l : U16} {rb part : List Slot}

theorem inSequence_arrivals (h : SlotsOk c l rb) (hlen : rb.length ≤ 32768) : InSequence (arrivals rb) := by
  induction rb with
  | nil => exact .nil
  | cons v rest ih =>
    rw [List.length_cons] at hlen
    have hrest := ih (slotsOk_drop h 1) (by omega)
    cases v with
    | empty => exact hrest
    | full q =>
      refine .cons (fun r hr => ?_) hrest
      obtain ⟨e, he, hseq⟩ := List.mem_filterMap.mp hr
      obtain ⟨q', hq', rfl⟩ := mem_arrivals.mp he
      cases hseq
      obtain ⟨k, hk⟩ := List.mem_iff_getElem?.mp hq'
      have hlt : k < rest.length := (List.getElem?_eq_some_iff.mp hk).1
      rw [(h 0 q rfl).1, (h (k + 1) q' hk).1]
      exact slotSeq_increasing l (Nat.succ_pos k) (by rw [List.length_cons]; omega) hlen

/-- So are those of the slots delivered, wherever in the ring they stand. -/
theorem inSequence_of_sublist (hpart : part.Sublist rb) (h : SlotsOk c l rb) (hlen : rb.length ≤ 32768) :
    InSequence (arrivals part) :=
  (inSequence_arrivals h hlen).sublist ((hpart.filterMap _).filterMap _)

/-- The drain stops at a gap (R189). -/
theorem takeWhile_occupied_append_gap (rb tail : List Slot) :
    (rb ++ .empty :: tail).takeWhile Slot.occupied = rb.takeWhile Slot.occupied := by
  induction rb with
  | nil => rfl
  | cons v rest ih => cases v <;> simp [List.takeWhile_cons, ih]

/-- Slots evicted to make room and slots drained once the ring has grown leave in ring order (R183, R185, R189). -/
theorem delivered_sublist_ring {tail : List Slot} (room : Nat) :
    (rb.take room ++ (rb.drop room ++ tail).takeWhile Slot.occupied).Sublist (rb ++ tail) := by
  conv_rhs => rw [← List.take_append_drop room rb, List.append_assoc]
  exact (List.takeWhile_sublist _).append_left _

/-- New-ahead (R185): the packet itself leaves only when no gap stands before it, and then its number is the next one;
otherwise the drain ends within the old ring. -/
theorem inSequence_ahead {p : Packet} {d : Nat} (h : SlotsOk c l rb) (hv : pktValid c p = true)
    (hseq : pktSeq p = l + BitVec.ofNat 16 (d + 1)) (hlen : rb.length < 32768) (room : Nat) :
    InSequence (arrivals (rb.take room) ++
      arrivals ((rb.drop room ++ List.replicate d Slot.empty ++ [Slot.full p]).takeWhile Slot.occupied)) := by
  rw [← arrivals_append]
  cases d with
  | zero =>
    have hring := slotsOk_append h hv hseq
    rw [List.replicate_zero, List.append_nil] at hring ⊢
    exact inSequence_of_sublist (delivered_sublist_ring room) hring (by simpa using hlen)
  | succ d =>
    rw [List.append_assoc, List.replicate_succ, List.cons_append, takeWhile_occupied_append_gap]
    have hpart := delivered_sublist_ring (rb := rb) (tail := []) room
    rw [List.append_nil, List.append_nil] at hpart
    exact inSequence_of_sublist hpart h hlen.le

end

/-! An accepted packet. -/

/-- `t` is `s` with records appended whose packets are in sequence. -/
def EmitsInSequence (s t : State) : Prop := ∃ es, t.events = s.events ++ es ∧ InSequence es

/-- A packet within the window, accepted with a window that is on (R185, R186, R188). -/
theorem reorderAccept_inSequence {p : Packet} {s t : State} (h : ReorderOk s) (hmax : s.cfg.wMax ≤ 32767)
    (hw : s.win ≠ 0#16) (hv : pktValid s.cfg p = true) (hnear : (delta (pktSeq p) s.lastSeq).natAbs < s.win.toNat)
    (ht : reorderAccept p s = .ok t) : EmitsInSequence s t := by
  obtain ⟨u, hu, hcase⟩ := reorderBranch_cases p hw
  obtain ⟨-, -, -, hslots, -⟩ := reorderBranch_branchOk h hw hv hu
  obtain ⟨⟨hwin, -, hroom⟩, -, -, hold⟩ := h
  have hlt := hroom hw
  cases (reorderAccept_on hw hu).symm.trans ht
  rcases hcase with ⟨hd, hdw, hnew⟩ | ⟨-, -, rfl⟩ | ⟨hfar, -⟩ | ⟨-, -, -, rfl⟩
  case inl =>
    have hseq := seq_of_ahead hd
    obtain ⟨d, hd'⟩ : ∃ d, (delta (pktSeq p) s.lastSeq).toNat = d + 1 := ⟨_, (Nat.succ_pred (by omega)).symm⟩
    rw [hd'] at hnew hseq
    rw [newAhead_eq p (Nat.succ_pos d) (by omega)] at hnew
    cases hnew
    exact ⟨_, List.append_assoc _ _ _, inSequence_ahead hold hv hseq (by omega) _⟩
  case inr.inl =>
    exact ⟨_, rfl, inSequence_of_sublist (List.takeWhile_sublist _) hslots (by rw [List.length_set]; omega)⟩
  case inr.inr.inl => omega
  case inr.inr.inr =>
    exact ⟨_, rfl, inSequence_of_sublist (List.takeWhile_sublist _) hslots (by rw [dropped_rb]; omega)⟩

/-! A received byte. -/

/-- A record of another kind than `PKT_ARRIVED`. -/
def IsNoArrival (e : Event) : Prop := e.arrivedSeq = none

section
variable {b : Byte} {s t : State}

theorem emitsInSequence_of_noArrival (h : Emits IsNoArrival s t) : EmitsInSequence s t := by
  obtain ⟨es, hes, hnone⟩ := h
  refine ⟨es, hes, ?_⟩
  rw [InSequence, List.filterMap_eq_nil_iff.mpr hnone]
  exact .nil

theorem emits_emit {P : Event → Prop} {e : Event} (h : P e) : Emits P s (s.emit e) :=
  ⟨[e], rfl, fun _ he => List.mem_singleton.mp he ▸ h⟩

/-- A finished word delivers no packet, whatever the word (R158, R160, R161). -/
theorem wordDone_noArrival (st : RxSt) (s : State) : Emits IsNoArrival s (wordDone st s) := by
  cases st
  case sCmd =>
    rw [wordDone, cmdFin]
    split
    · exact emits_of_events_eq rfl
    · exact emits_emit (e := .command _) rfl
  case sName => exact emits_of_events_eq (nameDone_events s)
  case sValue =>
    rw [wordDone, cfgFin]
    split
    · exact emits_of_events_eq rfl
    dsimp only
    split
    · exact emits_of_events_eq rfl
    · exact emits_emit (e := .config _ _) rfl
  all_goals exact emits_of_events_eq rfl

theorem afterWordStep_noArrival (st : RxSt) (cap store : Nat) :
    Emits IsNoArrival s (afterWordStep st (wordStep cap store b s)) := by
  have hread : Emits IsNoArrival s (wordStep cap store b s).2 := emits_of_events_eq (by rw [wordStep_frame])
  rw [afterWordStep]
  split
  · exact hread
  · exact hread.trans (wordDone_noArrival st _)
  · exact hread.trans (emits_of_events_eq rfl)

/-- A byte that completes no packet frame delivers no packet. -/
theorem exec_rxb_noArrival (hcnt : PacketReaderOk s) (hlast : ¬ LastBodyByte s) :
    ∃ t, exec (.rxb b) s = .next t ∧ Emits IsNoArrival s t := by
  cases hst : s.st
  case sScan => exact ⟨_, exec_rxb_of_scan hst, emits_of_events_eq onScan_events⟩
  case sType => exact ⟨_, exec_rxb_of_type hst, emits_of_events_eq onType_events⟩
  case sPkt =>
    have hle := hcnt hst
    have hne : s.rxCnt.toNat ≠ 30 := fun h => hlast ⟨hst, BitVec.eq_of_toNat_eq h⟩
    exact ⟨_, exec_rxb_body b hst (by omega), emits_of_events_eq rfl⟩
  all_goals
    exact ⟨_, exec_rxb_word (congrArg capOf hst) (congrArg (storeOf s.cfg) hst), afterWordStep_noArrival _ _ _⟩

/-- A byte from a state that meets the invariant, unless it restarts the window (R192). -/
theorem exec_rxb_inSequence (h : Inv s) (hw : s.win ≠ 0#16)
    (hnear : LastBodyByte s → (delta (pktSeq (assembled s b)) s.lastSeq).natAbs < s.win.toNat) :
    ∃ t, exec (.rxb b) s = .next t ∧ EmitsInSequence s t := by
  obtain ⟨⟨-, hmax, -⟩, -, hcnt, -, -, hreorder, -⟩ := h
  by_cases hlast : LastBodyByte s
  · cases hv : pktValid s.cfg (assembled s b) with
    | false => exact ⟨_, exec_rxb_lastBody_of_invalid hlast hv, emitsInSequence_of_noArrival (emits_of_events_eq rfl)⟩
    | true =>
      obtain ⟨t, ht, hexec⟩ := exec_rxb_lastBody_of_valid hlast hv
      exact ⟨t.toScan, hexec,
        reorderAccept_inSequence (s := { s.received b with st := .sPkt }) (t := t) hreorder hmax hw hv (hnear hlast) ht⟩
  · obtain ⟨t, hexec, hnone⟩ := exec_rxb_noArrival hcnt hlast
    exact ⟨t, hexec, emitsInSequence_of_noArrival hnone⟩

end

/-- Settles O41: only the last body byte of a valid packet delivers packets, and it does so in ring order. -/
theorem deliveredInSequenceOrder : Obligations.DeliveredInSequenceOrder := by
  intro b s hinv hw hnear
  obtain ⟨t, hexec, es, hes, hseq⟩ := exec_rxb_inSequence hinv hw hnear
  exact ⟨t, es, hexec, hes, hseq⟩

end Sys2Proof.Machine
end

