-- ==== Sys2Proof/Proofs/TransmitHistory.lean ====
section
/-! PROOFS. What `BEGIN` and the payload writes after it leave in the transmit history (spec/45_transmit.md R201 to R210): a
packet stands in its own slot, finalised by the next `BEGIN`, until that slot is opened again. -/

namespace Sys2Proof.Machine

/-! `BEGIN` (R201 to R208). -/

section
variable (s : State)

theorem exec_beginOp : exec .beginOp s = .next (beginSample s) := rfl

@[simp] theorem beginSample_seqTx : (beginSample s).seqTx = s.seqTx + 1#16 := by rw [beginSample_eq]

@[simp] theorem beginSample_mode : (beginSample s).mode = s.mode := by rw [beginSample_eq]

@[simp] theorem beginSample_cfg : (beginSample s).cfg = s.cfg := by rw [beginSample_eq]

@[simp] theorem beginSample_cur : (beginSample s).cur = slotOf (s.seqTx + 1#16) := by
  rw [State.cur, beginSample_seqTx]

end

/-- Settles O25: the closed form of `BEGIN`, read slot by slot. -/
theorem beginEffect : Obligations.BeginEffect := by
  refine ⟨fun _ _ _ => rfl, fun s => ⟨_, exec_beginOp s, ?frame, beginSample_seqTx s, ?slots, ?result, ?records⟩⟩
  case frame => rw [beginSample_eq]
  case slots =>
    intro k
    rw [histAt_beginSample, beginSample_seqTx]
    rfl
  case result =>
    rw [beginSample_eq]
    rfl
  case records =>
    rw [beginSample_events, beginSample_seqTx]
    rfl

/-- Settles O26: as numbers, by the 64 slot indices. -/
theorem lookBehindIsHalfTheHistory : Obligations.LookBehindIsHalfTheHistory := by
  have toNat_xor : ∀ i : SlotIndex,
      (i ^^^ lookBehind).toNat = if i.toNat < 32 then i.toNat + 32 else i.toNat - 32 := by decide
  exact fun q => ⟨lookBehind_eq q, toNat_xor (slotOf q)⟩

/-- The record of a `BEGIN` in mode 0 (R203, R205): the slot whose number is 32 behind the one it opens. -/
theorem beginSample_events_of_mode0 {s : State} (h : s.mode = .mode0) :
    (beginSample s).events = s.events ++ [.pktReady (finalSlot s (slotOf (s.seqTx + 1#16 - 32#16)))] := by
  rw [beginSample_events, lookBehind_eq, readyRecords, h]

/-! The slots of different sequence numbers (R37, R64). -/

theorem slotOf_add_ne (q : U16) {j : Nat} (hpos : 1 ≤ j) (hj : j ≤ 63) : slotOf q ≠ slotOf (q + BitVec.ofNat 16 j) := by
  intro h
  have := congrArg BitVec.toNat h
  simp only [slotOf, BitVec.toNat_setWidth, BitVec.toNat_add, BitVec.toNat_ofNat] at this
  omega

theorem slotOf_sub_ne (q : U16) {a : Nat} (hpos : 1 ≤ a) (ha : a ≤ 63) : slotOf (q - BitVec.ofNat 16 a) ≠ slotOf q := by
  have h := slotOf_add_ne (q - BitVec.ofNat 16 a) hpos ha
  rwa [BitVec.sub_add_cancel] at h

/-! A slot with its packet finalised (R202). -/

section
variable {s : State} {k : SlotIndex}

@[simp] theorem pktSeq_finalSlot : pktSeq (finalSlot s k) = pktSeq (s.histAt k) := (sameHeader_finalSlot s k).seq_eq

theorem finalSlot_cur (s : State) : finalSlot s s.cur = pktFinalize s.cfg (s.histAt s.cur) := if_pos rfl

theorem finalSlot_of_ne (h : k ≠ s.cur) : finalSlot s k = s.histAt k := if_neg h

theorem pktValid_finalSlot (h : k ≠ s.cur → pktValid s.cfg (s.histAt k) = true) :
    pktValid s.cfg (finalSlot s k) = true := by
  by_cases hk : k = s.cur
  · rw [hk, finalSlot_cur]
    exact pktValid_pktFinalize _ _
  · rw [finalSlot_of_ne hk]
    exact h hk

end

/-! Payload writes (R120, R121). -/

/-- `t` is `s` after payload writes: nothing but the current slot differs, and there the header stands. -/
def PayloadWritten (s t : State) : Prop := ∃ p, SameHeader p (s.histAt s.cur) ∧ t = s.setHist s.cur p

theorem PayloadWritten.refl (s : State) : PayloadWritten s s :=
  ⟨s.histAt s.cur, fun _ _ => rfl, by simp [State.setHist, State.histAt]⟩

section
variable {s t u : State}

theorem PayloadWritten.trans (hst : PayloadWritten s t) (htu : PayloadWritten t u) : PayloadWritten s u := by
  obtain ⟨p, hp, rfl⟩ := hst
  obtain ⟨q, hq, rfl⟩ := htu
  rw [cur_setHist, histAt_setHist, if_pos rfl] at hq
  exact ⟨q, fun k hk => (hq k hk).trans (hp k hk), by rw [cur_setHist, setHist_setHist]⟩

theorem PayloadWritten.registers (h : PayloadWritten s t) : t.seqTx = s.seqTx ∧ t.mode = s.mode ∧ t.cfg = s.cfg := by
  obtain ⟨p, -, rfl⟩ := h
  exact ⟨rfl, rfl, rfl⟩

theorem PayloadWritten.histAt_of_ne {k : SlotIndex} (h : PayloadWritten s t) (hk : k ≠ s.cur) :
    t.histAt k = s.histAt k := by
  obtain ⟨p, -, rfl⟩ := h
  rw [histAt_setHist, if_neg hk.symm]

theorem PayloadWritten.pktSeq_histAt (h : PayloadWritten s t) (k : SlotIndex) :
    pktSeq (t.histAt k) = pktSeq (s.histAt k) := by
  by_cases hk : k = s.cur
  · obtain ⟨p, hp, rfl⟩ := h
    rw [hk, histAt_setHist, if_pos rfl, hp.seq_eq]
  · rw [h.histAt_of_ne hk]

theorem payloadWritten_of_exec {i : Instr} (hi : isPayloadWrite i = true) (ht : exec i s = .next t) :
    PayloadWritten s t := by
  cases i <;> cases hi
  case paywr off b =>
    rcases Nat.lt_or_ge 26 off.toNat with hbad | hoff
    · rw [exec_paywr_refused s b hbad] at ht
      cases ht
    · rw [exec_paywr s b hoff] at ht
      cases ht
      exact ⟨_, sameHeader_pktSetByte _ _ b, writeByte_payload s b hoff⟩
  case smpwr ch raw =>
    rcases Nat.lt_or_ge 8 ch.toNat with hbad | hch
    · rw [exec_smpwr_refused raw s hbad] at ht
      cases ht
    · rw [exec_smpwr raw s hch] at ht
      cases ht
      exact ⟨_, sameHeader_smpPut _ _ raw, rfl⟩

end

/-! The newest packets (R64, R208). -/

section
variable {n a : Nat} {s t : State}

/-- More packets than slots cannot stand under their own numbers. -/
theorem HistOk.le_64 (h : HistOk n s) : n ≤ 64 := by
  by_contra hn
  obtain ⟨hnew, -⟩ := h 0 (by omega)
  obtain ⟨hold, -⟩ := h 64 (by omega)
  have hslot : slotOf (s.seqTx - 64#16) = slotOf (s.seqTx - 0#16) := by
    apply BitVec.eq_of_toNat_eq
    simp only [slotOf, BitVec.toNat_setWidth, BitVec.toNat_sub, BitVec.toNat_ofNat]
    omega
  rw [hslot, hnew] at hold
  bv_omega

/-- What the finalisation of `BEGIN` makes of the newest packets: all are valid (R202). -/
theorem HistOk.finalSlot_newest (h : HistOk n s) (ha : a < n) :
    pktSeq (finalSlot s (slotOf (s.seqTx - BitVec.ofNat 16 a))) = s.seqTx - BitVec.ofNat 16 a ∧
    pktValid s.cfg (finalSlot s (slotOf (s.seqTx - BitVec.ofNat 16 a))) = true := by
  obtain ⟨hseq, hvalid⟩ := h a ha
  refine ⟨pktSeq_finalSlot.trans hseq, pktValid_finalSlot fun hne => hvalid (Nat.pos_of_ne_zero ?_)⟩
  rintro rfl
  exact hne (congrArg slotOf (BitVec.sub_zero s.seqTx))

theorem HistOk.of_beginSample (h : HistOk n s) (hn : n ≤ 63) : HistOk (n + 1) (beginSample s) := by
  intro a ha
  rw [beginSample_seqTx, beginSample_cfg, histAt_beginSample]
  cases a with
  | zero => simp
  | succ a =>
    have hprev : s.seqTx + 1#16 - BitVec.ofNat 16 (a + 1) = s.seqTx - BitVec.ofNat 16 a := by bv_omega
    obtain ⟨hseq, hvalid⟩ := h.finalSlot_newest (Nat.lt_of_succ_lt_succ ha)
    rw [if_neg (slotOf_sub_ne _ (by omega) (by omega)), hprev]
    exact ⟨hseq, fun _ => hvalid⟩

theorem HistOk.of_payloadWritten (h : HistOk n s) (hw : PayloadWritten s t) : HistOk n t := by
  intro a ha
  have hn := h.le_64
  obtain ⟨hseq, hvalid⟩ := h a ha
  obtain ⟨hseqTx, -, hcfg⟩ := hw.registers
  rw [hseqTx, hcfg]
  refine ⟨(hw.pktSeq_histAt _).trans hseq, fun hpos => ?_⟩
  rw [hw.histAt_of_ne (slotOf_sub_ne _ hpos (by omega))]
  exact hvalid hpos

end

/-- Settles O27: `BEGIN` and the payload writes keep `HistOk`; the record of mode 0 is the 31st packet behind the one just
filled, finalised. -/
theorem historyHoldsOnePacketPerNumber : Obligations.HistoryHoldsOnePacketPerNumber := by
  refine ⟨fun n s hn h => ⟨_, exec_beginOp s, h.of_beginSample hn⟩,
    fun n i s t h hi ht => h.of_payloadWritten (payloadWritten_of_exec hi ht), fun s h hmode => ?_⟩
  have hnumber : s.seqTx + 1#16 - 32#16 = s.seqTx - BitVec.ofNat 16 31 := by bv_omega
  obtain ⟨hseq, hvalid⟩ := h.finalSlot_newest (a := 31) (by decide)
  refine ⟨_, _, exec_beginOp s, beginSample_events_of_mode0 hmode, ?_, ?_⟩
  · rw [beginSample_seqTx, hnumber, hseq]
  · rwa [hnumber]

/-! Operations one after the other (R59). -/

section
variable {s u : State}

theorem execSeq_cons_eq_next {i : Instr} {is : List Instr} :
    execSeq (i :: is) s = .next u ↔ ∃ t, exec i s = .next t ∧ execSeq is t = .next u := by
  rw [execSeq]
  cases exec i s <;> simp

theorem execSeq_append_eq_next (is js : List Instr) : ∀ s,
    execSeq (is ++ js) s = .next u ↔ ∃ t, execSeq is s = .next t ∧ execSeq js t = .next u := by
  induction is with
  | nil => simp [execSeq]
  | cons i is ih =>
    intro s
    rw [List.cons_append, execSeq_cons_eq_next]
    simp only [ih, execSeq_cons_eq_next]
    exact ⟨fun ⟨t, ht, v, hv, hu⟩ => ⟨v, ⟨t, ht, hv⟩, hu⟩, fun ⟨v, ⟨t, ht, hv⟩, hu⟩ => ⟨t, ht, v, hv, hu⟩⟩

theorem payloadWritten_of_execSeq (w : List Instr) : ∀ s, (∀ i ∈ w, isPayloadWrite i = true) →
    execSeq w s = .next u → PayloadWritten s u := by
  induction w with
  | nil =>
    intro s _ hu
    cases hu
    exact .refl _
  | cons i w ih =>
    intro s hw hu
    obtain ⟨hi, hrest⟩ := List.forall_mem_cons.mp hw
    obtain ⟨t, ht, hu⟩ := execSeq_cons_eq_next.mp hu
    exact (payloadWritten_of_exec hi ht).trans (ih t hrest hu)

end

/-! `BEGIN` with the payload writes that fill its packet, time and again (R209, R210). -/

section
variable {s t u : State} {w : List Instr} {k : SlotIndex}

theorem payloadWritten_of_round (hw : ∀ i ∈ w, isPayloadWrite i = true) (ht : execSeq (.beginOp :: w) s = .next t) :
    PayloadWritten (beginSample s) t :=
  payloadWritten_of_execSeq w _ hw (execSeq_cons_of_next (exec_beginOp s) ▸ ht)

theorem round_registers (h : PayloadWritten (beginSample s) t) :
    t.seqTx = s.seqTx + 1#16 ∧ t.mode = s.mode ∧ t.cfg = s.cfg := by
  simpa using h.registers

/-- The slot the round opens holds its packet, under its number. -/
theorem round_pktSeq (h : PayloadWritten (beginSample s) t) :
    pktSeq (t.histAt (slotOf (s.seqTx + 1#16))) = s.seqTx + 1#16 := by
  rw [h.pktSeq_histAt, histAt_beginSample, if_pos rfl, pktSeq_pktEmpty]

/-- The other slots stay once finalised. -/
theorem round_finalSlot (h : PayloadWritten (beginSample s) t) (hk : k ≠ slotOf (s.seqTx + 1#16)) :
    finalSlot t k = finalSlot s k := by
  have hcur : k ≠ t.cur := by rwa [State.cur, (round_registers h).1]
  rw [finalSlot_of_ne hcur, h.histAt_of_ne (by rwa [beginSample_cur]), histAt_beginSample, if_neg hk]

/-- After a number of rounds: the counter has advanced by it, and a slot none of them opened stays once finalised. -/
theorem rounds_effect (later : List (List Instr)) : ∀ s, (∀ w ∈ later, ∀ i ∈ w, isPayloadWrite i = true) →
    execSeq (later.flatMap (fun w => .beginOp :: w)) s = .next u →
    u.seqTx = s.seqTx + BitVec.ofNat 16 later.length ∧ u.mode = s.mode ∧ u.cfg = s.cfg ∧
    ∀ k, (∀ j, 1 ≤ j → j ≤ later.length → k ≠ slotOf (s.seqTx + BitVec.ofNat 16 j)) → finalSlot u k = finalSlot s k := by
  induction later with
  | nil =>
    intro s _ hu
    cases hu
    simp
  | cons w later ih =>
    intro s hw hu
    obtain ⟨hfirst, hrest⟩ := List.forall_mem_cons.mp hw
    rw [List.flatMap_cons, execSeq_append_eq_next] at hu
    obtain ⟨t, ht, hu⟩ := hu
    have hround := payloadWritten_of_round hfirst ht
    obtain ⟨hseq, hmode, hcfg⟩ := round_registers hround
    obtain ⟨hseq', hmode', hcfg', hslots⟩ := ih t hrest hu
    have hnumber : ∀ j, t.seqTx + BitVec.ofNat 16 j = s.seqTx + BitVec.ofNat 16 (j + 1) := by
      intro j
      rw [hseq]
      bv_omega
    refine ⟨hseq'.trans (hnumber _), hmode'.trans hmode, hcfg'.trans hcfg, fun k hk => ?_⟩
    have hlater : finalSlot u k = finalSlot t k :=
      hslots k fun j _ hj => hnumber j ▸ hk (j + 1) (by omega) (Nat.succ_le_succ hj)
    exact hlater.trans (round_finalSlot hround (hk 1 le_rfl (by simp)))

end

/-- Settles O28: none of the 31 rounds opens the packet's slot, and the next `BEGIN` looks back at it. -/
theorem packetLeavesThirtyTwoBeginsLater : Obligations.PacketLeavesThirtyTwoBeginsLater := by
  intro s t u fill later hfill hlater hlen hmode ht hu
  have hround := payloadWritten_of_round hfill ht
  obtain ⟨hseq, hmode_t, hcfg⟩ := round_registers hround
  obtain ⟨hseq_u, hmode_u, -, hslots⟩ := rounds_effect later t hlater hu
  have hbehind : u.seqTx + 1#16 - 32#16 = t.seqTx := by
    rw [hseq_u, hlen]
    bv_omega
  have hrecord : finalSlot u t.cur = pktFinalize s.cfg (t.histAt t.cur) := by
    rw [hslots t.cur fun j hpos hj => slotOf_add_ne t.seqTx hpos (by omega), finalSlot_cur, hcfg]
  refine ⟨_, exec_beginOp u, ?_, round_pktSeq hround⟩
  rw [beginSample_events_of_mode0 (hmode_u.trans (hmode_t.trans hmode)), hbehind, ← hseq]
  exact congrArg (fun p => u.events ++ [.pktReady p]) hrecord

end Sys2Proof.Machine
end

