-- ==== Sys2Proof/Proofs/ControlOps.lean ====
section
/-! PROOFS. The control operations (spec/46_control_ops.md R220 to R224): what `RESET`, `SETORD` and `SETWIN` leave behind, and
which operations and command words have no meaning. -/

namespace Sys2Proof.Machine

/-! `SETWIN` and `SETORD` (R221, R222). -/

section
variable {size : U16} {m : BitVec 2} {s : State}

theorem exec_setwin_of_le (h : size.toNat ≤ s.cfg.wMax) :
    exec (.setwin size) s = .next { s with rb := [], win := size, events := s.events ++ arrivals s.rb } :=
  (exec_setwin size s).trans (if_neg h.not_gt)

theorem exec_setwin_refused (h : s.cfg.wMax < size.toNat) : exec (.setwin size) s = .refused .reservedOperand :=
  (exec_setwin size s).trans (if_pos h)

theorem exec_setord_of_modeOf {mode : TxMode} (h : modeOf m = some mode) :
    exec (.setord m) s = .next { s with mode := mode } := by
  rw [exec, execSetord, h]

theorem exec_setord_refused (h : modeOf m = none) : exec (.setord m) s = .refused .reservedOperand := by
  rw [exec, execSetord, h]

end

/-- Settles O31: the flush in closed form, then the window; the limit is tested first. -/
theorem setwinFlushesInOrder : Obligations.SetwinFlushesInOrder :=
  fun _ _ => ⟨exec_setwin_of_le, exec_setwin_refused⟩

/-- Settles O30: the operands 0, 1 and 2 select a mode, 3 selects none. -/
theorem setordSelectsMode : Obligations.SetordSelectsMode :=
  fun _ => ⟨exec_setord_of_modeOf rfl, exec_setord_of_modeOf rfl, exec_setord_of_modeOf rfl, exec_setord_refused rfl⟩

/-! `RESET` (R220, R260, R262). -/

theorem exec_reset (s : State) : exec .reset s = .next (resetOp s) := rfl

/-- The reset input has the effect of `RESET` (R260). -/
theorem step_present_resetPin (s : State) : step (s.present .resetPin) = .next (resetOp s) :=
  (step_present_of_decode_ok rfl).trans (exec_reset s)

theorem pktByte_zero {k : Nat} (h : k < 33) : pktByte (Vector.replicate 33 0x00#8) k = 0x00#8 := by
  rw [pktByte_eq_getElem _ h, Vector.getElem_replicate]

/-- Settles O11: both ways to reset answer `resetOp s`, whose elements are those of `State.initial`. -/
theorem resetOperationRestoresEveryElement : Obligations.ResetOperationRestoresEveryElement := by
  refine fun s => ⟨resetOp s, exec_reset s, step_present_resetPin s, rfl, rfl, rfl, rfl, rfl, rfl, ?rxbuf, rfl, rfl, rfl,
    rfl, rfl, rfl, rfl, ?hist, rfl, rfl, rfl, rfl⟩
  case rxbuf => exact fun k hk => pktByte_zero hk
  case hist => exact histAt_initial s.cfg

/-! Command words without a meaning (R84, R224). -/

section
variable {c : Config} {w : U32} {s : State}

theorem decodeCmd_of_mask {r : CmdRow} (hr : r ∈ cmdTable) (hw : w &&& r.mask = r.pattern) :
    decodeCmd w = .ok (r.operands w) :=
  decodeCmd_of_fits hr ((CmdRow.fits_iff r w).mpr hw)

/-- A word whose operation code is 8 or more is a reserved operation. -/
theorem decodeCmd_of_reservedCode (h : 8 ≤ (w.extractLsb' 28 4).toNat) :
    decodeCmd w = .ok (.reservedOp (w.extractLsb' 0 31)) := by
  rw [field_toNat] at h
  exact decodeCmd_of_mask (r := cmdTable[8]) (List.getElem_mem _) ((fits_reserved w).mpr (by omega))

/-- A word with a must-be-zero bit set fits no row of R82. -/
theorem decodeCmd_of_mustBeZeroSet (h : MustBeZeroSet w) : decodeCmd w = .error .reservedEncoding := by
  rw [mustBeZeroSet_iff] at h
  rw [decodeCmd_eq]
  iterate 9 rw [if_neg (by omega)]

/-- A word with an operand out of range, and no must-be-zero bit set, is that operation with that operand. -/
theorem decodeCmd_of_operandOutOfRange (h : OperandOutOfRange c w) (hz : ¬ MustBeZeroSet w) :
    (∃ off b, decodeCmd w = .ok (.paywr off b) ∧ 26 < off.toNat) ∨
    (∃ ch raw, decodeCmd w = .ok (.smpwr ch raw) ∧ 8 < ch.toNat) ∨
    decodeCmd w = .ok (.setord 3#2) ∨
    ∃ size, decodeCmd w = .ok (.setwin size) ∧ c.wMax < size.toNat := by
  rw [mustBeZeroSet_iff] at hz
  unfold OperandOutOfRange at h
  simp only [field_toNat w 28 4] at h
  obtain ⟨hop, hoff⟩ | ⟨hop, hch⟩ | ⟨hop, hmode⟩ | ⟨hop, hsize⟩ := h
  · exact .inl ⟨_, _, decodeCmd_of_mask (r := cmdTable[3]) (List.getElem_mem _) ((fits_paywr w).mpr (by omega)), hoff⟩
  · exact .inr (.inl
      ⟨_, _, decodeCmd_of_mask (r := cmdTable[4]) (List.getElem_mem _) ((fits_smpwr w).mpr (by omega)), hch⟩)
  · refine .inr (.inr (.inl ?_))
    rw [← hmode]
    exact decodeCmd_of_mask (r := cmdTable[5]) (List.getElem_mem _) ((fits_setord w).mpr (by omega))
  · exact .inr (.inr (.inr
      ⟨_, decodeCmd_of_mask (r := cmdTable[6]) (List.getElem_mem _) ((fits_setwin w).mpr (by omega)), hsize⟩))

theorem step_present_of_reservedEncoding (h : 8 ≤ (w.extractLsb' 28 4).toNat ∨ MustBeZeroSet w) :
    step (s.present (.cmd w)) = .refused .reservedEncoding := by
  obtain hcode | hzero := h
  · exact step_present_of_decode_ok (x := .cmd w) (decodeCmd_of_reservedCode hcode)
  · exact step_of_decode_error (present_input s (.cmd w)) (decodeCmd_of_mustBeZeroSet hzero)

theorem step_present_of_operandOutOfRange (h : OperandOutOfRange s.cfg w) (hz : ¬ MustBeZeroSet w) :
    step (s.present (.cmd w)) = .refused .reservedOperand := by
  obtain ⟨off, b, hdec, hoff⟩ | ⟨ch, raw, hdec, hch⟩ | hdec | ⟨size, hdec, hsize⟩ := decodeCmd_of_operandOutOfRange h hz
  all_goals rw [step_present_of_decode_ok (x := .cmd w) hdec]
  · exact exec_paywr_refused s b hoff
  · exact exec_smpwr_refused raw s hch
  · exact exec_setord_refused rfl
  · exact exec_setwin_refused hsize

end

/-- Settles O9: each refused operation, then the words that decode to one of them or to none. -/
theorem reservedOperationsRefused : Obligations.ReservedOperationsRefused :=
  ⟨fun _ _ => rfl, fun _ b s => exec_paywr_refused s b, fun _ raw s => exec_smpwr_refused raw s,
    fun _ => exec_setord_refused rfl, fun _ _ => exec_setwin_refused, fun _ _ => step_present_of_reservedEncoding,
    fun _ _ => step_present_of_operandOutOfRange⟩

end Sys2Proof.Machine
end

