-- ==== Sys2Proof/Proofs/Completion.lean ====
section
/-! PROOFS. Nothing stops the block (spec/60_exceptions.md R230): an operation with legal operands answers a next state that
keeps the parameters, and so do operations one after the other. -/

namespace Sys2Proof.Machine

/-- Settles O7: a legal operation answers, and no operation touches the parameters or the inputs. -/
theorem legalOperationCompletes : Obligations.LegalOperationCompletes := by
  intro i s hlegal
  obtain ⟨t, ht⟩ := exec_next_of_legal hlegal
  exact ⟨t, ht, exec_outside ht⟩

/-- Settles O8, by induction on the operations: operands stay legal, for what is legal depends on the parameters only. -/
theorem legalRunNeverStops : Obligations.LegalRunNeverStops := by
  intro is
  induction is with
  | nil => exact fun s _ => ⟨s, rfl⟩
  | cons i is ih =>
    intro s hlegal
    obtain ⟨hi, hrest⟩ := List.forall_mem_cons.mp hlegal
    obtain ⟨t, ht, hout⟩ := legalOperationCompletes i s hi
    have hcfg : t.cfg = s.cfg := congrArg Prod.fst hout
    obtain ⟨u, hu⟩ := ih t (hcfg ▸ hrest)
    exact ⟨u, execSeq_cons_eq_next.mpr ⟨t, ht, hu⟩⟩

end Sys2Proof.Machine
end

