-- ==== Sys2Proof/Proofs/DroppedFrame.lean ====
section
/-! PROOFS. What a dropped frame leaves behind (spec/60_exceptions.md R232, R235, R237): a byte adds at most one drop cause,
and a byte that adds one emits nothing, leaves the reorder state alone and goes back to scanning. -/

namespace Sys2Proof.Machine

/-- From `s` to `t` there is no drop, or one that leaves no trace and is not `EMPTY_TOKEN`. -/
def DropsCleanly (s t : State) : Prop :=
  t.drops = s.drops ∨
  ∃ c, t.drops = s.drops ++ [c] ∧ c ≠ .emptyToken ∧ t.events = s.events ∧ t.st = .sScan ∧ t.reorder = s.reorder

section
variable {s t : State}

theorem dropsCleanly_congr {u : State} (hdrops : u.drops = s.drops) (hev : u.events = s.events)
    (hr : u.reorder = s.reorder) (h : DropsCleanly u t) : DropsCleanly s t := by
  simpa only [DropsCleanly, hdrops, hev, hr] using h

theorem dropsCleanly_discard (s : State) {c : DropCause} (hc : c ≠ .emptyToken) : DropsCleanly s (s.discard c) :=
  .inr ⟨c, rfl, hc, rfl, rfl, rfl⟩

/-! Finished words (R158, R160, R161): a word in progress has a byte, so none of them is empty. -/

theorem cmdFin_dropsCleanly (hpos : s.wLen ≠ 0) : DropsCleanly s (cmdFin s) := by
  rw [cmdFin, if_neg hpos]
  exact .inl rfl

theorem nameDone_drops (s : State) : (nameDone s).drops = s.drops := by
  obtain ⟨n, hn, -, -⟩ := memWrite_name s (s.tok.take (s.wLen + 1)) 0
  rw [nameDone, hn]
  rfl

theorem cfgFin_dropsCleanly (hname : s.nameLen ≠ 0) (hpos : s.wLen ≠ 0) : DropsCleanly s (cfgFin s) := by
  rw [cfgFin, if_neg (not_or.mpr ⟨hname, hpos⟩)]
  dsimp only
  split
  · exact dropsCleanly_discard (hexDecode s).1 (c := .badHex) (by decide)
  · exact .inl rfl

theorem wordDone_dropsCleanly {store : Nat} (hn : NameOk s) (hstore : storeOf s.cfg s.st = some store)
    (hf : WordFinished store s) : DropsCleanly s (wordDone s.st s) := by
  obtain ⟨hpos, -, -⟩ := hf
  cases hst : s.st <;> rw [hst] at hstore <;> cases hstore
  case sCmd => exact cmdFin_dropsCleanly (by omega)
  case sName => exact .inl (nameDone_drops s)
  case sValue =>
    obtain ⟨hname, -, -⟩ := hn hst
    exact cfgFin_dropsCleanly (by omega) (by omega)

/-! A received byte, by the state that takes it (R142). -/

variable {b : Byte}

theorem wordFinished_of_framingOk {cap store : Nat} {u : State} (hc : s.cfg.Legal) (h : FramingOk s)
    (hcap : capOf s.st = some cap) (hstore : storeOf s.cfg s.st = some store)
    (hr : wordStep cap store b s = (.done, u)) : WordFinished store u := by
  have hw := wordBounds_of_framingOk h hcap hstore
  obtain ⟨⟨htok, -⟩, -, -, -⟩ := h
  exact wordFinished_of_done hw (htok ▸ Nat.lt_succ_of_le (storeOf_le hc hstore)) hr

/-- A byte inside a word (R157 to R159). -/
theorem afterWordStep_dropsCleanly {cap store : Nat} (hc : s.cfg.Legal) (h : FramingOk s) (hcap : capOf s.st = some cap)
    (hstore : storeOf s.cfg s.st = some store) : DropsCleanly s (afterWordStep s.st (wordStep cap store b s)) := by
  have hfinished : ∀ {u}, wordStep cap store b s = (.done, u) → WordFinished store u :=
    wordFinished_of_framingOk hc h hcap hstore
  obtain ⟨-, -, -, hname⟩ := h
  have hn' := nameOk_wordStep (cap := cap) (store := store) (b := b) hname
  have hframe := wordStep_frame cap store b s
  rcases hr : wordStep cap store b s with ⟨r, u⟩
  simp only [hr] at hn' hframe
  have hst : u.st = s.st := by rw [hframe]
  have hcfg : u.cfg = s.cfg := by rw [hframe]
  refine dropsCleanly_congr (u := u) (by rw [hframe]) (by rw [hframe]) (by rw [hframe]; rfl) ?_
  rw [← hst]
  cases r with
  | more => exact .inl rfl
  | done =>
    rw [← hst, ← hcfg] at hstore
    exact wordDone_dropsCleanly hn' hstore (hfinished hr)
  | overflow => exact dropsCleanly_discard u (by decide)

theorem onScan_drops : (onScan b s).drops = s.drops := by rw [onScan_eq]

/-- A type byte is dropped as `BAD_TYPE` or selects a frame (R144). -/
theorem onType_dropsCleanly : DropsCleanly s (onType b s) := by
  unfold onType
  split
  · exact .inl rfl
  split
  · exact .inl rfl
  split
  · exact .inl rfl
  · exact dropsCleanly_discard s (by decide)

/-- An accepted packet is dropped as `STALE` only, and then the gap at the front keeps the drain from delivering (R188,
R189, R190 (b)). -/
theorem reorderAccept_dropsCleanly {p : Packet} (hfront : FrontOk s.rb) (ht : reorderAccept p s = .ok t) :
    DropsCleanly s t.toScan := by
  by_cases hw : s.win = 0#16
  · cases (reorderAccept_off hw).symm.trans ht
    exact .inl rfl
  obtain ⟨u, hu, hcase⟩ := reorderBranch_cases p hw
  cases (reorderAccept_on hw hu).symm.trans ht
  rcases hcase with ⟨hd, hdw, hnew⟩ | ⟨-, -, rfl⟩ | ⟨-, -, rfl⟩ | ⟨-, -, -, rfl⟩
  · rw [newAhead_eq p (by omega) (by omega)] at hnew
    cases hnew
    exact .inl rfl
  · exact .inl rfl
  · exact .inl rfl
  · obtain ⟨hdrop, htake⟩ := drained_of_frontOk hfront
    simp only [dropped_rb, hdrop, htake, arrivals_nil, List.append_nil]
    exact .inr ⟨.stale, rfl, by decide, rfl, rfl, rfl⟩

/-- A body byte: the 31st completes a packet, which is dropped as `BAD_CRC` or accepted (R145, R146). -/
theorem exec_rxb_body_dropsCleanly (hst : s.st = .sPkt) (hcnt : s.rxCnt.toNat ≤ 30) (hfront : FrontOk s.rb) :
    ∃ t, exec (.rxb b) s = .next t ∧ DropsCleanly s t := by
  rcases Nat.lt_or_eq_of_le hcnt with hlt | h30
  · exact ⟨_, exec_rxb_body b hst hlt, .inl rfl⟩
  have hlast : LastBodyByte s := ⟨hst, BitVec.eq_of_toNat_eq h30⟩
  cases hv : pktValid s.cfg (assembled s b) with
  | false => exact ⟨_, exec_rxb_lastBody_of_invalid hlast hv, .inr ⟨.badCrc, rfl, by decide, rfl, rfl, rfl⟩⟩
  | true =>
    obtain ⟨t, ht, hexec⟩ := exec_rxb_lastBody_of_valid hlast hv
    exact ⟨t.toScan, hexec, reorderAccept_dropsCleanly (s := { s.received b with st := .sPkt }) hfront ht⟩

theorem exec_rxb_dropsCleanly (b : Byte) (h : Inv s) : ∃ t, exec (.rxb b) s = .next t ∧ DropsCleanly s t := by
  obtain ⟨hc, hf, ⟨-, hfront, -, -⟩, -⟩ := (inv_iff s).mp h
  obtain ⟨-, -, hcnt, -⟩ := h
  cases hst : s.st
  case sScan => exact ⟨_, exec_rxb_of_scan hst, .inl onScan_drops⟩
  case sType => exact ⟨_, exec_rxb_of_type hst, onType_dropsCleanly⟩
  case sPkt => exact exec_rxb_body_dropsCleanly hst (hcnt hst) hfront
  all_goals
    have hcap := congrArg capOf hst
    have hstore := congrArg (storeOf s.cfg) hst
    exact ⟨_, exec_rxb_word hcap hstore, afterWordStep_dropsCleanly hc hf hcap hstore⟩

end

/-- Settles O52: what a byte drops, with the transmit side that no received byte touches. -/
theorem droppedFrameLeavesNoTrace : Obligations.DroppedFrameLeavesNoTrace := by
  intro b s hinv
  obtain ⟨t, ht, hclean⟩ := exec_rxb_dropsCleanly b hinv
  obtain ⟨-, htx, -⟩ := exec_receive_frame rfl ht
  rcases hclean with hnone | ⟨c, hdrops, hc, hev, hst, hr⟩
  · exact ⟨t, [], ht, by rw [hnone, List.append_nil], .inl rfl⟩
  · exact ⟨t, [c], ht, hdrops, .inr ⟨c, rfl, hc, hev, hst, hr, htx⟩⟩

end Sys2Proof.Machine
end
